-- ==== Sys2Proof/Word.lean ====
section
/-! DEFINITION. The widths, the byte and the byte string of a frame (`10_state.md` R10, `30_encoding.md` R68). A RegisterAddress,
"an 8-bit offset into the chip's register space" (R10), is a `Nat` below `Config.regSize`: it is only a key. -/

namespace Sys2Proof

/-! ### The widths of `00_scope.md` R4, at the source's literals -/

/-- Width of a register address in bits: "an 8-bit offset" (`ADDR_W`, R4, R10). -/
abbrev Config.addrW : Nat := 8

/-- Width of a register in bits, and of a frame byte: "byte-addressed, 8-bit values" (`DATA_W`, R4, R10, R68). -/
abbrev Config.dataW : Nat := 8

/-- Width of a requested or returned rate in bits, unsigned (`FREQ_W`, R4, R66, decision D8). -/
abbrev Config.freqW : Nat := 32

/-- A register byte or a frame byte (R10, R68). -/
abbrev Byte := BitVec Config.dataW

/-- A command or response frame, first byte first (R68, R76). -/
abbrev Frame := List Byte

end Sys2Proof
end

