-- ==== Sys2Proof/Config.lean ====
section
/-! DEFINITION. What is fixed for the machine: the named parameters of `00_scope.md` R4, each at the source's
literal (decision D2), and the free values the spec leaves open: the port oracle, the chip's `TickFn`, the
schedule of the agents. A free value is an opaque constant: nothing in Lean can evaluate it. -/

namespace Sys2Proof

/-! ### Types of the free values -/

/-- The two threads of control (`60_exceptions.md` R228): the host path and the interrupt path. -/
inductive Path where
  | host
  | irq
  deriving DecidableEq, Repr, Inhabited

/-- The port oracle's answer to one transaction (`20_memory.md` R44). A failed write or update leaves each target
byte at its old value or its intended new one, chosen byte by byte with no law (R42, R43, decision D20): entry `k`
of `took` says whether byte `k` took the new value, a missing entry says it did not. A failed read delivers
nothing (R41) and ignores `took`. -/
inductive PortAnswer where
  | ok
  | fail (took : List Bool)
  deriving DecidableEq, Repr, Inhabited

/-- The seven bytes of the time-keeping block in ascending address order (`10_state.md` R15 to R22). -/
structure TimeBlock where
  seconds : Byte
  minutes : Byte
  hours : Byte
  weekday : Byte
  day : Byte
  month : Byte
  year : Byte
  deriving DecidableEq, Repr, Inhabited

/-- One move of one agent of the system (`00_scope.md` section 5, item 1).
- `chip`: the chip agent takes its step (`42_alarm_manager.md` R159).
- `line level`: the other sources on the interrupt line go to `level` (`60_exceptions.md` R217, `irq_other`).
- `send p frame`: the outside sends `frame` on path `p` (`30_encoding.md` R68), at any time (log entry 17).
- `run p`: path `p` goes on with the command it waits with, or takes up the next frame sent to it (R54, R68).
- `serve`: the interrupt path takes up IRQ.SVC if the line asks for it (R219).
- `reset`: reset of the block (`70_reset_and_hazards.md` R240). -/
inductive Move where
  | chip
  | line (level : Bool)
  | send (p : Path) (frame : Frame)
  | run (p : Path)
  | serve
  | reset
  deriving DecidableEq, Repr, Inhabited

/-! ### Parameters with the source's literal as default (R4) -/

namespace Config

/-- Size of the register space, one register for each address (`addrW`, R4, R10). -/
def regSize : Nat := 2 ^ addrW

/-- STATUS1 (R11, R12). -/
def aStatus1 : Nat := 0x00
/-- INT_EN1 (R11, R13). -/
def aIntEn1 : Nat := 0x01
/-- CLKOUT_CFG (R11, R14). -/
def aClkout : Nat := 0x06
/-- Base of the 7-byte time-keeping block (R11, R15). -/
def aTime : Nat := 0x0A
/-- Base of the 6-byte alarm-1 block (R11, R23). -/
def aAlm1 : Nat := 0x11
/-- TRICKLE, recorded and never accessed by the block (R26). -/
def aTrickle : Nat := 0x1D
/-- AGING (R11, R25). -/
def aAging : Nat := 0x1E

/-- A1F, the alarm-1 pending flag, a bit of STATUS1 (R12). -/
def bA1f : Nat := 0
/-- A1IE, the alarm-1 interrupt enable, a bit of INT_EN1 (R13). -/
def bA1ie : Nat := 0
/-- CLKEN, the output enable, a bit of CLKOUT_CFG (R14). -/
def bClken : Nat := 2
/-- 12/24-hour mode bit of the hour byte (R18). -/
def bHr1224 : Nat := 6
/-- AM/PM bit of the hour byte in 12-hour mode (R18). -/
def bHrPm : Nat := 5
/-- Century bit of the month byte (R21). -/
def bCentury : Nat := 7

/-- Masks of the decode (R4, R63). -/
def mSec : Byte := 0x7F
/-- Minutes mask (R63). -/
def mMin : Byte := 0x7F
/-- 24-hour hour mask (R63). -/
def mHr24 : Byte := 0x3F
/-- 12-hour hour mask (R63). -/
def mHr12 : Byte := 0x1F
/-- Weekday mask (R63). -/
def mWday : Byte := 0x07
/-- Day-of-month mask (R63). -/
def mMday : Byte := 0x3F
/-- Month mask (R63). -/
def mMonth : Byte := 0x1F
/-- Year mask (R63). -/
def mYear : Byte := 0xFF

/-- Year the software offset `year_off` counts from (R4). -/
def swEpoch : Nat := 1900
/-- Year of chip year byte 00 with the century bit clear (R4). -/
def chipEpoch : Nat := 2000
/-- First supported year (R4, R133). -/
def yearMin : Nat := 2000
/-- Last supported year (R4, R133). -/
def yearMax : Nat := 2199
/-- Year from which the century bit is set (R4, R129). -/
def centuryThreshold : Nat := 2100

/-- Output frequencies in hertz, index 0 first (`43_clock_output.md` R180). `Machine.tableAllowed` says which tables are
refused (R189). -/
def rateTable : List Nat := [1, 64, 1024, 32768]

/-- The mask of the stored index: table length minus one (R181, R189). -/
def rateIdxMask : Byte := BitVec.ofNat dataW (rateTable.length - 1)

/-! ### Free values: opaque, no law (assumption log 3, 4, 5) -/

/-- The port oracle for transaction draws the state does not already hold an answer for (R44, U13). -/
opaque portAnswer : Nat → PortAnswer

/-- The moves of the other agents at a point between two transactions of a command (R55), where the state does not
already hold them. -/
opaque moves : Nat → List Move

/-- The agent that moves in a step, where the state does not already hold it (R53, R219, U17). -/
opaque turn : Nat → Move

/-- `TickFn`: how the chip advances the time-keeping block (R159, decision D29, U11). -/
opaque tickFn : TimeBlock → TimeBlock

end Config

end Sys2Proof
end

