-- ==== Sys2Proof/Syntax.lean ====
section
/-! DEFINITION. The sixteen commands of `30_encoding.md` R75, one constructor per row of the opcode table. -/

namespace Sys2Proof

/-- A command with its operands. A number the spec computes with (a field of a time or an alarm, a rate, the
integer to encode) is a `Nat`; `Instr.wf` says when it fits its place in the frame. A value the spec treats as
bits (a register byte, a mask, the verbatim aging byte) or as a byte that may be no legal boolean is a `Byte`. -/
inductive Instr where
  /-- BCD.DEC `byte`, `mask` (R105). -/
  | bcdDec (byte mask : Byte)
  /-- BCD.ENC `n` (R106). -/
  | bcdEnc (n : Nat)
  /-- TIME.RD (R127). -/
  | timeRd
  /-- TIME.WR with the seven fields of a WallClockTime (R130, R73). -/
  | timeWr (sec min hour wday mday mon yearOff : Nat)
  /-- ALM.RD (R152). -/
  | almRd
  /-- ALM.WR with the six time fields of an AlarmSpec and the boolean byte `en` (R155, R74, R80). -/
  | almWr (sec min hour mday mon yearOff : Nat) (en : Byte)
  /-- ALM.EN with the boolean byte `b` (R157, R80). -/
  | almEn (b : Byte)
  /-- IRQ.SVC (R220). -/
  | irqSvc
  /-- CLK.EN (R183). -/
  | clkEn
  /-- CLK.DIS (R184). -/
  | clkDis
  /-- CLK.ISEN (R185). -/
  | clkIsen
  /-- CLK.RECALC (R186). -/
  | clkRecalc
  /-- CLK.ROUND `req`, in hertz (R187). -/
  | clkRound (req : Nat)
  /-- CLK.SET `req`, in hertz (R188). -/
  | clkSet (req : Nat)
  /-- OFS.RD (R200). -/
  | ofsRd
  /-- OFS.WR `v`, a two's complement byte moved verbatim (R201, R67). -/
  | ofsWr (v : Byte)
  deriving DecidableEq, Repr, Inhabited

end Sys2Proof
end

