-- ==== Sys2Proof/WellFormed.lean ====
section
/-! DEFINITION. When a command's operands fit the places a frame has for them (`30_encoding.md` R69 to R74, R81,
widths of R64 and decision D8). Being well formed is not being legal: `TIME.WR sec=61` is a frame a host can send,
and the command answers it with InvalidArgument (R128, R212). -/

namespace Sys2Proof

/-- The operand is carried by one unsigned byte (R81). -/
def fitsByte (n : Nat) : Bool := n < 2 ^ Config.dataW

/-- The operand is carried by two bytes, low byte first: `year_off` (R73, R74). -/
def fitsHalf (n : Nat) : Bool := n < 2 ^ (2 * Config.dataW)

/-- The operand is a rate of `FREQ_W` bits (R4, R72). -/
def fitsRate (n : Nat) : Bool := n < 2 ^ Config.freqW

/-- Every numeric operand fits its place in the frame. -/
def Instr.wf : Instr → Bool
  | .bcdDec _ _ => true
  | .bcdEnc n => fitsByte n
  | .timeRd => true
  | .timeWr sec min hour wday mday mon yearOff =>
    fitsByte sec && fitsByte min && fitsByte hour && fitsByte wday && fitsByte mday && fitsByte mon &&
      fitsHalf yearOff
  | .almRd => true
  | .almWr sec min hour mday mon yearOff _ =>
    fitsByte sec && fitsByte min && fitsByte hour && fitsByte mday && fitsByte mon && fitsHalf yearOff
  | .almEn _ => true
  | .irqSvc => true
  | .clkEn => true
  | .clkDis => true
  | .clkIsen => true
  | .clkRecalc => true
  | .clkRound req => fitsRate req
  | .clkSet req => fitsRate req
  | .ofsRd => true
  | .ofsWr _ => true

end Sys2Proof
end

