-- ==== Sys2Proof/Decode.lean ====
section
/-! DEFINITION. Command frames: the opcode map of `30_encoding.md` R75, the decoder (total, refusing by name, R78,
R79) and the encoder of the same map. Multi-byte operands are little-endian (R72, R73, R81). -/

namespace Sys2Proof

/-- The sixteen opcodes of R75. -/
inductive Opcode where
  | bcdDec | bcdEnc | timeRd | timeWr | almRd | almWr | almEn | irqSvc
  | clkEn | clkDis | clkIsen | clkRecalc | clkRound | clkSet | ofsRd | ofsWr
  deriving DecidableEq, Repr, Inhabited

/-- Why a byte string is no command frame (R78, R79). Each is answered IllegalCommand. -/
inductive Reject where
  /-- The frame has no byte (R79). -/
  | emptyFrame
  /-- The first byte is no opcode of R75 (R78). -/
  | illegalOpcode (op : Byte)
  /-- The frame is shorter or longer than R75 gives for its opcode (R79). -/
  | wrongLength (op : Byte) (length : Nat)
  deriving DecidableEq, Repr, Inhabited

/-- The rows of R75 in the table's order. -/
def allOpcodes : List Opcode :=
  [.bcdDec, .bcdEnc, .timeRd, .timeWr, .almRd, .almWr, .almEn, .irqSvc,
   .clkEn, .clkDis, .clkIsen, .clkRecalc, .clkRound, .clkSet, .ofsRd, .ofsWr]

/-- The opcode byte of a row of R75. -/
def opcodeByte : Opcode → Byte
  | .bcdDec => 0x01
  | .bcdEnc => 0x02
  | .timeRd => 0x10
  | .timeWr => 0x11
  | .almRd => 0x20
  | .almWr => 0x21
  | .almEn => 0x22
  | .irqSvc => 0x23
  | .clkEn => 0x30
  | .clkDis => 0x31
  | .clkIsen => 0x32
  | .clkRecalc => 0x33
  | .clkRound => 0x34
  | .clkSet => 0x35
  | .ofsRd => 0x40
  | .ofsWr => 0x41

/-- How many bytes of a frame carry a rate (`FREQ_W` of R4; R72). -/
def rateLength : Nat := Config.freqW / Config.dataW

/-- The frame length in bytes of a row of R75, the opcode byte among them. -/
def frameLength : Opcode → Nat
  | .bcdDec => 3
  | .bcdEnc => 2
  | .timeRd => 1
  | .timeWr => 9
  | .almRd => 1
  | .almWr => 9
  | .almEn => 2
  | .irqSvc => 1
  | .clkEn => 1
  | .clkDis => 1
  | .clkIsen => 1
  | .clkRecalc => 1
  | .clkRound => 1 + rateLength
  | .clkSet => 1 + rateLength
  | .ofsRd => 1
  | .ofsWr => 2

/-- The row of R75 a byte selects, none where it is illegal (R78). -/
def opcodeOf (b : Byte) : Option Opcode := allOpcodes.find? (fun o => opcodeByte o == b)

/-- `b0 | b1 << 8 | b2 << 16 | …`, unsigned, first byte lowest (R72, R73, `20_memory.md` R47). -/
def ofLe : List Byte → Nat
  | [] => 0
  | b :: bytes => b.toNat + 2 ^ Config.dataW * ofLe bytes

/-- Format F0: no operand byte (R69). -/
def readNone (operands : List Byte) (i : Instr) : Option Instr :=
  match operands with
  | [] => some i
  | _ => none

/-- Format F1: one operand byte (R70). -/
def readOne (operands : List Byte) (f : Byte → Instr) : Option Instr :=
  match operands with
  | [b] => some (f b)
  | _ => none

/-- Format F2: two operand bytes (R71). -/
def readTwo (operands : List Byte) (f : Byte → Byte → Instr) : Option Instr :=
  match operands with
  | [b, c] => some (f b c)
  | _ => none

/-- Format F4: the operand bytes of one rate (R72). -/
def readRate (operands : List Byte) (f : Nat → Instr) : Option Instr :=
  if operands.length = rateLength then some (f (ofLe operands)) else none

/-- Formats FT and FA: eight operand bytes (R73, R74). -/
def readEight (operands : List Byte) (f : Byte → Byte → Byte → Byte → Byte → Byte → Byte → Byte → Instr) :
    Option Instr :=
  match operands with
  | [b1, b2, b3, b4, b5, b6, b7, b8] => some (f b1 b2 b3 b4 b5 b6 b7 b8)
  | _ => none

/-- The operands of a command from the bytes after the opcode, in the format R75 gives it (R69 to R74); none where
their number is not the format's. -/
def readOperands (o : Opcode) (operands : List Byte) : Option Instr :=
  match o with
  | .bcdDec => readTwo operands .bcdDec
  | .bcdEnc => readOne operands (fun n => .bcdEnc n.toNat)
  | .timeRd => readNone operands .timeRd
  | .timeWr => readEight operands (fun sec min hour wday mday mon y0 y1 =>
      .timeWr sec.toNat min.toNat hour.toNat wday.toNat mday.toNat mon.toNat (ofLe [y0, y1]))
  | .almRd => readNone operands .almRd
  | .almWr => readEight operands (fun sec min hour mday mon y0 y1 en =>
      .almWr sec.toNat min.toNat hour.toNat mday.toNat mon.toNat (ofLe [y0, y1]) en)
  | .almEn => readOne operands .almEn
  | .irqSvc => readNone operands .irqSvc
  | .clkEn => readNone operands .clkEn
  | .clkDis => readNone operands .clkDis
  | .clkIsen => readNone operands .clkIsen
  | .clkRecalc => readNone operands .clkRecalc
  | .clkRound => readRate operands .clkRound
  | .clkSet => readRate operands .clkSet
  | .ofsRd => readNone operands .ofsRd
  | .ofsWr => readOne operands .ofsWr

/-- The command a frame asks for, or why it is none (R68, R78, R79). -/
def decode (frame : Frame) : Except Reject Instr :=
  match frame with
  | [] => .error .emptyFrame
  | op :: operands =>
    match opcodeOf op with
    | none => .error (.illegalOpcode op)
    | some o =>
      match readOperands o operands with
      | none => .error (.wrongLength op frame.length)
      | some i => .ok i

/-! ### The encoder -/

/-- One unsigned byte of a frame (R81). -/
def toByte (n : Nat) : Byte := BitVec.ofNat Config.dataW n

/-- The lowest `count` bytes of a number, low byte first (R72, R73, `20_memory.md` R47). -/
def leBytes : Nat → Nat → List Byte
  | 0, _ => []
  | count + 1, n => toByte n :: leBytes count (n / 2 ^ Config.dataW)

/-- `year_off` as two bytes, low byte first (R73, R74; 16 bits by decision D8). -/
def yearBytes (n : Nat) : List Byte := leBytes 2 n

/-- A rate as its frame carries it (R72, R77). -/
def rateFrameBytes (n : Nat) : List Byte := leBytes rateLength n

/-- The row of R75 a command belongs to. -/
def opcodeOfInstr : Instr → Opcode
  | .bcdDec _ _ => .bcdDec
  | .bcdEnc _ => .bcdEnc
  | .timeRd => .timeRd
  | .timeWr _ _ _ _ _ _ _ => .timeWr
  | .almRd => .almRd
  | .almWr _ _ _ _ _ _ _ => .almWr
  | .almEn _ => .almEn
  | .irqSvc => .irqSvc
  | .clkEn => .clkEn
  | .clkDis => .clkDis
  | .clkIsen => .clkIsen
  | .clkRecalc => .clkRecalc
  | .clkRound _ => .clkRound
  | .clkSet _ => .clkSet
  | .ofsRd => .ofsRd
  | .ofsWr _ => .ofsWr

/-- The operand bytes of a command, in frame order (R69 to R74). -/
def operandBytes : Instr → List Byte
  | .bcdDec byte mask => [byte, mask]
  | .bcdEnc n => [toByte n]
  | .timeRd => []
  | .timeWr sec min hour wday mday mon yearOff =>
    [toByte sec, toByte min, toByte hour, toByte wday, toByte mday, toByte mon] ++ yearBytes yearOff
  | .almRd => []
  | .almWr sec min hour mday mon yearOff en =>
    [toByte sec, toByte min, toByte hour, toByte mday, toByte mon] ++ yearBytes yearOff ++ [en]
  | .almEn b => [b]
  | .irqSvc => []
  | .clkEn => []
  | .clkDis => []
  | .clkIsen => []
  | .clkRecalc => []
  | .clkRound req => rateFrameBytes req
  | .clkSet req => rateFrameBytes req
  | .ofsRd => []
  | .ofsWr v => [v]

/-- The frame of a command: its opcode byte, then its operands (R68, R75). -/
def encode (i : Instr) : Frame := opcodeByte (opcodeOfInstr i) :: operandBytes i

/-! ### The opcode table's words -/

/-- The frame a table word of `nbits` bits stands for: the word's bytes, made up with zero bytes to the length R75
gives for its opcode. Byte 0 of the frame is the word's lowest (the numbering of `opcode_table.json`). -/
def frameOfWord (nbits w : Nat) : Frame :=
  let v := w % 2 ^ nbits
  let given := (nbits + (Config.dataW - 1)) / Config.dataW
  let needed := match opcodeOf (toByte v) with
    | some o => frameLength o
    | none => 0
  leBytes (max given needed) v

/-- The command the decoder reads from a table word, none where it refuses. -/
def decodeTableWord (nbits w : Nat) : Option Instr :=
  match decode (frameOfWord nbits w) with
  | .ok i => some i
  | .error _ => none

end Sys2Proof
end

