-- ==== Sys2Proof/Machine/State.lean ====
section
/-! DEFINITION. The state of the machine as plain data: the register space of the chip (`10_state.md` section 1), the
block's own state (section 2), the observables (R31, R36), and the inputs a step reads. INVENTORY.md lists every
piece with its rule and its reset value. -/

namespace Sys2Proof.Machine

/-- The register space as (address, byte) pairs in one canonical form (`Memory.wf`). -/
abbrev Memory := List Host.Cell

/-- `ISR_STATE`: "two states: *idle* and *servicing*" (R29). -/
inductive IsrState where
  | idle
  | servicing
  deriving DecidableEq, Repr, Inhabited

/-- One port transaction as the block issues it (`20_memory.md` R40): `MemRead(addr, len)`, `MemWrite(addr, n, buf)`
with `n` the length of `buf`, `PortUpdate(addr, mask, val)`. -/
inductive Xact where
  | read (addr : Nat) (len : Nat)
  | write (addr : Nat) (buf : List Byte)
  | update (addr : Nat) (mask val : Byte)
  deriving DecidableEq, Repr, Inhabited

/-- One entry of `TRACE` (R36): the transaction with its kind, address, length and written data; the bytes a
successful read delivered; whether it failed. -/
structure TraceEntry where
  xact : Xact
  data : List Byte
  failed : Bool
  deriving DecidableEq, Repr, Inhabited

/-- A command in flight (R33): the command with its operands, the index of the next transaction to issue, the bytes
read so far in the order read. -/
structure Flight where
  instr : Instr
  index : Nat
  bytes : List Byte
  deriving DecidableEq, Repr, Inhabited

/-- One of the two paths (R28, R33, R228): the frames sent on it and not yet taken up, oldest first (a queue, DESIGN
CHOICE, log entry 17), and the command in flight. -/
structure PathState where
  inbox : List Frame
  flight : Option Flight
  deriving DecidableEq, Repr, Inhabited

/-- An output of the block: a response frame on a path (R76), or one `ALARM_EVENT` pulse (R31). -/
inductive Output where
  | response (p : Path) (frame : Frame)
  | alarmEvent
  deriving DecidableEq, Repr, Inhabited

/-- The whole machine. -/
structure State where
  /-- `REG`, the chip's 256 bytes (R10). -/
  reg : Memory
  /-- `LOCK`: free, or held by a path (R28). -/
  lock : Option Path
  /-- `ISR_STATE` (R29). -/
  isr : IsrState
  /-- The host path (R228). -/
  host : PathState
  /-- The interrupt path (R228). -/
  irq : PathState
  /-- The path on which `exec` runs a command (the model's own, log entry 3). -/
  active : Path
  /-- `irq_other`: the level of the other sources on the interrupt line (R217). -/
  irqOther : Bool
  /-- `TRACE`, oldest first (R36). -/
  trace : List TraceEntry
  /-- Outputs since reset, oldest first (R31, R76). -/
  outbox : List Output
  /-- The port oracle's answers to the coming transactions (R44; log entry 4). -/
  answers : List PortAnswer
  /-- The other agents' moves at the coming points between transactions (R55; log entries 2, 3). -/
  moves : List (List Move)
  /-- The agents that move in the coming steps (log entry 3). -/
  turns : List Move
  /-- How many free values were drawn (the model's own counter, log entry 3). -/
  draws : Nat
  deriving DecidableEq, Repr

/-- Why a step stops with a fault. -/
inductive Fault where
  /-- A command's script holds a transaction that is empty or leaves the register space 0x00 to 0xFF, for which the
  spec defines no port primitive (`20_memory.md` R48). Raised by `locked` before anything is issued. With the
  addresses of `00_scope.md` R4 no command raises it; it guards a re-targeted address map. Safe: the model
  stops where the spec says nothing. -/
  | portRange
  deriving DecidableEq, Repr, Inhabited

/-- Why the model gives an instruction no meaning. -/
inductive Refusal where
  /-- The command has no meaning in the model yet. Raised by no arm of `exec`: all sixteen commands are modelled.
  Safe: nothing can be proved of what such a command does. -/
  | notModelled (mnemonic : String)
  /-- The rate table is neither empty nor of a length that is 2 to a power from 0 to 8, and the spec asks to refuse
  such a table (`43_clock_output.md` R189, `93_implementation_defined.md` U14). Raised by CLK.RECALC, CLK.ROUND and
  CLK.SET, through `withTable`, before anything is done. With the table of R180 no command raises it. Safe: the
  model stops where the spec gives no behaviour. -/
  | rateTable
  deriving DecidableEq, Repr, Inhabited

/-- A path with no frame waiting and no command in flight (R240). -/
def PathState.empty : PathState := { inbox := [], flight := none }

/-- The machine right after reset with the register space `reg`: the spec takes the initial register space as an
argument (`10_state.md` R37, `70_reset_and_hazards.md` R240, R241). -/
def State.resetWith (reg : Memory) : State :=
  { reg := reg
    lock := none
    isr := .idle
    host := .empty
    irq := .empty
    active := .host
    irqOther := false
    trace := []
    outbox := []
    answers := []
    moves := []
    turns := []
    draws := 0 }

/-- The machine right after reset. No cell of the register space is listed, so every register reads as
`Memory.unlisted` (DESIGN CHOICE, unsafe, log entry 1: R37 leaves every byte open). -/
def State.reset : State := State.resetWith []

end Sys2Proof.Machine
end

