-- ==== Sys2Proof/Machine/Memory.lean ====
section
/-! DEFINITION. The register space `REG` of 256 bytes (`10_state.md` R10) as a list of cells in canonical form:
addresses strictly rising and inside 0x00 to 0xFF, no cell at the value an unlisted address reads as. -/

namespace Sys2Proof.Machine

/-- What an unlisted address reads as (DESIGN CHOICE, unsafe, log entry 1). -/
def Memory.unlisted : Byte := 0x00

/-- The byte `REG[a]`. -/
def Memory.get : Memory → Nat → Byte
  | [], _ => Memory.unlisted
  | (b, v) :: m, a => if a = b then v else Memory.get m a

/-- The list with every cell at `a` taken out (a canonical list has at most one). -/
def Memory.erase : Memory → Nat → Memory
  | [], _ => []
  | (b, v) :: m, a => if a = b then Memory.erase m a else (b, v) :: Memory.erase m a

/-- The list with `v` at `a`, in address order, whatever `v` is. -/
def Memory.insert : Memory → Nat → Byte → Memory
  | [], a, v => [(a, v)]
  | (b, w) :: m, a, v =>
    if a < b then (a, v) :: (b, w) :: m
    else if a = b then (a, v) :: m
    else (b, w) :: Memory.insert m a v

/-- `REG[a] <- v`, keeping the canonical form. An address outside the space holds nothing; no transaction reaches
one (`Fault.portRange`). -/
def Memory.set (m : Memory) (a : Nat) (v : Byte) : Memory :=
  if a < Config.regSize then
    if v = Memory.unlisted then m.erase a else m.insert a v
  else m

/-- `[REG[a], REG[a+1], ..., REG[a+n-1]]` (`20_memory.md` R41). -/
def Memory.readBytes (m : Memory) (a : Nat) : Nat → List Byte
  | 0 => []
  | n + 1 => m.get a :: Memory.readBytes m (a + 1) n

/-- `REG[a+k] <- buf[k]` for every `k` (R42). -/
def Memory.writeBytes (m : Memory) (a : Nat) : List Byte → Memory
  | [] => m
  | v :: buf => Memory.writeBytes (m.set a v) (a + 1) buf

/-- Every address of the list lies above `low` or is `low`, they rise strictly and stay inside the space, and no
cell holds the unlisted value. -/
def Memory.wfFrom : Nat → Memory → Bool
  | _, [] => true
  | low, (a, v) :: m =>
    decide (low ≤ a) && decide (a < Config.regSize) && decide (v ≠ Memory.unlisted) && Memory.wfFrom (a + 1) m

/-- The canonical form: equal register spaces are equal lists. -/
def Memory.wf (m : Memory) : Bool := Memory.wfFrom 0 m

/-- The byte of the register space at `a`, as the chip holds it. -/
def State.byteAt (s : State) (a : Nat) : Byte := s.reg.get a

end Sys2Proof.Machine
end

