-- ==== Sys2Proof/Machine/Operands.lean ====
section
/-! DEFINITION. What commands compute from register bytes and operands: the BCD codec (`40_bcd_codec.md`), the two
block layouts and records (`30_encoding.md` R60 to R67), validation, the field decoders and encoders
(`41_time_translator.md`, `42_alarm_manager.md`), the rate table (`43_clock_output.md`), the response frames
(R76, R77). Everything here is a function of its arguments alone. -/

namespace Sys2Proof.Machine

/-! ### Bits -/

/-- The byte whose only set bit is bit `k`. -/
def bitMask (k : Nat) : Byte := 1 <<< k

/-- Bit `k` of a byte (`v[k]`, `00_scope.md` section 7). -/
def bitOf (v : Byte) (k : Nat) : Bool := v.getLsbD k

/-- `(old & ~mask) | (val & mask)`: the masked update of one byte (`20_memory.md` R43). -/
def mergeBits (old mask val : Byte) : Byte := (old &&& ~~~mask) ||| (val &&& mask)

/-- A bit as the boolean byte of a response (R65, R77). -/
def boolByte (b : Bool) : Byte := if b then 1 else 0

/-- The reading of a boolean operand: 0x00 or 0x01, anything else has none (R80). -/
def readBool (b : Byte) : Option Bool :=
  if b = 0x00 then some false else if b = 0x01 then some true else none

/-! ### The BCD codec (R100 to R102) -/

/-- `m[7:4]`. -/
def highNibble (b : Byte) : Nat := b.toNat / 16

/-- `m[3:0]`. -/
def lowNibble (b : Byte) : Nat := b.toNat % 16

/-- `bcd_decode(byte, mask)` (R100): total, 0 to 165. -/
def bcdDecode (byte mask : Byte) : Nat := highNibble (byte &&& mask) * 10 + lowNibble (byte &&& mask)

/-- `bcd_encode(n)` (R101): defined only for 0 to 99. -/
def bcdEncode (n : Nat) : Option Byte :=
  if n ≤ 99 then some (BitVec.ofNat Config.dataW (n / 10 * 16 + n % 10)) else none

/-- `bcd_valid(b)` (R102). -/
def bcdValid (b : Byte) : Bool := decide (highNibble b ≤ 9) && decide (lowNibble b ≤ 9)

/-! ### The blocks -/

/-- The six bytes of the alarm-1 block in ascending address order (`10_state.md` R23). -/
structure AlarmBlock where
  seconds : Byte
  minutes : Byte
  hours : Byte
  day : Byte
  month : Byte
  year : Byte
  deriving DecidableEq, Repr, Inhabited

/-- The time-keeping block in ascending address order: seconds first (R15, R47). -/
def timeBytes (t : TimeBlock) : List Byte := [t.seconds, t.minutes, t.hours, t.weekday, t.day, t.month, t.year]

/-- The block of a 7-byte buffer (`buf[0]` is SECONDS, R120). -/
def timeOfBytes (buf : List Byte) : TimeBlock :=
  { seconds := buf.getD 0 0, minutes := buf.getD 1 0, hours := buf.getD 2 0, weekday := buf.getD 3 0
    day := buf.getD 4 0, month := buf.getD 5 0, year := buf.getD 6 0 }

/-- The alarm-1 block in ascending address order (R23, R47). -/
def alarmBytes (a : AlarmBlock) : List Byte := [a.seconds, a.minutes, a.hours, a.day, a.month, a.year]

/-- The block of a 6-byte buffer (`a[0]` is ALM_SECONDS, R150). -/
def alarmOfBytes (buf : List Byte) : AlarmBlock :=
  { seconds := buf.getD 0 0, minutes := buf.getD 1 0, hours := buf.getD 2 0
    day := buf.getD 3 0, month := buf.getD 4 0, year := buf.getD 5 0 }

/-! ### The time translator (R120 to R129) -/

/-- WallClockTime (R64). `hour` is always a 24-hour value; `wday` is 0-based and may be read as -1. -/
structure WallClockTime where
  sec : Nat
  min : Nat
  hour : Nat
  wday : Int
  mday : Nat
  mon : Nat
  yearOff : Nat
  deriving DecidableEq, Repr, Inhabited

/-- `dec_hour(b)` (R122): in 12-hour mode a raw 12 becomes 0 before PM adds 12. -/
def decodeHour (b : Byte) : Nat :=
  if bitOf b Config.bHr1224 then
    let raw := bcdDecode b Config.mHr12
    let h := if raw = 12 then 0 else raw
    if bitOf b Config.bHrPm then h + 12 else h
  else bcdDecode b Config.mHr24

/-- `year_off` from a two-digit year and the month byte that holds the century bit (R126, R151). -/
def decodeYear (yy : Nat) (month : Byte) : Nat :=
  yy + (Config.chipEpoch - Config.swEpoch) + (if bitOf month Config.bCentury then 100 else 0)

/-- The record of a time-keeping block (R120 to R126). -/
def decodeTime (t : TimeBlock) : WallClockTime :=
  { sec := bcdDecode t.seconds Config.mSec
    min := bcdDecode t.minutes Config.mMin
    hour := decodeHour t.hours
    wday := (bcdDecode t.weekday Config.mWday : Int) - 1
    mday := bcdDecode t.day Config.mMday
    mon := bcdDecode t.month Config.mMonth
    yearOff := decodeYear (bcdDecode t.year Config.mYear) t.month }

/-- The supported years as `year_off` (R64, R128). -/
def yearValid (yearOff : Nat) : Bool :=
  decide (Config.yearMin ≤ Config.swEpoch + yearOff) && decide (Config.swEpoch + yearOff ≤ Config.yearMax)

/-- `time_valid(t)` (R128). The day is not checked against the month. -/
def timeValid (t : WallClockTime) : Bool :=
  decide (t.sec ≤ 59) && decide (t.min ≤ 59) && decide (t.hour ≤ 23) && decide (0 ≤ t.wday) && decide (t.wday ≤ 6) &&
    decide (1 ≤ t.mday) && decide (t.mday ≤ 31) && decide (1 ≤ t.mon) && decide (t.mon ≤ 12) && yearValid t.yearOff

/-- The century bit the month byte of `year_off` carries (R129). -/
def centuryBits (yearOff : Nat) : Byte :=
  if Config.centuryThreshold ≤ Config.swEpoch + yearOff then bitMask Config.bCentury else 0

/-- `time_encode(t)` (R129): 24-hour form, undescribed bits 0; none where a field has no BCD form. -/
def encodeTime (t : WallClockTime) : Option TimeBlock :=
  match bcdEncode t.sec, bcdEncode t.min, bcdEncode t.hour, bcdEncode (t.wday + 1).toNat, bcdEncode t.mday,
    bcdEncode t.mon, bcdEncode (t.yearOff % 100) with
  | some sec, some min, some hour, some wday, some mday, some mon, some year =>
    some { seconds := sec, minutes := min, hours := hour, weekday := wday, day := mday
           month := mon ||| centuryBits t.yearOff, year := year }
  | _, _, _, _, _, _, _ => none

/-! ### The alarm record (R150 to R154, R158) -/

/-- The time fields of an AlarmSpec (R65); `enabled` and `pending` stand in other registers. -/
structure AlarmTime where
  sec : Nat
  min : Nat
  hour : Nat
  mday : Nat
  mon : Nat
  yearOff : Nat
  deriving DecidableEq, Repr, Inhabited

/-- The fields of an alarm block, in the century of the live month byte (R150, R151). -/
def decodeAlarm (a : AlarmBlock) (liveMonth : Byte) : AlarmTime :=
  { sec := bcdDecode a.seconds Config.mSec
    min := bcdDecode a.minutes Config.mMin
    hour := bcdDecode a.hours Config.mHr24
    mday := bcdDecode a.day Config.mMday
    mon := bcdDecode a.month Config.mMonth
    yearOff := decodeYear (bcdDecode a.year Config.mYear) liveMonth }

/-- The range checks of `alarm_valid(x)` on the time fields (R153); its check of `en` is `readBool`. -/
def alarmValid (x : AlarmTime) : Bool :=
  decide (x.sec ≤ 59) && decide (x.min ≤ 59) && decide (x.hour ≤ 23) &&
    decide (1 ≤ x.mday) && decide (x.mday ≤ 31) && decide (1 ≤ x.mon) && decide (x.mon ≤ 12) && yearValid x.yearOff

/-- `alarm_encode(x)` (R154): the century is stored nowhere; none where a field has no BCD form. -/
def encodeAlarm (x : AlarmTime) : Option AlarmBlock :=
  match bcdEncode x.sec, bcdEncode x.min, bcdEncode x.hour, bcdEncode x.mday, bcdEncode x.mon,
    bcdEncode (x.yearOff % 100) with
  | some sec, some min, some hour, some mday, some mon, some year =>
    some { seconds := sec, minutes := min, hours := hour, day := mday, month := mon, year := year }
  | _, _, _, _, _, _ => none

/-- `alarm_match`: six decoded fields equal, the live hour through 12/24 decoding; weekday and century are not
compared (R158). -/
def alarmMatch (t : TimeBlock) (a : AlarmBlock) : Bool :=
  decide (bcdDecode t.seconds Config.mSec = bcdDecode a.seconds Config.mSec) &&
    decide (bcdDecode t.minutes Config.mMin = bcdDecode a.minutes Config.mMin) &&
    decide (decodeHour t.hours = bcdDecode a.hours Config.mHr24) &&
    decide (bcdDecode t.day Config.mMday = bcdDecode a.day Config.mMday) &&
    decide (bcdDecode t.month Config.mMonth = bcdDecode a.month Config.mMonth) &&
    decide (bcdDecode t.year Config.mYear = bcdDecode a.year Config.mYear)

/-! ### The rate table (R180 to R189) -/

/-- `|a - b|` on unbounded numbers (R182). -/
def distance (a b : Nat) : Nat := (a - b) + (b - a)

/-- The scan of R182 over the entries from index `i` on; a tie keeps the lower index. -/
def nearestFrom (req best bestRate i : Nat) : List Nat → Nat
  | [] => best
  | rate :: rates =>
    if distance rate req < distance bestRate req then nearestFrom req i rate (i + 1) rates
    else nearestFrom req best bestRate (i + 1) rates

/-- `nearest_index(req)` (R182); none is UnsupportedRate, raised only on an empty table (R190). -/
def nearestIndex (table : List Nat) (req : Nat) : Option Nat :=
  match table with
  | [] => none
  | rate :: rates => some (nearestFrom req 0 rate 1 rates)

/-- `RATE_TABLE[nearest_index(req)]` with its index (R187, R188). -/
def nearestRate (table : List Nat) (req : Nat) : Option (Nat × Nat) :=
  match nearestIndex table req with
  | none => none
  | some idx =>
    match table[idx]? with
    | none => none
    | some rate => some (idx, rate)

/-- `RATE_TABLE[v & mask]` (R181, R186); none where the masked index has no entry (R190). -/
def storedRate (table : List Nat) (mask v : Byte) : Option Nat := table[(v &&& mask).toNat]?

/-- The required size of a rate table (R189, R252): its length is 2 to some power from 0 to 8, so that the mask
"length - 1" covers exactly its indices. -/
def tableSized (table : List Nat) : Bool :=
  (List.range (Config.dataW + 1)).any fun k => decide (table.length = 2 ^ k)

/-- The tables for which the spec says what the commands do: those of the required size (R189) and the empty one, on
which they answer UnsupportedRate (R190). Any other is refused (R189, `93_implementation_defined.md` U14). -/
def tableAllowed (table : List Nat) : Bool := table.isEmpty || tableSized table

/-! ### Response frames (R76, R77) -/

/-- The status byte of a response (R76, R210). -/
inductive Status where
  | ok
  | busError
  | invalidArgument
  | unsupportedRate
  | illegalCommand
  deriving DecidableEq, Repr, Inhabited

/-- The codes of R76. -/
def statusCode : Status → Byte
  | .ok => 0x00
  | .busError => 0x01
  | .invalidArgument => 0x02
  | .unsupportedRate => 0x03
  | .illegalCommand => 0x7F

/-- The response of a command that ended well: status OK, then the payload (R76). -/
def okFrame (payload : List Byte) : Frame := statusCode .ok :: payload

/-- The response of a command that raised an error: the code and nothing else (R76, R216). -/
def errorFrame (st : Status) : Frame := [statusCode st]

/-- The payload of TIME.RD: `wday` as a signed byte, the year low byte first (R77). -/
def timePayload (t : WallClockTime) : List Byte :=
  [toByte t.sec, toByte t.min, toByte t.hour, BitVec.ofInt Config.dataW t.wday, toByte t.mday, toByte t.mon] ++ yearBytes t.yearOff

/-- The payload of ALM.RD (R77). -/
def alarmPayload (x : AlarmTime) (enabled pending : Bool) : List Byte :=
  [toByte x.sec, toByte x.min, toByte x.hour, toByte x.mday, toByte x.mon] ++ yearBytes x.yearOff ++
    [boolByte enabled, boolByte pending]

end Sys2Proof.Machine
end

