-- ==== Sys2Proof/Machine/Checks.lean ====
section
/-! DEFINITION. The part of each command that comes before LOCK and before any transaction: the operand checks
(`60_exceptions.md` R212, R215) and the commands that answer without touching hardware (R107, R187). One definition
per command; `answerBeforeLock` gathers them for a path that takes up a command while the other path is running. -/

namespace Sys2Proof.Machine

/-- BCD.DEC answers `bcd_decode(byte, mask)` for every operand pair (R105). -/
def answerBcdDec (byte mask : Byte) : Frame := okFrame [toByte (bcdDecode byte mask)]

/-- BCD.ENC answers the packed byte, or InvalidArgument above 99 (R106, decision D10). -/
def answerBcdEnc (n : Nat) : Frame :=
  match bcdEncode n with
  | some b => okFrame [b]
  | none => errorFrame .invalidArgument

/-- CLK.ROUND answers the nearest rate without touching hardware (R187), UnsupportedRate on an empty table (R190). -/
def answerClkRound (req : Nat) : Frame :=
  match nearestRate Config.rateTable req with
  | some (_, rate) => okFrame (rateFrameBytes rate)
  | none => errorFrame .unsupportedRate

/-- TIME.WR's check and encoding: all seven bytes before any write (R128 to R131). `encodeTime` has a value
wherever `timeValid` holds (R129), so InvalidArgument is raised exactly where `timeValid` fails. -/
def checkTimeWr (t : WallClockTime) : Except Status TimeBlock :=
  if timeValid t then
    match encodeTime t with
    | some block => .ok block
    | none => .error .invalidArgument
  else .error .invalidArgument

/-- ALM.WR's check and encoding (R153 to R155): the six bytes and the boolean `enabled`. -/
def checkAlmWr (x : AlarmTime) (en : Byte) : Except Status (AlarmBlock × Bool) :=
  if alarmValid x then
    match encodeAlarm x, readBool en with
    | some block, some enabled => .ok (block, enabled)
    | _, _ => .error .invalidArgument
  else .error .invalidArgument

/-- ALM.EN's check: the operand is a boolean byte (R157, R80). -/
def checkAlmEn (b : Byte) : Except Status Bool :=
  match readBool b with
  | some enabled => .ok enabled
  | none => .error .invalidArgument

/-- CLK.SET's choice of index and rate, before LOCK (R188); UnsupportedRate on an empty table (R190). -/
def checkClkSet (req : Nat) : Except Status (Nat × Nat) :=
  match nearestRate Config.rateTable req with
  | some found => .ok found
  | none => .error .unsupportedRate

/-- CLK.RECALC raises UnsupportedRate before any transaction on an empty table (R190, R210, R213). -/
def checkClkRecalc : Except Status Unit :=
  if Config.rateTable.isEmpty then .error .unsupportedRate else .ok ()

/-- The response a failed check gives, none where the check passes (R215, R216). -/
def errorOf {α : Type} : Except Status α → Option Frame
  | .error st => some (errorFrame st)
  | .ok _ => none

/-- The early answer of a command that uses the rate table; none on a table the spec refuses, so that the command waits
for a step of its own, which refuses it (R189). -/
def onTable (table : List Nat) (answer : Option Frame) : Option Frame := if tableAllowed table then answer else none

/-- The response of a command that ends before LOCK (R54: it touches no hardware, or its operands are refused), none
for a command that needs LOCK. -/
def answerBeforeLock : Instr → Option Frame
  | .bcdDec byte mask => some (answerBcdDec byte mask)
  | .bcdEnc n => some (answerBcdEnc n)
  | .timeRd => none
  | .timeWr sec min hour wday mday mon yearOff => errorOf (checkTimeWr ⟨sec, min, hour, wday, mday, mon, yearOff⟩)
  | .almRd => none
  | .almWr sec min hour mday mon yearOff en => errorOf (checkAlmWr ⟨sec, min, hour, mday, mon, yearOff⟩ en)
  | .almEn b => errorOf (checkAlmEn b)
  | .irqSvc => none
  | .clkEn => none
  | .clkDis => none
  | .clkIsen => none
  | .clkRecalc => onTable Config.rateTable (errorOf checkClkRecalc)
  | .clkRound req => onTable Config.rateTable (some (answerClkRound req))
  | .clkSet req => onTable Config.rateTable (errorOf (checkClkSet req))
  | .ofsRd => none
  | .ofsWr _ => none

end Sys2Proof.Machine
end

