-- ==== Sys2Proof/Machine/Flags.lean ====
section
/-! DEFINITION. The named fields of the register space: the single-bit flags of `10_state.md` R35, the rate index,
the two blocks, and the interrupt line of `60_exceptions.md` R217. The block has no condition codes (R35). -/

namespace Sys2Proof.Machine

/-- A1F, the alarm-1 pending flag: STATUS1 bit 0 (R12). -/
def State.a1f (s : State) : Bool := bitOf (s.byteAt Config.aStatus1) Config.bA1f

/-- A1IE, the alarm-1 interrupt enable: INT_EN1 bit 0 (R13). -/
def State.a1ie (s : State) : Bool := bitOf (s.byteAt Config.aIntEn1) Config.bA1ie

/-- CLKEN, the output enable: CLKOUT_CFG bit 2 (R14). -/
def State.clken (s : State) : Bool := bitOf (s.byteAt Config.aClkout) Config.bClken

/-- RSEL, the rate-select index: the masked low bits of CLKOUT_CFG (R14, R181). -/
def State.rsel (s : State) : Nat := (s.byteAt Config.aClkout &&& Config.rateIdxMask).toNat

/-- The live 12/24-hour mode bit: HOURS bit 6 (R18). -/
def State.hourMode12 (s : State) : Bool := bitOf (s.byteAt (Config.aTime + 2)) Config.bHr1224

/-- The live AM/PM bit: HOURS bit 5, with a meaning in 12-hour mode (R18). -/
def State.hourPm (s : State) : Bool := bitOf (s.byteAt (Config.aTime + 2)) Config.bHrPm

/-- The live century bit: MONTH bit 7 (R21). -/
def State.century (s : State) : Bool := bitOf (s.byteAt (Config.aTime + 5)) Config.bCentury

/-- AGING as the signed value it stands for (R25). -/
def State.agingValue (s : State) : Int := (s.byteAt Config.aAging).toInt

/-- The time-keeping block of a register space (R15). -/
def Memory.timeBlock (m : Memory) : TimeBlock := timeOfBytes (m.readBytes Config.aTime 7)

/-- The alarm-1 block of a register space (R23). -/
def Memory.alarmBlock (m : Memory) : AlarmBlock := alarmOfBytes (m.readBytes Config.aAlm1 6)

/-- `IRQ = (REG[0x00][0] & REG[0x01][0]) | irq_other` (R30, R217): a level, not stored. -/
def State.irqLine (s : State) : Bool := (s.a1f && s.a1ie) || s.irqOther

end Sys2Proof.Machine
end

