-- ==== Sys2Proof/Machine/Chip.lean ====
section
/-! DEFINITION. The chip agent (`42_alarm_manager.md` section 4): it advances the time-keeping block by `TickFn` and
runs the alarm compare. It takes no lock and touches nothing but the time block and STATUS1 bit 0 (R38, R55, R159). -/

namespace Sys2Proof.Machine

/-- The register space after the time moved on by `tick`: first half of `chip_step` (R159). -/
def tickedReg (tick : TimeBlock → TimeBlock) (m : Memory) : Memory :=
  m.writeBytes Config.aTime (timeBytes (tick m.timeBlock))

/-- `if alarm_match(REG) then REG[0x00][0] <- 1`: second half of `chip_step` (R159). It never clears the flag
(R160) and does not look at A1IE. -/
def comparedReg (m : Memory) : Memory :=
  if alarmMatch m.timeBlock m.alarmBlock then
    m.set Config.aStatus1 (m.get Config.aStatus1 ||| bitMask Config.bA1f)
  else m

/-- The chip agent's step, for a chip that counts by `tick` (R159: `TickFn` is an argument of the model). -/
def chipStepWith (tick : TimeBlock → TimeBlock) (s : State) : State :=
  { s with reg := comparedReg (tickedReg tick s.reg) }

/-- The chip agent's step in the machine: the count is the free value `Config.tickFn` (D29, log entry 5). -/
def chipStep (s : State) : State := chipStepWith Config.tickFn s

end Sys2Proof.Machine
end

