-- ==== Sys2Proof/Machine/Ops.lean ====
section
/-! DEFINITION. The shared operations of all commands: paths, responses, taking up a command, LOCK, the moves of the
other agents between transactions, the three port primitives, raising an error, and running a script of
transactions (`20_memory.md`, `60_exceptions.md`). -/

namespace Sys2Proof.Machine

/-! ### Paths -/

/-- The state of one path (R228). -/
def State.pathState (s : State) : Path → PathState
  | .host => s.host
  | .irq => s.irq

/-- The state with one path's state replaced. -/
def State.withPath (s : State) (p : Path) (ps : PathState) : State :=
  match p with
  | .host => { s with host := ps }
  | .irq => { s with irq := ps }

/-- The command in flight on a path (R33). -/
def State.flightOf (s : State) (p : Path) : Option Flight := (s.pathState p).flight

/-- The state with the command in flight of a path replaced. -/
def State.withFlight (s : State) (p : Path) (f : Option Flight) : State :=
  s.withPath p { s.pathState p with flight := f }

/-- The frames sent on a path and not yet taken up. -/
def State.inboxOf (s : State) (p : Path) : List Frame := (s.pathState p).inbox

/-- The state with the inbox of a path replaced. -/
def State.withInbox (s : State) (p : Path) (frames : List Frame) : State :=
  s.withPath p { s.pathState p with inbox := frames }

/-- The outside sends a frame on a path (R68). DESIGN CHOICE: if the path's command is in flight or an earlier frame
waits, the frame waits behind it, in order and without limit; the spec says only that the host sends one command and
waits for its response (log entry 17). -/
def deliver (p : Path) (frame : Frame) (s : State) : State := s.withInbox p (s.inboxOf p ++ [frame])

/-- A response frame leaves the block on a path (R76). -/
def respond (p : Path) (frame : Frame) (s : State) : State := { s with outbox := s.outbox ++ [.response p frame] }

/-- `emit ALARM_EVENT`: one pulse (R31). -/
def emitAlarm (s : State) : State := { s with outbox := s.outbox ++ [.alarmEvent] }

/-! ### Taking up a command -/

/-- Whether a path has IRQ.SVC in flight. -/
def hasIrqSvc (ps : PathState) : Bool :=
  match ps.flight with
  | some f => f.instr == .irqSvc
  | none => false

/-- `ISR_STATE` after IRQ.SVC returns on one path: idle, unless the other path has an IRQ.SVC in flight that has been
taken up and has not returned (R29; log entry 8). -/
def isrNow (s : State) : IsrState := if hasIrqSvc s.host || hasIrqSvc s.irq then .servicing else .idle

/-- A command that needs LOCK is taken up on a path: it is in flight with no transaction issued (R33, R34); IRQ.SVC
sets `ISR_STATE` to servicing at this moment (R29, R220). -/
def takeUp (p : Path) (i : Instr) (s : State) : State :=
  let s' := s.withFlight p (some { instr := i, index := 0, bytes := [] })
  if i = .irqSvc then { s' with isr := .servicing } else s'

/-- What a path that goes on finds to do. -/
inductive Fetched where
  /-- Nothing waits and no frame was sent. -/
  | idle
  /-- The next frame is no command (R78, R79); the state is without it. -/
  | illegal (s : State)
  /-- A command to run; the state is without its frame. -/
  | command (i : Instr) (s : State)
  deriving DecidableEq, Repr

/-- A path goes on: with the command it waits with (R54), else with the next frame sent to it (R68, R215: the frame is
checked first). A path runs one command at a time (R33). Frames are taken up in the order sent (DESIGN CHOICE, log
entry 17). -/
def fetch (p : Path) (s : State) : Fetched :=
  match s.flightOf p with
  | some f => .command f.instr s
  | none =>
    match s.inboxOf p with
    | [] => .idle
    | frame :: rest =>
      match decode frame with
      | .ok i => .command i (s.withInbox p rest)
      | .error _ => .illegal (s.withInbox p rest)

/-- A frame that is no command is answered IllegalCommand and changes nothing else (R78, R79, R214). -/
def answerIllegal (p : Path) (s : State) : State := respond p (errorFrame .illegalCommand) s

/-- Whether the interrupt path may take up IRQ.SVC: the line is high, the handler idle, the path free (R219, R223). -/
def serviceDue (s : State) : Bool :=
  s.irqLine && decide (s.isr = .idle) && (s.flightOf .irq).isNone

/-! ### Reset of the block -/

/-- Reset of the block: LOCK free, handler idle, nothing in flight, no output outstanding, TRACE empty; the register
space is not touched (R240, R241). The frames the host has not sent through yet, the line and the free inputs
belong to the outside and stay (log entry 9). -/
def blockReset (s : State) : State :=
  { s with
    lock := none
    isr := .idle
    host := { s.host with flight := none }
    irq := { s.irq with flight := none }
    trace := []
    outbox := [] }

/-! ### The other agents between the transactions of a command (R55, R225) -/

/-- Path `p` moves while the active path is running its command: it takes up a command, answers it if it needs no
LOCK (R107), and otherwise waits at `acquire LOCK` (R54, R223). The active path itself is busy (R33). -/
def otherRuns (p : Path) (s : State) : State :=
  if p = s.active then s
  else
    match fetch p s with
    | .idle => s
    | .illegal s' => answerIllegal p s'
    | .command i s' =>
      match answerBeforeLock i with
      | some frame => respond p frame s'
      | none => takeUp p i s'

/-- The interrupt path takes up IRQ.SVC while the active path is running; it then waits at `acquire LOCK` (R219, R223). -/
def otherServes (s : State) : State :=
  if s.active ≠ .irq && serviceDue s then takeUp .irq .irqSvc s else s

/-- One move of another agent while a command runs on the active path. -/
def performMove (m : Move) (s : State) : State :=
  match m with
  | .chip => chipStep s
  | .line level => { s with irqOther := level }
  | .send p frame => deliver p frame s
  | .run p => otherRuns p s
  | .serve => otherServes s
  | .reset => blockReset s

/-- The moves of one point, in order; a reset ends the running command, so nothing after it belongs to this point. -/
def performMoves : List Move → State → State
  | [], s => s
  | m :: ms, s => if m = .reset then blockReset s else performMoves ms (performMove m s)

/-- The moves at the coming point: what the state holds, else the free value (log entry 3). -/
def nextMoves (s : State) : List Move :=
  match s.moves with
  | ms :: _ => ms
  | [] => Config.moves s.draws

/-- The state after the moves of a point are drawn. -/
def popMoves (s : State) : State :=
  match s.moves with
  | _ :: rest => { s with moves := rest }
  | [] => { s with draws := s.draws + 1 }

/-- A point outside every transaction of a running command: any number of other agents' moves may fall here (R55). -/
def interfere (s : State) : State := performMoves (nextMoves s) (popMoves s)

/-! ### The port primitives (R40 to R44) -/

/-- The port oracle's answer to the coming transaction: what the state holds, else the free value (R44, log entry 4). -/
def nextAnswer (s : State) : PortAnswer :=
  match s.answers with
  | a :: _ => a
  | [] => Config.portAnswer s.draws

/-- The state after the port oracle's answer is drawn. -/
def popAnswer (s : State) : State :=
  match s.answers with
  | _ :: rest => { s with answers := rest }
  | [] => { s with draws := s.draws + 1 }

/-- The transaction is one for which the spec defines a primitive: at least one byte, all inside 0x00 to 0xFF (R48). -/
def xactInside : Xact → Bool
  | .read addr len => decide (1 ≤ len) && decide (addr + len ≤ Config.regSize)
  | .write addr buf => decide (1 ≤ buf.length) && decide (addr + buf.length ≤ Config.regSize)
  | .update addr _ _ => decide (addr < Config.regSize)

/-- Whether the port let the transaction succeed. -/
def portOk : PortAnswer → Bool
  | .ok => true
  | .fail _ => false

/-- The bytes a failed write leaves: byte `k` is the new one where the oracle says it was taken (R42, D20). -/
def mixBytes : List Bool → List Byte → List Byte → List Byte
  | t :: took, o :: old, n :: new => (if t then n else o) :: mixBytes took old new
  | [], o :: old, _ :: new => o :: mixBytes [] old new
  | _, _, _ => []

/-- The register space after a transaction (R41, R42, R43). -/
def xactReg (x : Xact) (a : PortAnswer) (m : Memory) : Memory :=
  match x, a with
  | .read _ _, _ => m
  | .write addr buf, .ok => m.writeBytes addr buf
  | .write addr buf, .fail took => m.writeBytes addr (mixBytes took (m.readBytes addr buf.length) buf)
  | .update addr mask val, .ok => m.set addr (mergeBits (m.get addr) mask val)
  | .update addr mask val, .fail took =>
    if took.headD false then m.set addr (mergeBits (m.get addr) mask val) else m

/-- The bytes a transaction delivers: a read that succeeds delivers its bytes, anything else none (R41). -/
def xactData (x : Xact) (a : PortAnswer) (m : Memory) : List Byte :=
  match x, a with
  | .read addr len, .ok => m.readBytes addr len
  | _, _ => []

/-- How the transactions of a command ended. -/
inductive Ended where
  /-- All of them succeeded. -/
  | done
  /-- One failed; none after it was issued (R45). -/
  | busError
  /-- The block was reset; no command is in flight any more (R240). -/
  | reset
  deriving DecidableEq, Repr, Inhabited

/-- The effect of one transaction with the port's answer `a`: the register space, one entry of TRACE (R36), the index
and the bytes of the command in flight (R33). -/
def applyXact (x : Xact) (a : PortAnswer) (f : Flight) (s : State) : State :=
  let data := xactData x a s.reg
  { s.withFlight s.active (some { f with index := f.index + 1, bytes := f.bytes ++ data }) with
    reg := xactReg x a s.reg
    trace := s.trace ++ [{ xact := x, data := data, failed := !portOk a }] }

/-- Issue one transaction: first the point before it (R55), then the transaction itself, atomic (R46). -/
def issue (x : Xact) (s : State) : Ended × State :=
  let s1 := interfere s
  match s1.flightOf s1.active with
  | none => (.reset, s1)
  | some f =>
    let a := nextAnswer s1
    (if portOk a then .done else .busError, applyXact x a f (popAnswer s1))

/-- Issue a list of transactions in order, each complete before the next begins (R53); a failure or a reset ends the
list (R45). -/
def issueAll : List Xact → State → Ended × State
  | [], s => (.done, s)
  | x :: xs, s =>
    let r := issue x s
    match r.1 with
    | .done => issueAll xs r.2
    | .busError => r
    | .reset => r

/-! ### LOCK and the end of a command -/

/-- `acquire LOCK` by the active path when it is free (R28, R54). -/
def acquire (s : State) : State := { s with lock := some s.active }

/-- `release LOCK`; the active path's command is over and its sequencing state is dropped (R33, R54). -/
def release (s : State) : State := { s.withFlight s.active none with lock := none }

/-- The bytes the active path's command has read (R33). -/
def bytesRead (s : State) : List Byte :=
  match s.flightOf s.active with
  | some f => f.bytes
  | none => []

/-- Raise an error once LOCK is held: release it and answer the code alone (R45, R211, R216). -/
def raise (st : Status) (s : State) : State := respond s.active (errorFrame st) (release s)

/-- The end of a command that propagates bus errors (R45): a last point before the release, then `release LOCK` and
the response, which `reply` makes of the bytes read. After a reset there is nothing to release or answer. -/
def conclude (reply : List Byte → Frame) (r : Ended × State) : State :=
  match r.1 with
  | .reset => r.2
  | .done =>
    let s1 := interfere r.2
    match s1.flightOf s1.active with
    | none => s1
    | some _ => respond s1.active (reply (bytesRead s1)) (release s1)
  | .busError =>
    let s1 := interfere r.2
    match s1.flightOf s1.active with
    | none => s1
    | some _ => raise .busError s1

/-- A command that ends before LOCK: its response, and no command in flight (R54, R107, R212, R215). -/
def answerNow (frame : Frame) (s : State) : State := respond s.active frame (s.withFlight s.active none)

/-- A command that needs LOCK, with the transactions `script` it may issue: it is taken up, and if LOCK is free it
takes LOCK and runs `body`; while a path holds LOCK it waits, in flight, and nothing else happens (R54). -/
def locked (i : Instr) (script : List Xact) (body : State → State) (s : State) :
    Host.Outcome State Fault Refusal :=
  if script.all xactInside then
    .next (match s.lock with
      | none => body (acquire (takeUp s.active i s))
      | some _ => takeUp s.active i s)
  else .fault .portRange

/-- A command whose transactions are all of `script`, propagating bus errors, answered by `reply` of the bytes read. -/
def runScript (i : Instr) (script : List Xact) (reply : List Byte → Frame) (s : State) :
    Host.Outcome State Fault Refusal :=
  locked i script (fun s' => conclude reply (issueAll script s')) s

/-- A command whose operand check is `check` (R215): a failed check is answered before LOCK and before any
transaction. -/
def checked {α : Type} (check : Except Status α) (run : α → State → Host.Outcome State Fault Refusal) (s : State) :
    Host.Outcome State Fault Refusal :=
  match check with
  | .error st => .next (answerNow (errorFrame st) s)
  | .ok v => run v s

/-- A command that uses the rate table: refused on a table the spec refuses, before anything is done (R189). -/
def withTable (table : List Nat) (run : State → Host.Outcome State Fault Refusal) (s : State) :
    Host.Outcome State Fault Refusal :=
  if tableAllowed table then run s else .refused .rateTable

end Sys2Proof.Machine
end

