-- ==== Sys2Proof/Machine/AgingOffset.lean ====
section
/-! DEFINITION. The aging-offset family (`44_aging_offset.md`): one byte, moved verbatim. -/

namespace Sys2Proof.Machine

/-- The transactions of OFS.RD (R49, R200). -/
def scriptOfsRd : List Xact := [.read Config.aAging 1]

/-- The response of OFS.RD: the byte itself (R200). -/
def replyOfsRd (buf : List Byte) : Frame := okFrame [buf.getD 0 0]

/-- OFS.RD (R200). -/
def execOfsRd (s : State) : Host.Outcome State Fault Refusal :=
  runScript .ofsRd scriptOfsRd replyOfsRd s

/-- The transactions of OFS.WR: a plain write of the whole byte (R49, R201). -/
def scriptOfsWr (v : Byte) : List Xact := [.write Config.aAging [v]]

/-- OFS.WR (R201). -/
def execOfsWr (v : Byte) (s : State) : Host.Outcome State Fault Refusal :=
  runScript (.ofsWr v) (scriptOfsWr v) (fun _ => okFrame []) s

end Sys2Proof.Machine
end

