-- ==== Sys2Proof/Machine/AlarmManager.lean ====
section
/-! DEFINITION. The alarm manager family (`42_alarm_manager.md`): ALM.RD, ALM.WR, ALM.EN. -/

namespace Sys2Proof.Machine

/-- `PortUpdate(INT_EN1, A1IE, en)` (R155, R157). -/
def updateA1ie (en : Bool) : Xact :=
  .update Config.aIntEn1 (bitMask Config.bA1ie) (if en then bitMask Config.bA1ie else 0)

/-- `PortUpdate(STATUS1, A1F, 0)`: clear the pending flag, leave the other status bits (R155, R220). -/
def clearA1f : Xact := .update Config.aStatus1 (bitMask Config.bA1f) 0

/-- The transactions of ALM.RD: alarm block, INT_EN1, STATUS1, time block (R49, R152). -/
def scriptAlmRd : List Xact :=
  [.read Config.aAlm1 6, .read Config.aIntEn1 1, .read Config.aStatus1 1, .read Config.aTime 7]

/-- The response of ALM.RD to the fifteen bytes in the order read: six alarm bytes, INT_EN1, STATUS1, seven time bytes
of which only the month's century bit is used (R151, R152). -/
def replyAlmRd (buf : List Byte) : Frame :=
  okFrame (alarmPayload (decodeAlarm (alarmOfBytes (buf.take 6)) (timeOfBytes (buf.drop 8)).month)
    (bitOf (buf.getD 6 0) Config.bA1ie) (bitOf (buf.getD 7 0) Config.bA1f))

/-- ALM.RD (R152). -/
def execAlmRd (s : State) : Host.Outcome State Fault Refusal :=
  runScript .almRd scriptAlmRd replyAlmRd s

/-- The transactions of ALM.WR: block write, enable update, pending clear, in this order (R49, R155). -/
def scriptAlmWr (block : AlarmBlock) (enabled : Bool) : List Xact :=
  [.write Config.aAlm1 (alarmBytes block), updateA1ie enabled, clearA1f]

/-- ALM.WR (R155, R156): three transactions, not one atomic unit, no rollback. -/
def execAlmWr (sec min hour mday mon yearOff : Nat) (en : Byte) (s : State) : Host.Outcome State Fault Refusal :=
  checked (checkAlmWr ⟨sec, min, hour, mday, mon, yearOff⟩ en)
    (fun w => runScript (.almWr sec min hour mday mon yearOff en) (scriptAlmWr w.1 w.2) (fun _ => okFrame [])) s

/-- The transactions of ALM.EN (R49, R157). -/
def scriptAlmEn (enabled : Bool) : List Xact := [updateA1ie enabled]

/-- ALM.EN (R157). -/
def execAlmEn (b : Byte) (s : State) : Host.Outcome State Fault Refusal :=
  checked (checkAlmEn b) (fun enabled => runScript (.almEn b) (scriptAlmEn enabled) (fun _ => okFrame [])) s

end Sys2Proof.Machine
end

