-- ==== Sys2Proof/Machine/BcdCodec.lean ====
section
/-! DEFINITION. The BCD codec family (`40_bcd_codec.md`): no state, no transaction, no LOCK (R107). -/

namespace Sys2Proof.Machine

/-- BCD.DEC (R105). -/
def execBcdDec (byte mask : Byte) (s : State) : Host.Outcome State Fault Refusal :=
  .next (answerNow (answerBcdDec byte mask) s)

/-- BCD.ENC (R106). -/
def execBcdEnc (n : Nat) (s : State) : Host.Outcome State Fault Refusal :=
  .next (answerNow (answerBcdEnc n) s)

end Sys2Proof.Machine
end

