-- ==== Sys2Proof/Machine/ClockOutput.lean ====
section
/-! DEFINITION. The clock-output family (`43_clock_output.md`): one control register, no BCD. -/

namespace Sys2Proof.Machine

/-- The transactions of CLK.EN: set CLKEN, keep every other bit (R49, R183). -/
def scriptClkEn : List Xact := [.update Config.aClkout (bitMask Config.bClken) (bitMask Config.bClken)]

/-- CLK.EN (R183). -/
def execClkEn (s : State) : Host.Outcome State Fault Refusal :=
  runScript .clkEn scriptClkEn (fun _ => okFrame []) s

/-- The transactions of CLK.DIS: clear CLKEN, keep every other bit (R49, R184). -/
def scriptClkDis : List Xact := [.update Config.aClkout (bitMask Config.bClken) 0]

/-- CLK.DIS (R184). -/
def execClkDis (s : State) : Host.Outcome State Fault Refusal :=
  runScript .clkDis scriptClkDis (fun _ => okFrame []) s

/-- The one read of CLKOUT_CFG (R49, R185, R186). -/
def scriptClkout : List Xact := [.read Config.aClkout 1]

/-- The response of CLK.ISEN: bit 2 of the byte read (R185). -/
def replyClkIsen (buf : List Byte) : Frame := okFrame [boolByte (bitOf (buf.getD 0 0) Config.bClken)]

/-- CLK.ISEN (R185). -/
def execClkIsen (s : State) : Host.Outcome State Fault Refusal :=
  runScript .clkIsen scriptClkout replyClkIsen s

/-- The response of CLK.RECALC: the rate the masked index selects (R186). -/
def replyClkRecalc (buf : List Byte) : Frame :=
  match storedRate Config.rateTable Config.rateIdxMask (buf.getD 0 0) with
  | some rate => okFrame (rateFrameBytes rate)
  | none => errorFrame .unsupportedRate

/-- CLK.RECALC (R186, R189, R190). -/
def execClkRecalc (s : State) : Host.Outcome State Fault Refusal :=
  withTable Config.rateTable (checked checkClkRecalc fun _ => runScript .clkRecalc scriptClkout replyClkRecalc) s

/-- CLK.ROUND (R187, R189). -/
def execClkRound (req : Nat) (s : State) : Host.Outcome State Fault Refusal :=
  withTable Config.rateTable (fun s => .next (answerNow (answerClkRound req) s)) s

/-- The transactions of CLK.SET: RSEL takes the index, every other bit is kept (R49, R188). -/
def scriptClkSet (idx : Nat) : List Xact := [.update Config.aClkout Config.rateIdxMask (toByte idx)]

/-- CLK.SET (R188, R189): the rate answered is the table entry, computed without reading back. -/
def execClkSet (req : Nat) (s : State) : Host.Outcome State Fault Refusal :=
  withTable Config.rateTable (checked (checkClkSet req) fun found =>
    runScript (.clkSet req) (scriptClkSet found.1) (fun _ => okFrame (rateFrameBytes found.2))) s

end Sys2Proof.Machine
end

