-- ==== Sys2Proof/Machine/Interrupt.lean ====
section
/-! DEFINITION. The service routine of the alarm interrupt (`60_exceptions.md` section 4). It saves and restores
nothing, takes no vector and changes no mode (R220, R222). -/

namespace Sys2Proof.Machine

/-- The status read of IRQ.SVC (R49, R220). -/
def readStatus1 : Xact := .read Config.aStatus1 1

/-- The transactions IRQ.SVC may issue; the second only if the flag was set (R49). -/
def scriptIrqSvc : List Xact := [readStatus1, clearA1f]

/-- `s[0][0] == 1`: the alarm-1 pending flag in the status byte just read (R220). -/
def sawPending (buf : List Byte) : Bool := bitOf (buf.getD 0 0) Config.bA1f

/-- The exit of IRQ.SVC (R220 to R222): release LOCK, emit the event if there is one to emit, never while LOCK is held
(R223), then `ISR_STATE` and the answer "handled", whatever happened on the bus. -/
def exitIrqSvc (notify : Bool) (s : State) : State :=
  let s1 := interfere s
  match s1.flightOf s1.active with
  | none => s1
  | some _ =>
    let s2 := release s1
    let s3 := if notify then emitAlarm s2 else s2
    respond s3.active (okFrame []) { s3 with isr := isrNow s3 }

/-- IRQ.SVC once LOCK is held (R220): read the status, clear the flag if it was set, notify if the clear succeeded;
a bus error is swallowed (R221, decision D26). -/
def bodyIrqSvc (s : State) : State :=
  let r := issueAll [readStatus1] s
  match r.1 with
  | .reset => r.2
  | .busError => exitIrqSvc false r.2
  | .done =>
    if sawPending (bytesRead r.2) then
      let r2 := issueAll [clearA1f] r.2
      match r2.1 with
      | .reset => r2.2
      | .busError => exitIrqSvc false r2.2
      | .done => exitIrqSvc true r2.2
    else exitIrqSvc false r.2

/-- IRQ.SVC (R220). -/
def execIrqSvc (s : State) : Host.Outcome State Fault Refusal := locked .irqSvc scriptIrqSvc bodyIrqSvc s

end Sys2Proof.Machine
end

