-- ==== Sys2Proof/Machine/TimeTranslator.lean ====
section
/-! DEFINITION. The time translator family (`41_time_translator.md`). -/

namespace Sys2Proof.Machine

/-- The transactions of TIME.RD: one 7-byte read (R49, R127). -/
def scriptTimeRd : List Xact := [.read Config.aTime 7]

/-- The response of TIME.RD to the seven bytes (R127, R77). -/
def replyTimeRd (buf : List Byte) : Frame := okFrame (timePayload (decodeTime (timeOfBytes buf)))

/-- TIME.RD (R127). -/
def execTimeRd (s : State) : Host.Outcome State Fault Refusal :=
  runScript .timeRd scriptTimeRd replyTimeRd s

/-- The transactions of TIME.WR: one 7-byte write (R49, R130). -/
def scriptTimeWr (t : TimeBlock) : List Xact := [.write Config.aTime (timeBytes t)]

/-- TIME.WR (R130): checked and encoded first, then exactly one write (R131). -/
def execTimeWr (sec min hour wday mday mon yearOff : Nat) (s : State) : Host.Outcome State Fault Refusal :=
  checked (checkTimeWr ⟨sec, min, hour, wday, mday, mon, yearOff⟩)
    (fun t => runScript (.timeWr sec min hour wday mday mon yearOff) (scriptTimeWr t) (fun _ => okFrame [])) s

end Sys2Proof.Machine
end

