-- ==== Sys2Proof/Machine/Dispatch.lean ====
section
/-! DEFINITION. The meaning of each command, one arm per constructor of `Instr`. A command runs on the path
`State.active`. -/

namespace Sys2Proof.Machine

/-- The meaning of a command on the active path. -/
def exec (i : Instr) (s : State) : Host.Outcome State Fault Refusal :=
  match i with
  | .bcdDec byte mask => Sys2Proof.Machine.execBcdDec byte mask s
  | .bcdEnc n => Sys2Proof.Machine.execBcdEnc n s
  | .timeRd => Sys2Proof.Machine.execTimeRd s
  | .timeWr sec min hour wday mday mon yearOff => Sys2Proof.Machine.execTimeWr sec min hour wday mday mon yearOff s
  | .almRd => Sys2Proof.Machine.execAlmRd s
  | .almWr sec min hour mday mon yearOff en => Sys2Proof.Machine.execAlmWr sec min hour mday mon yearOff en s
  | .almEn b => Sys2Proof.Machine.execAlmEn b s
  | .irqSvc => Sys2Proof.Machine.execIrqSvc s
  | .clkEn => Sys2Proof.Machine.execClkEn s
  | .clkDis => Sys2Proof.Machine.execClkDis s
  | .clkIsen => Sys2Proof.Machine.execClkIsen s
  | .clkRecalc => Sys2Proof.Machine.execClkRecalc s
  | .clkRound req => Sys2Proof.Machine.execClkRound req s
  | .clkSet req => Sys2Proof.Machine.execClkSet req s
  | .ofsRd => Sys2Proof.Machine.execOfsRd s
  | .ofsWr v => Sys2Proof.Machine.execOfsWr v s

end Sys2Proof.Machine
end

