-- ==== Sys2Proof/Machine/Turn.lean ====
section
/-! DEFINITION. Which agent moves in a step, what it finds to do, and how a frame comes to stand where the host path
takes its next command (`20_memory.md` R53, `60_exceptions.md` R219). -/

namespace Sys2Proof.Machine

/-- The agent that moves in this step: what the state holds, else the free value (log entry 3). -/
def nextTurn (s : State) : Move :=
  match s.turns with
  | m :: _ => m
  | [] => Config.turn s.draws

/-- The state after the turn is drawn. -/
def popTurn (s : State) : State :=
  match s.turns with
  | _ :: rest => { s with turns := rest }
  | [] => { s with draws := s.draws + 1 }

/-- What the agent whose turn it is does. A `Fetched.idle` leaves the state as it is after the turn is drawn. -/
inductive Acted where
  /-- The move is complete. -/
  | moved (s : State)
  /-- A path runs a command. -/
  | runs (i : Instr) (s : State)
  deriving DecidableEq, Repr

/-- A path goes on (R54, R68, R215): it runs the command it finds, answers a frame that is none, or waits. -/
def runPath (p : Path) (s : State) : Acted :=
  match fetch p { s with active := p } with
  | .idle => .moved { s with active := p }
  | .illegal s' => .moved (answerIllegal p s')
  | .command i s' => .runs i s'

/-- The interrupt path takes up IRQ.SVC when the line asks for it; otherwise nothing happens (R219). -/
def serveIrq (s : State) : Acted :=
  if serviceDue s then .runs .irqSvc { s with active := .irq } else .moved s

/-- What happens in a step, up to the meaning of a command. -/
def act (s : State) : Acted :=
  match nextTurn s with
  | .chip => .moved (chipStep (popTurn s))
  | .line level => .moved { popTurn s with irqOther := level }
  | .send p frame => .moved (deliver p frame (popTurn s))
  | .run p => runPath p (popTurn s)
  | .serve => serveIrq (popTurn s)
  | .reset => .moved (blockReset (popTurn s))

/-- `frame` stands first in the host path's inbox, the path has no command in flight, and the next turn is its own. -/
def placeFrame (frame : Frame) (s : State) : State :=
  { s with
    host := { inbox := frame :: s.host.inbox, flight := none }
    turns := .run .host :: s.turns }

end Sys2Proof.Machine
end

