-- ==== Sys2Proof/Machine/Step.lean ====
section
/-! DEFINITION. One step of the machine: one move of one agent; a command runs whole (log entry 2). -/

namespace Sys2Proof.Machine

/-- One step. -/
def step (s : State) : Host.Outcome State Fault Refusal :=
  match act s with
  | .moved s' => .next s'
  | .runs i s' => exec i s'

/-- The state in which the next step takes up, on the host path, the frame that the table word stands for. -/
def State.withFetchWord (s : State) (nbits w : Nat) : State := placeFrame (frameOfWord nbits w) s

end Sys2Proof.Machine
end

