-- ==== Sys2Proof/Safety.lean ====
section
/-! DEFINITION. The terms in which claims about the machine are stated: when a command runs undisturbed, the state it
then leaves, what a store changes, the legal operands, and the invariant of the states between steps. -/

namespace Sys2Proof.Machine

/-! ### A command that runs undisturbed -/

/-- LOCK is free, and no other agent moves at the next `points` points of the running command (R55). -/
abbrev Quiet (points : Nat) (s : State) : Prop :=
  s.lock = none ∧ s.moves.take points = List.replicate points []

/-- The port oracle's next answers are `answers`, in order (R44). -/
abbrev PortSays (answers : List PortAnswer) (s : State) : Prop := s.answers.take answers.length = answers

/-- The state a command leaves that runs undisturbed and passes `points` points and `answers` transactions: no
command in flight on its path, the register space `reg`, `entries` more in TRACE, `outs` more put out. Everything
else is as before. -/
def State.ran (s : State) (points answers : Nat) (reg : Memory) (entries : List TraceEntry) (outs : List Output) :
    State :=
  { s.withFlight s.active none with
    reg := reg
    moves := s.moves.drop points
    answers := s.answers.drop answers
    trace := s.trace ++ entries
    outbox := s.outbox ++ outs }

/-- The state a command leaves that ends before LOCK: its response, no command in flight on its path, everything else
as before (R107, R212). -/
def State.answered (s : State) (frame : Frame) : State :=
  { s.withFlight s.active none with outbox := s.outbox ++ [.response s.active frame] }

/-! ### Stores -/

/-- `m'` holds `bytes` from `addr` on and everything else as `m` does. -/
def Stores (addr : Nat) (bytes : List Byte) (m m' : Memory) : Prop :=
  (∀ k, k < bytes.length → m'.get (addr + k) = bytes.getD k 0) ∧
    ∀ a, a < addr ∨ addr + bytes.length ≤ a → m'.get a = m.get a

/-- `m'` holds, at each target byte, the new byte where the port took it and the old one where not, and everything
else as `m` does: what a failed write leaves (R42). -/
def StoresPart (addr : Nat) (took : List Bool) (bytes : List Byte) (m m' : Memory) : Prop :=
  (∀ k, k < bytes.length → m'.get (addr + k) = if took.getD k false then bytes.getD k 0 else m.get (addr + k)) ∧
    ∀ a, a < addr ∨ addr + bytes.length ≤ a → m'.get a = m.get a

/-- The addresses a command may store to (R38, R49). -/
def targets : Instr → List Nat
  | .bcdDec _ _ => []
  | .bcdEnc _ => []
  | .timeRd => []
  | .timeWr _ _ _ _ _ _ _ => [0x0A, 0x0B, 0x0C, 0x0D, 0x0E, 0x0F, 0x10]
  | .almRd => []
  | .almWr _ _ _ _ _ _ _ => [0x11, 0x12, 0x13, 0x14, 0x15, 0x16, 0x01, 0x00]
  | .almEn _ => [0x01]
  | .irqSvc => [0x00]
  | .clkEn => [0x06]
  | .clkDis => [0x06]
  | .clkIsen => []
  | .clkRecalc => []
  | .clkRound _ => []
  | .clkSet _ => [0x06]
  | .ofsRd => []
  | .ofsWr _ => [0x1E]

/-- The addresses the chip agent writes (R38, R159). -/
def chipAddrs : List Nat := [0x00, 0x0A, 0x0B, 0x0C, 0x0D, 0x0E, 0x0F, 0x10]

/-! ### Legal operands and their bytes -/

/-- The legal operands of TIME.WR (R128). -/
abbrev LegalTime (sec min hour wday mday mon yearOff : Nat) : Prop :=
  sec ≤ 59 ∧ min ≤ 59 ∧ hour ≤ 23 ∧ wday ≤ 6 ∧ 1 ≤ mday ∧ mday ≤ 31 ∧ 1 ≤ mon ∧ mon ≤ 12 ∧
    100 ≤ yearOff ∧ yearOff ≤ 299

/-- The legal time operands of ALM.WR (R153). -/
abbrev LegalAlarm (sec min hour mday mon yearOff : Nat) : Prop :=
  sec ≤ 59 ∧ min ≤ 59 ∧ hour ≤ 23 ∧ 1 ≤ mday ∧ mday ≤ 31 ∧ 1 ≤ mon ∧ mon ≤ 12 ∧ 100 ≤ yearOff ∧ yearOff ≤ 299

/-- The byte whose high nibble is the tens digit of `n` and whose low nibble is its units digit (R60). -/
def packed (n : Nat) : Byte := BitVec.ofNat 8 (n / 10 * 16 + n % 10)

/-- The seven bytes TIME.WR writes (R129). -/
def packedTime (sec min hour wday mday mon yearOff : Nat) : List Byte :=
  [packed sec, packed min, packed hour, packed (wday + 1), packed mday,
    packed mon ||| (if 200 ≤ yearOff then 0x80 else 0x00), packed (yearOff % 100)]

/-- The six bytes ALM.WR writes (R154). -/
def packedAlarm (sec min hour mday mon yearOff : Nat) : List Byte :=
  [packed sec, packed min, packed hour, packed mday, packed mon, packed (yearOff % 100)]

/-- A rate as four bytes, low byte first (R77). -/
def rateBytes (rate : Nat) : List Byte :=
  [BitVec.ofNat 8 rate, BitVec.ofNat 8 (rate / 256), BitVec.ofNat 8 (rate / 65536), BitVec.ofNat 8 (rate / 16777216)]

/-- A 16-bit value as two bytes, low byte first (R77). -/
def halfBytes (n : Nat) : List Byte := [BitVec.ofNat 8 n, BitVec.ofNat 8 (n / 256)]

/-! ### Frames and transactions, as the spec's tables list them -/

/-- Opcode and frame length of each row of R75. -/
def opcodeLengths : List (Byte × Nat) :=
  [(0x01, 3), (0x02, 2), (0x10, 1), (0x11, 9), (0x20, 1), (0x21, 9), (0x22, 2), (0x23, 1),
   (0x30, 1), (0x31, 1), (0x32, 1), (0x33, 1), (0x34, 5), (0x35, 5), (0x40, 1), (0x41, 2)]

/-- The frame has the opcode and the length of a row of R75. -/
abbrev TableFrame (frame : Frame) : Prop := ∃ row ∈ opcodeLengths, frame.head? = some row.1 ∧ frame.length = row.2

/-- The index CLK.SET writes, by the table of R182. -/
def rateIndex (req : Nat) : Nat := if req ≤ 32 then 0 else if req ≤ 544 then 1 else if req ≤ 16896 then 2 else 3

/-- The rate of an index, by R180. -/
def rateOfIndex : Nat → Nat
  | 0 => 1
  | 1 => 64
  | 2 => 1024
  | _ => 32768

/-- The transactions a command issues when none fails, by the table of R49; of IRQ.SVC the most it can issue. -/
def issues : Instr → List Xact
  | .bcdDec _ _ => []
  | .bcdEnc _ => []
  | .timeRd => [.read 0x0A 7]
  | .timeWr sec min hour wday mday mon yearOff =>
    if LegalTime sec min hour wday mday mon yearOff then
      [.write 0x0A (packedTime sec min hour wday mday mon yearOff)] else []
  | .almRd => [.read 0x11 6, .read 0x01 1, .read 0x00 1, .read 0x0A 7]
  | .almWr sec min hour mday mon yearOff en =>
    if LegalAlarm sec min hour mday mon yearOff ∧ (en = 0x00 ∨ en = 0x01) then
      [.write 0x11 (packedAlarm sec min hour mday mon yearOff), .update 0x01 0x01 en, .update 0x00 0x01 0x00] else []
  | .almEn b => if b = 0x00 ∨ b = 0x01 then [.update 0x01 0x01 b] else []
  | .irqSvc => [.read 0x00 1, .update 0x00 0x01 0x00]
  | .clkEn => [.update 0x06 0x04 0x04]
  | .clkDis => [.update 0x06 0x04 0x00]
  | .clkIsen => [.read 0x06 1]
  | .clkRecalc => [.read 0x06 1]
  | .clkRound _ => []
  | .clkSet req => [.update 0x06 0x03 (BitVec.ofNat 8 (rateIndex req))]
  | .ofsRd => [.read 0x1E 1]
  | .ofsWr v => [.write 0x1E [v]]

/-- The register space after a script whose transactions all succeed. -/
def scriptReg : List Xact → Memory → Memory
  | [], m => m
  | x :: xs, m => scriptReg xs (xactReg x .ok m)

/-- The answer of a command that issues no transaction (R54): of the codec's two commands (R105, R106), of CLK.ROUND
(R187), and InvalidArgument of a command whose operands are refused (R212). -/
def answerAtOnce : Instr → Frame
  | .bcdDec byte mask => [0x00, BitVec.ofNat 8 (bcdDecode byte mask)]
  | .bcdEnc n => if n ≤ 99 then [0x00, packed n] else [0x02]
  | .clkRound req => 0x00 :: rateBytes (rateOfIndex (rateIndex req))
  | .timeRd | .timeWr _ _ _ _ _ _ _ | .almRd | .almWr _ _ _ _ _ _ _ | .almEn _ | .irqSvc | .clkEn | .clkDis
  | .clkIsen | .clkRecalc | .clkSet _ | .ofsRd | .ofsWr _ => [0x02]

/-- The four entries ALM.RD leaves in TRACE when all its reads succeed (R49, R152). -/
def almRdEntries (s : State) : List TraceEntry :=
  [⟨.read 0x11 6, s.reg.readBytes 0x11 6, false⟩, ⟨.read 0x01 1, [s.byteAt 0x01], false⟩,
   ⟨.read 0x00 1, [s.byteAt 0x00], false⟩, ⟨.read 0x0A 7, s.reg.readBytes 0x0A 7, false⟩]

/-! ### The invariant of the states between steps -/

/-- A command that is in flight between steps waits at `acquire LOCK`: it has issued nothing, read nothing, and is one
that needs LOCK (R33, R54). -/
def waitsForLock (ps : PathState) : Bool :=
  match ps.flight with
  | none => true
  | some f => decide (f.index = 0) && decide (f.bytes = []) && (answerBeforeLock f.instr).isNone

/-- Between steps: the register space is in canonical form; LOCK is free, since every command releases it (R54,
R216); the handler is servicing exactly when an IRQ.SVC has been taken up and has not returned (R29); a command in
flight waits for LOCK (R33, R54). -/
def State.inv (s : State) : Bool :=
  s.reg.wf && decide (s.lock = none) && decide (s.isr = isrNow s) && waitsForLock s.host && waitsForLock s.irq

/-- A step is safe from `s`: it answers a next state (no fault, no refusal), and one that meets the invariant. -/
def SafeStep (s : State) : Prop := ∃ t, step s = .next t ∧ t.inv = true

end Sys2Proof.Machine
end

