-- ==== Sys2Proof/Certificates/Slice0/Obligations.lean ====
section
/-! DEFINITION. The statements for the provers, one `def Obligations.<Name> : Prop` each, in the order of
OBLIGATIONS.json. Numbers of the spec (addresses, masks, opcodes, codes) are written out here, not taken from the
model's parameters. -/

open Sys2Proof Sys2Proof.Machine

/-- For every command whose operands fit their places in a frame, the decoder reads from the command's frame exactly
that command, with every operand at every value the frame can carry. (30_encoding.md sections 3 and 4, R75.) -/
def Obligations.DecodeOfEncodeIsTheCommand : Prop :=
  ∀ i : Instr, i.wf = true → decode (encode i) = .ok i

/-- If the decoder reads a command from a frame, the frame of that command is that frame, byte for byte, and the command
is well formed: no byte of a frame is dropped and no command has two frames. (30_encoding.md sections 3 and 4, R68,
R75.) -/
def Obligations.EncodeOfDecodedFrameIsTheFrame : Prop :=
  ∀ (frame : Frame) (i : Instr), decode frame = .ok i → encode i = frame ∧ i.wf = true

/-- The decoder reads a command from a byte string if and only if the string's first byte is an opcode of R75 and its
length is the length R75 gives for that opcode. (30_encoding.md sections 4 and 6, R75, R78, R79.) -/
def Obligations.FrameDecodesExactlyWhenTableHasIt : Prop :=
  ∀ frame : Frame, (∃ i, decode frame = .ok i) ↔ TableFrame frame

/-- The frames of the spec's examples, one of each format F0, F1, F2, F4, FT and FA, decode to the commands the spec
says they are. (30_encoding.md section 4, R69, R70, R71, R72, R73, R74, R75.) -/
def Obligations.SampleFramesDecode : Prop :=
  decode [0x01, 0x59, 0x7F] = .ok (.bcdDec 0x59 0x7F) ∧ decode [0x22, 0x01] = .ok (.almEn 0x01) ∧
    decode [0x23] = .ok .irqSvc ∧ decode [0x35, 0xF4, 0x01, 0x00, 0x00] = .ok (.clkSet 500) ∧
    decode [0x11, 0x3A, 0x3B, 0x17, 0x04, 0x1D, 0x02, 0x7C, 0x00] = .ok (.timeWr 58 59 23 4 29 2 124) ∧
    decode [0x21, 0x00, 0x1E, 0x07, 0x0F, 0x06, 0xCD, 0x00, 0x01] = .ok (.almWr 0 30 7 15 6 205 0x01) ∧
    decode [0x41, 0xF6] = .ok (.ofsWr 0xF6)

/-- When it is a path's turn, the path has no command in flight and its next frame decodes to a command i, the step is
exec of i at the state in which the turn and the frame are taken and the path is the active one. (That the interrupt
path runs frames of commands other than IRQ.SVC too is the model's reading of R226, log entry 14. That a frame sent
early waits its turn behind the ones before it is the model's choice, log entry 17.) (30_encoding.md section 3,
60_exceptions.md section 5, R68, R219, R226.) -/
def Obligations.StepRunsDecodedCommand : Prop :=
  ∀ (s : State) (p : Path) (frame : Frame) (rest : List Frame) (turns : List Move) (i : Instr),
    s.turns = .run p :: turns → s.flightOf p = none → s.inboxOf p = frame :: rest → decode frame = .ok i →
    i.wf = true ∧ step s = exec i (State.withInbox { s with turns := turns, active := p } p rest)

/-- When it is a path's turn, the path has no command in flight and its next frame is empty, has an unassigned opcode or
the wrong length for its opcode, the step takes the turn and the frame, answers the frame [0x7F] on that path, and
changes nothing else: no transaction, no LOCK, no register. (That the interrupt path takes up frames other than
[0x23], and so answers illegal ones, is the model's reading, log entry 14. That a frame sent early waits its turn
behind the ones before it is the model's choice, log entry 17.) (30_encoding.md section 6, R78, R79.) -/
def Obligations.StepAnswersIllegalFrame : Prop :=
  ∀ (s : State) (p : Path) (frame : Frame) (rest : List Frame) (turns : List Move),
    ¬ TableFrame frame → s.turns = .run p :: turns → s.flightOf p = none → s.inboxOf p = frame :: rest →
    step s = .next { State.withInbox { s with turns := turns, active := p } p rest with
      outbox := s.outbox ++ [.response p [0x7F]] }

/-- When it is a path's turn and it has a command in flight, which between steps waits for LOCK, the step is exec of
that command with the path as the active one. (20_memory.md section 4, R54.) -/
def Obligations.StepResumesWaitingCommand : Prop :=
  ∀ (s : State) (p : Path) (turns : List Move) (f : Flight),
    s.turns = .run p :: turns → s.flightOf p = some f →
    step s = exec f.instr { s with turns := turns, active := p }

/-- At an interrupt dispatch turn: if the line is high, the handler is idle and the interrupt path has no command in
flight, the step runs IRQ.SVC on the interrupt path; if one of the three fails, the step only takes the turn. (That
a command other than IRQ.SVC can be in flight on the interrupt path, and then keeps IRQ.SVC from being taken up, is
the model's reading, log entry 14.) (60_exceptions.md sections 3 and 4, 10_state.md section 2, R219, R223, R33.) -/
def Obligations.StepServesTheInterruptLine : Prop :=
  ∀ (s : State) (turns : List Move), s.turns = .serve :: turns →
    (s.irqLine = true → s.isr = .idle → s.flightOf .irq = none →
      step s = exec .irqSvc { s with turns := turns, active := .irq }) ∧
    (s.irqLine = false ∨ s.isr = .servicing ∨ s.flightOf .irq ≠ none → step s = .next { s with turns := turns })

/-- From every state, reachable or not, a step answers a next state: it never ends in a fault or a refusal. (It says
nothing of progress: the next state may be one in which a command still waits. Progress is left out, log entry 7.)
(00_scope.md section 5, item 5.) -/
def Obligations.EveryStepAnswersANextState : Prop :=
  ∀ s : State, ∃ t, step s = .next t

/-- For every byte and mask, the decode is ten times bits 7:4 of the masked byte plus its bits 3:0, a number from 0 to
165. (R100.) -/
def Obligations.BcdDecodeIsTheWeightedSumOfMaskedNibbles : Prop :=
  ∀ byte mask : Byte,
    bcdDecode byte mask =
      ((byte &&& mask).extractLsb 7 4).toNat * 10 + ((byte &&& mask).extractLsb 3 0).toNat ∧ bcdDecode byte mask ≤ 165

/-- The frame [0x01, byte, mask] is BCD.DEC, and for every state and every operand pair, whether or not LOCK is held,
BCD.DEC answers OK with bcd_decode(byte, mask) and changes nothing else. (R105.) -/
def Obligations.BcdDecAnswersTheDecodedValue : Prop :=
  ∀ (s : State) (byte mask : Byte),
    decode [0x01, byte, mask] = .ok (.bcdDec byte mask) ∧
    exec (.bcdDec byte mask) s = .next (s.answered [0x00, BitVec.ofNat 8 (bcdDecode byte mask)])

/-- The frame [0x02, n] is BCD.ENC, and for every state: up to 99 it answers OK with the byte whose nibbles are the two
digits; above 99 it answers InvalidArgument and no byte; it changes nothing else. (R106.) -/
def Obligations.BcdEncAnswersPackedByteOrInvalidArgument : Prop :=
  ∀ (s : State) (n : Nat),
    (n < 256 → decode [0x02, BitVec.ofNat 8 n] = .ok (.bcdEnc n)) ∧
    (n ≤ 99 → exec (.bcdEnc n) s = .next (s.answered [0x00, BitVec.ofNat 8 (n / 10 * 16 + n % 10)])) ∧
    (99 < n → exec (.bcdEnc n) s = .next (s.answered [0x02]))

/-- For every n up to 99, encode has a value whose decode under mask 0xFF is n; for every byte with both nibbles at most
9, encoding its decoded value gives the byte back. (40_bcd_codec.md section 2, R104.) -/
def Obligations.BcdRoundTrip : Prop :=
  (∀ n, n ≤ 99 → ∃ b, bcdEncode n = some b ∧ bcdDecode b 0xFF = n) ∧
    (∀ b : Byte, bcdValid b = true → bcdEncode (bcdDecode b 0xFF) = some b) ∧ ∀ n, 99 < n → bcdEncode n = none

/-- For every hour byte: with bit 6 clear the hour is the decode under mask 0x3F; with bit 6 set it is the decode under
mask 0x1F, a raw 12 taken as 0, plus 12 if bit 5 is set. (R122.) -/
def Obligations.DecodeHourBranchesOnTheModeBit : Prop :=
  ∀ b : Byte,
    (b.getLsbD 6 = false → decodeHour b = bcdDecode b 0x3F) ∧
    (b.getLsbD 6 = true → b.getLsbD 5 = false →
      decodeHour b = if bcdDecode b 0x1F = 12 then 0 else bcdDecode b 0x1F) ∧
    (b.getLsbD 6 = true → b.getLsbD 5 = true →
      decodeHour b = if bcdDecode b 0x1F = 12 then 12 else bcdDecode b 0x1F + 12)

/-- The frame [0x10] is TIME.RD. Undisturbed and with the port answering success it issues exactly the read of 7 bytes
at 0x0A, answers OK with the seven fields by the formulas of the rule, and changes no register. If the read fails it
answers BusError and no field, and changes no register. (R127.) -/
def Obligations.TimeRdAnswersTheDecodedBlock : Prop :=
  decode [0x10] = .ok .timeRd ∧
    (∀ s : State, Quiet 2 s → PortSays [.ok] s →
      exec .timeRd s = .next (s.ran 2 1 s.reg [⟨.read 0x0A 7, s.reg.readBytes 0x0A 7, false⟩]
        [.response s.active (0x00 :: [BitVec.ofNat 8 (bcdDecode (s.byteAt 0x0A) 0x7F), BitVec.ofNat 8 (bcdDecode (s.byteAt 0x0B) 0x7F),
          BitVec.ofNat 8 (decodeHour (s.byteAt 0x0C)), BitVec.ofInt 8 ((bcdDecode (s.byteAt 0x0D) 0x07 : Int) - 1),
          BitVec.ofNat 8 (bcdDecode (s.byteAt 0x0E) 0x3F), BitVec.ofNat 8 (bcdDecode (s.byteAt 0x0F) 0x1F)] ++
          halfBytes (bcdDecode (s.byteAt 0x10) 0xFF + 100 + (if (s.byteAt 0x0F).getLsbD 7 then 100 else 0)))])) ∧
    (∀ (s : State) (took : List Bool), Quiet 2 s → PortSays [.fail took] s →
      exec .timeRd s = .next (s.ran 2 1 s.reg [⟨.read 0x0A 7, [], true⟩] [.response s.active [0x01]]))

/-- For every content of the time-keeping block the decoded record has seconds and minutes at most 85, hour at most 45,
weekday -1 to 6 after masking to one digit (at most 6), day at most 45, month at most 25, year offset 100 to 365.
(30_encoding.md section 2, R64.) -/
def Obligations.DecodedTimeStaysInItsRanges : Prop :=
  ∀ t : TimeBlock,
    (decodeTime t).sec ≤ 85 ∧ (decodeTime t).min ≤ 85 ∧ (decodeTime t).hour ≤ 45 ∧
    -1 ≤ (decodeTime t).wday ∧ (decodeTime t).wday ≤ 6 ∧ (decodeTime t).mday ≤ 45 ∧ (decodeTime t).mon ≤ 25 ∧
    100 ≤ (decodeTime t).yearOff ∧ (decodeTime t).yearOff ≤ 365

/-- The FT frame is TIME.WR. For operands outside the legal ranges it answers InvalidArgument from every state and
changes nothing else. For legal operands, undisturbed: if the port succeeds it issues exactly one write of the seven
encoded bytes at 0x0A, the registers hold them, every other byte is as before, and it answers OK with no payload; if
the port fails it answers BusError and each of the seven bytes is old or new as the port says, every other byte as
before. (R130.) -/
def Obligations.TimeWrWritesTheEncodedBlockOnce : Prop :=
  ∀ (s : State) (sec min hour wday mday mon y : Nat),
    ((Instr.timeWr sec min hour wday mday mon y).wf = true →
      decode ([0x11, BitVec.ofNat 8 sec, BitVec.ofNat 8 min, BitVec.ofNat 8 hour, BitVec.ofNat 8 wday,
        BitVec.ofNat 8 mday, BitVec.ofNat 8 mon] ++ halfBytes y) = .ok (.timeWr sec min hour wday mday mon y)) ∧
    (¬ LegalTime sec min hour wday mday mon y →
      exec (.timeWr sec min hour wday mday mon y) s = .next (s.answered [0x02])) ∧
    (LegalTime sec min hour wday mday mon y → Quiet 2 s → PortSays [.ok] s →
      ∃ reg, Stores 0x0A (packedTime sec min hour wday mday mon y) s.reg reg ∧
        exec (.timeWr sec min hour wday mday mon y) s = .next (s.ran 2 1 reg
          [⟨.write 0x0A (packedTime sec min hour wday mday mon y), [], false⟩] [.response s.active [0x00]])) ∧
    (∀ took, LegalTime sec min hour wday mday mon y → Quiet 2 s → PortSays [.fail took] s →
      ∃ reg, StoresPart 0x0A took (packedTime sec min hour wday mday mon y) s.reg reg ∧
        exec (.timeWr sec min hour wday mday mon y) s = .next (s.ran 2 1 reg
          [⟨.write 0x0A (packedTime sec min hour wday mday mon y), [], true⟩] [.response s.active [0x01]]))

/-- For every legal record, if both commands run undisturbed (no chip step among others) and the port lets both
transactions succeed, the response of TIME.RD carries exactly the seven fields written, dates no calendar has
included. (41_time_translator.md section 5, R132.) -/
def Obligations.TimeReadReturnsTheTimeWritten : Prop :=
  ∀ (s : State) (sec min hour wday mday mon y : Nat), LegalTime sec min hour wday mday mon y →
    Quiet 4 s → PortSays [.ok, .ok] s →
    ∃ t u, exec (.timeWr sec min hour wday mday mon y) s = .next t ∧ exec .timeRd t = .next u ∧
      u.outbox = s.outbox ++ [.response s.active [0x00], .response s.active
        ([0x00, BitVec.ofNat 8 sec, BitVec.ofNat 8 min, BitVec.ofNat 8 hour, BitVec.ofNat 8 wday,
          BitVec.ofNat 8 mday, BitVec.ofNat 8 mon] ++ halfBytes y)]

/-- If TIME.WR of legal operands runs undisturbed and its write succeeds, the HOURS byte afterwards has bit 6 clear and
decodes to the hour written. (70_reset_and_hazards.md section 3, R249, R135.) -/
def Obligations.TimeWrForces24HourMode : Prop :=
  ∀ (s : State) (sec min hour wday mday mon y : Nat), LegalTime sec min hour wday mday mon y →
    Quiet 2 s → PortSays [.ok] s →
    ∃ t, exec (.timeWr sec min hour wday mday mon y) s = .next t ∧ t.hourMode12 = false ∧
      decodeHour (t.byteAt 0x0C) = hour

/-- If the chip takes n steps before TIME.RD's transaction and m steps after it, and the read succeeds, the answer is
the decode of the whole block as it stood after exactly n steps: never a mixture of two times. (20_memory.md section
2, R46, R55.) -/
def Obligations.TimeRdSeesOneInstant : Prop :=
  ∀ (s : State) (n m : Nat), s.lock = none →
    s.moves.take 2 = [List.replicate n .chip, List.replicate m .chip] → PortSays [.ok] s →
    ∃ t, exec .timeRd s = .next t ∧ t.reg = (chipStep^[n + m] s).reg ∧
      t.outbox = s.outbox ++ [.response s.active
        (0x00 :: timePayload (decodeTime (timeOfBytes ((chipStep^[n] s).reg.readBytes 0x0A 7))))]

/-- The frame [0x20] is ALM.RD. Undisturbed and with all four reads succeeding it reads the alarm block, INT_EN1,
STATUS1 and the time block, in this order, and answers the decoded fields, the year in the century of the live MONTH
byte, and the two flag bits; no register changes. If read k+1 is the first to fail, the later reads are not issued,
the answer is BusError, and no register changes. (R152.) -/
def Obligations.AlmRdAnswersTheAlarmInTheLiveCentury : Prop :=
  decode [0x20] = .ok .almRd ∧
    (∀ s : State, Quiet 5 s → PortSays [.ok, .ok, .ok, .ok] s →
      exec .almRd s = .next (s.ran 5 4 s.reg (almRdEntries s)
        [.response s.active ([0x00, BitVec.ofNat 8 (bcdDecode (s.byteAt 0x11) 0x7F), BitVec.ofNat 8 (bcdDecode (s.byteAt 0x12) 0x7F),
          BitVec.ofNat 8 (bcdDecode (s.byteAt 0x13) 0x3F), BitVec.ofNat 8 (bcdDecode (s.byteAt 0x14) 0x3F),
          BitVec.ofNat 8 (bcdDecode (s.byteAt 0x15) 0x1F)] ++
          halfBytes (bcdDecode (s.byteAt 0x16) 0xFF + 100 + (if (s.byteAt 0x0F).getLsbD 7 then 100 else 0)) ++
          [if (s.byteAt 0x01).getLsbD 0 then 0x01 else 0x00, if (s.byteAt 0x00).getLsbD 0 then 0x01 else 0x00])])) ∧
    (∀ (s : State) (k : Nat) (took : List Bool), k < 4 → Quiet (k + 2) s →
      PortSays (List.replicate k .ok ++ [.fail took]) s →
      exec .almRd s = .next (s.ran (k + 2) (k + 1) s.reg
        ((almRdEntries s).take k ++ [⟨((almRdEntries s).getD k default).xact, [], true⟩])
        [.response s.active [0x01]]))

/-- From every state, whether or not LOCK is held, ALM.WR with a field outside its range or an en byte that is neither 0
nor 1 answers InvalidArgument and changes nothing else. (42_alarm_manager.md section 3, R153, R155, R80.) -/
def Obligations.AlmWrRefusesIllegalOperands : Prop :=
  ∀ (s : State) (sec min hour mday mon y : Nat) (en : Byte),
    ¬ LegalAlarm sec min hour mday mon y ∨ (en ≠ 0x00 ∧ en ≠ 0x01) →
    exec (.almWr sec min hour mday mon y en) s = .next (s.answered [0x02])

/-- The FA frame is ALM.WR. For legal operands, undisturbed and with all three transactions succeeding, it issues the
block write, the enable update and the pending clear, in this order; afterwards the alarm block holds the six
encoded bytes, INT_EN1 bit 0 is en, STATUS1 bit 0 is 0, the other bits of both and every other byte are as before,
and the answer is OK. (42_alarm_manager.md section 3, R154, R155.) -/
def Obligations.AlmWrArmsTheAlarm : Prop :=
  ∀ (s : State) (sec min hour mday mon y : Nat) (en : Byte), en = 0x00 ∨ en = 0x01 →
    ((Instr.almWr sec min hour mday mon y en).wf = true →
      decode ([0x21, BitVec.ofNat 8 sec, BitVec.ofNat 8 min, BitVec.ofNat 8 hour,
        BitVec.ofNat 8 mday, BitVec.ofNat 8 mon] ++ halfBytes y ++ [en]) = .ok (.almWr sec min hour mday mon y en)) ∧
    (LegalAlarm sec min hour mday mon y → Quiet 4 s → PortSays [.ok, .ok, .ok] s →
      ∃ reg, (∀ k, k < 6 → reg.get (0x11 + k) = (packedAlarm sec min hour mday mon y).getD k 0) ∧
        reg.get 0x01 = (s.byteAt 0x01 &&& 0xFE) ||| en ∧ reg.get 0x00 = s.byteAt 0x00 &&& 0xFE ∧
        (∀ a, a ≠ 0x00 → a ≠ 0x01 → a < 0x11 ∨ 0x16 < a → reg.get a = s.byteAt a) ∧
        exec (.almWr sec min hour mday mon y en) s = .next (s.ran 4 3 reg
          [⟨.write 0x11 (packedAlarm sec min hour mday mon y), [], false⟩, ⟨.update 0x01 0x01 en, [], false⟩,
            ⟨.update 0x00 0x01 0x00, [], false⟩] [.response s.active [0x00]]))

/-- For legal operands, undisturbed. If the block write fails, each alarm byte is old or new and both flags are
unchanged. If the enable update fails, the block is new, A1IE is old or en, A1F is unchanged. If the pending clear
fails, the block is new, A1IE is en, A1F is old or 0. In each case the later transactions are not issued, every
other byte and bit is as before, and the answer is BusError. (R156.) -/
def Obligations.AlmWrFailureLeavesDivergence : Prop :=
  ∀ (s : State) (sec min hour mday mon y : Nat) (en : Byte) (took : List Bool), en = 0x00 ∨ en = 0x01 →
    LegalAlarm sec min hour mday mon y →
    (Quiet 2 s → PortSays [.fail took] s →
      ∃ reg, StoresPart 0x11 took (packedAlarm sec min hour mday mon y) s.reg reg ∧
        exec (.almWr sec min hour mday mon y en) s = .next (s.ran 2 1 reg
          [⟨.write 0x11 (packedAlarm sec min hour mday mon y), [], true⟩] [.response s.active [0x01]])) ∧
    (Quiet 3 s → PortSays [.ok, .fail took] s →
      ∃ reg, (∀ k, k < 6 → reg.get (0x11 + k) = (packedAlarm sec min hour mday mon y).getD k 0) ∧
        reg.get 0x01 = (if took.headD false then (s.byteAt 0x01 &&& 0xFE) ||| en else s.byteAt 0x01) ∧
        (∀ a, a ≠ 0x01 → a < 0x11 ∨ 0x16 < a → reg.get a = s.byteAt a) ∧
        exec (.almWr sec min hour mday mon y en) s = .next (s.ran 3 2 reg
          [⟨.write 0x11 (packedAlarm sec min hour mday mon y), [], false⟩, ⟨.update 0x01 0x01 en, [], true⟩]
          [.response s.active [0x01]])) ∧
    (Quiet 4 s → PortSays [.ok, .ok, .fail took] s →
      ∃ reg, (∀ k, k < 6 → reg.get (0x11 + k) = (packedAlarm sec min hour mday mon y).getD k 0) ∧
        reg.get 0x01 = (s.byteAt 0x01 &&& 0xFE) ||| en ∧
        reg.get 0x00 = (if took.headD false then s.byteAt 0x00 &&& 0xFE else s.byteAt 0x00) ∧
        (∀ a, a ≠ 0x00 → a ≠ 0x01 → a < 0x11 ∨ 0x16 < a → reg.get a = s.byteAt a) ∧
        exec (.almWr sec min hour mday mon y en) s = .next (s.ran 4 3 reg
          [⟨.write 0x11 (packedAlarm sec min hour mday mon y), [], false⟩, ⟨.update 0x01 0x01 en, [], false⟩,
            ⟨.update 0x00 0x01 0x00, [], true⟩] [.response s.active [0x01]]))

/-- The frame [0x22, b] is ALM.EN. A byte that is neither 0 nor 1 is answered InvalidArgument from every state with
nothing else changed. For a boolean, undisturbed: if the update succeeds, INT_EN1 bit 0 is b, its other bits and
every other byte are as before, and the answer is OK; if it fails, INT_EN1 is old or updated, every other byte as
before, and the answer is BusError. (R157.) -/
def Obligations.AlmEnUpdatesOnlyTheEnableBit : Prop :=
  ∀ (s : State) (b : Byte),
    decode [0x22, b] = .ok (.almEn b) ∧
    (b ≠ 0x00 → b ≠ 0x01 → exec (.almEn b) s = .next (s.answered [0x02])) ∧
    (b = 0x00 ∨ b = 0x01 → Quiet 2 s → PortSays [.ok] s →
      ∃ reg, Stores 0x01 [(s.byteAt 0x01 &&& 0xFE) ||| b] s.reg reg ∧
        exec (.almEn b) s = .next (s.ran 2 1 reg [⟨.update 0x01 0x01 b, [], false⟩] [.response s.active [0x00]])) ∧
    (∀ took, b = 0x00 ∨ b = 0x01 → Quiet 2 s → PortSays [.fail took] s →
      ∃ reg, StoresPart 0x01 took [(s.byteAt 0x01 &&& 0xFE) ||| b] s.reg reg ∧
        exec (.almEn b) s = .next (s.ran 2 1 reg [⟨.update 0x01 0x01 b, [], true⟩] [.response s.active [0x01]]))

/-- For a legal alarm with en = 1, if ALM.WR and then ALM.RD run undisturbed and the port lets all their transactions
succeed, ALM.RD reports the five fields written, enabled 1 and pending 0, even if the flag was set before; the year
is the written one when it lies in the live century and differs from it by 100 otherwise. (42_alarm_manager.md
section 5, R162.) -/
def Obligations.AlarmReadReturnsTheAlarmWritten : Prop :=
  ∀ (s : State) (sec min hour mday mon y : Nat), LegalAlarm sec min hour mday mon y →
    Quiet 9 s → PortSays (List.replicate 7 .ok) s →
    ∃ t u, exec (.almWr sec min hour mday mon y 0x01) s = .next t ∧ exec .almRd t = .next u ∧
      u.outbox = s.outbox ++ [.response s.active [0x00], .response s.active
        ([0x00, BitVec.ofNat 8 sec, BitVec.ofNat 8 min, BitVec.ofNat 8 hour, BitVec.ofNat 8 mday, BitVec.ofNat 8 mon] ++
          halfBytes (if 200 ≤ y then (if (s.byteAt 0x0F).getLsbD 7 then y else y - 100)
            else (if (s.byteAt 0x0F).getLsbD 7 then y + 100 else y)) ++ [0x01, 0x00])]

/-- For every time block and alarm block, the match holds exactly when the decoded seconds, minutes, hour (the live one
through 12/24 decoding), day, month and two-digit year are equal. (R158.) -/
def Obligations.AlarmMatchComparesSixDecodedFields : Prop :=
  ∀ (t : TimeBlock) (a : AlarmBlock),
    alarmMatch t a = true ↔
      bcdDecode t.seconds 0x7F = bcdDecode a.seconds 0x7F ∧ bcdDecode t.minutes 0x7F = bcdDecode a.minutes 0x7F ∧
      decodeHour t.hours = bcdDecode a.hours 0x3F ∧ bcdDecode t.day 0x3F = bcdDecode a.day 0x3F ∧
      bcdDecode t.month 0x1F = bcdDecode a.month 0x1F ∧ bcdDecode t.year 0xFF = bcdDecode a.year 0xFF

/-- For every chip count tick: the seven time bytes become tick of the old ones; if the new time matches the alarm,
STATUS1 has bit 0 set and its other bits as before, else STATUS1 is as before; every other byte and everything
outside the register space is as before. The machine's chip turn is this step for its own tick. (42_alarm_manager.md
section 4, R159.) -/
def Obligations.ChipStepTicksThenCompares : Prop :=
  (∀ (tick : TimeBlock → TimeBlock) (s : State),
      ∃ reg, chipStepWith tick s = { s with reg := reg } ∧
        (∀ k, k < 7 → reg.get (0x0A + k) =
          (timeBytes (tick (timeOfBytes (s.reg.readBytes 0x0A 7)))).getD k 0) ∧
        reg.get 0x00 =
          (if alarmMatch (tick (timeOfBytes (s.reg.readBytes 0x0A 7))) (alarmOfBytes (s.reg.readBytes 0x11 6)) then
            s.byteAt 0x00 ||| 0x01 else s.byteAt 0x00) ∧
        ∀ a, a ≠ 0x00 → a < 0x0A ∨ 0x10 < a → reg.get a = s.byteAt a) ∧
    ∀ (s : State) (turns : List Move), s.turns = .chip :: turns →
      step s = .next (chipStepWith Config.tickFn { s with turns := turns })

/-- A1F, once 1, stays 1 through any moves of the other agents and through every command but ALM.WR and IRQ.SVC, however
the port answers and whatever happens between its transactions. (42_alarm_manager.md section 4, 60_exceptions.md
section 3, R160, R218.) -/
def Obligations.PendingFlagIsSticky : Prop :=
  (∀ (s : State) (ms : List Move), s.a1f = true → (performMoves ms s).a1f = true) ∧
    ∀ (s t : State) (i : Instr), (∀ sec min hour mday mon y en, i ≠ .almWr sec min hour mday mon y en) →
      i ≠ .irqSvc → s.a1f = true → exec i s = .next t → t.a1f = true

/-- A command during which no other agent moves leaves A1F clear if it was clear, however the port answers. (10_state.md
section 1.1, R12.) -/
def Obligations.BlockNeverSetsThePendingFlag : Prop :=
  ∀ (s t : State) (i : Instr), s.moves.take 5 = List.replicate 5 [] → s.a1f = false →
    exec i s = .next t → t.a1f = false

/-- In every state the line is A1IE and A1F, or another source. For every count function, the chip's step keeps A1IE and
sets A1F if the new time matches the alarm, and otherwise leaves the pair as it is. With every transaction
succeeding and nothing intervening: ALM.WR with legal fields makes the pair (A1IE, A1F) equal to (en, 0); ALM.EN
makes it (b, A1F); IRQ.SVC makes it (A1IE, 0) and puts out one ALARM_EVENT exactly when A1F was 1. After each, the
line is what the table gives for the new pair, or high by another source. (42_alarm_manager.md section 5,
60_exceptions.md section 3, R161, R217.) -/
def Obligations.AlarmStateMachine : Prop :=
  (∀ s : State, s.irqLine = ((s.a1ie && s.a1f) || s.irqOther)) ∧
    (∀ (tick : TimeBlock → TimeBlock) (s : State),
      let hit := alarmMatch (tick (timeOfBytes (s.reg.readBytes 0x0A 7))) (alarmOfBytes (s.reg.readBytes 0x11 6))
      (chipStepWith tick s).a1ie = s.a1ie ∧ (chipStepWith tick s).a1f = (s.a1f || hit) ∧
        (chipStepWith tick s).irqLine = ((s.a1ie && (s.a1f || hit)) || s.irqOther)) ∧
    ∀ s : State, Quiet 4 s → PortSays [.ok, .ok, .ok] s →
      (∀ sec min hour mday mon y (en : Bool), LegalAlarm sec min hour mday mon y →
        ∃ t, exec (.almWr sec min hour mday mon y (if en then 0x01 else 0x00)) s = .next t ∧ t.a1ie = en ∧
          t.a1f = false ∧ t.irqLine = s.irqOther) ∧
      (∀ b : Bool, ∃ t, exec (.almEn (if b then 0x01 else 0x00)) s = .next t ∧ t.a1ie = b ∧ t.a1f = s.a1f ∧
        t.irqLine = ((b && s.a1f) || s.irqOther)) ∧
      ∃ t, exec .irqSvc s = .next t ∧ t.a1ie = s.a1ie ∧ t.a1f = false ∧ t.irqLine = s.irqOther ∧
        t.outbox = s.outbox ++ (if s.a1f then [.alarmEvent] else []) ++ [.response s.active [0x00]]

/-- If during ALM.WR of legal operands the chip takes any numbers of steps before each of the three transactions and
none after the last, and all three succeed, A1F is 0 afterwards: a match in between is lost.
(70_reset_and_hazards.md section 3, R246.) -/
def Obligations.FlagSetDuringAlmWrIsLost : Prop :=
  ∀ (s : State) (sec min hour mday mon y a b c : Nat) (en : Byte), en = 0x00 ∨ en = 0x01 →
    LegalAlarm sec min hour mday mon y → s.lock = none →
    s.moves.take 4 = [List.replicate a .chip, List.replicate b .chip, List.replicate c .chip, []] →
    PortSays [.ok, .ok, .ok] s →
    ∃ t, exec (.almWr sec min hour mday mon y en) s = .next t ∧ t.a1f = false ∧
      t.outbox = s.outbox ++ [.response s.active [0x00]]

/-- The frame [0x30] is CLK.EN. Undisturbed: if the update succeeds, CLKOUT_CFG has bit 2 set and its other bits as
before, every other byte as before, and the answer is OK; if it fails, CLKOUT_CFG is old or updated and the answer
is BusError. (R183.) -/
def Obligations.ClkEnSetsOnlyTheEnableBit : Prop :=
  decode [0x30] = .ok .clkEn ∧
    (∀ s : State, Quiet 2 s → PortSays [.ok] s →
      ∃ reg, Stores 0x06 [s.byteAt 0x06 ||| 0x04] s.reg reg ∧
        exec .clkEn s = .next (s.ran 2 1 reg [⟨.update 0x06 0x04 0x04, [], false⟩] [.response s.active [0x00]])) ∧
    (∀ (s : State) (took : List Bool), Quiet 2 s → PortSays [.fail took] s →
      ∃ reg, StoresPart 0x06 took [s.byteAt 0x06 ||| 0x04] s.reg reg ∧
        exec .clkEn s = .next (s.ran 2 1 reg [⟨.update 0x06 0x04 0x04, [], true⟩] [.response s.active [0x01]]))

/-- The frame [0x31] is CLK.DIS. Undisturbed: if the update succeeds, CLKOUT_CFG has bit 2 clear and its other bits as
before, every other byte as before, and the answer is OK; if it fails, CLKOUT_CFG is old or updated and the answer
is BusError. (R184.) -/
def Obligations.ClkDisClearsOnlyTheEnableBit : Prop :=
  decode [0x31] = .ok .clkDis ∧
    (∀ s : State, Quiet 2 s → PortSays [.ok] s →
      ∃ reg, Stores 0x06 [s.byteAt 0x06 &&& 0xFB] s.reg reg ∧
        exec .clkDis s = .next (s.ran 2 1 reg [⟨.update 0x06 0x04 0x00, [], false⟩] [.response s.active [0x00]])) ∧
    (∀ (s : State) (took : List Bool), Quiet 2 s → PortSays [.fail took] s →
      ∃ reg, StoresPart 0x06 took [s.byteAt 0x06 &&& 0xFB] s.reg reg ∧
        exec .clkDis s = .next (s.ran 2 1 reg [⟨.update 0x06 0x04 0x00, [], true⟩] [.response s.active [0x01]]))

/-- The frame [0x32] is CLK.ISEN. Undisturbed: if the read succeeds it answers OK with bit 2 of CLKOUT_CFG as 0 or 1; if
it fails it answers BusError and no value; no register changes. (R185.) -/
def Obligations.ClkIsenReadsTheEnableBit : Prop :=
  decode [0x32] = .ok .clkIsen ∧
    (∀ s : State, Quiet 2 s → PortSays [.ok] s →
      exec .clkIsen s = .next (s.ran 2 1 s.reg [⟨.read 0x06 1, [s.byteAt 0x06], false⟩]
        [.response s.active ([0x00, if (s.byteAt 0x06).getLsbD 2 then 0x01 else 0x00])])) ∧
    (∀ (s : State) (took : List Bool), Quiet 2 s → PortSays [.fail took] s →
      exec .clkIsen s = .next (s.ran 2 1 s.reg [⟨.read 0x06 1, [], true⟩] [.response s.active [0x01]]))

/-- The frame [0x33] is CLK.RECALC. Undisturbed: if the read succeeds it answers OK with the rate 1, 64, 1024 or 32768
that bits 1:0 of CLKOUT_CFG select, whatever its other bits are; if it fails it answers BusError and no value; no
register changes. (R186.) -/
def Obligations.ClkRecalcReportsTheStoredRate : Prop :=
  decode [0x33] = .ok .clkRecalc ∧
    (∀ s : State, Quiet 2 s → PortSays [.ok] s →
      exec .clkRecalc s = .next (s.ran 2 1 s.reg [⟨.read 0x06 1, [s.byteAt 0x06], false⟩]
        [.response s.active (0x00 :: rateBytes (rateOfIndex (s.byteAt 0x06 &&& 0x03).toNat))])) ∧
    (∀ (s : State) (took : List Bool), Quiet 2 s → PortSays [.fail took] s →
      exec .clkRecalc s = .next (s.ran 2 1 s.reg [⟨.read 0x06 1, [], true⟩] [.response s.active [0x01]]))

/-- The F4 frame with opcode 0x34 is CLK.ROUND. From every state, whether or not LOCK is held, it answers OK with the
rate of the nearest index: 1 up to 32, 64 up to 544, 1024 up to 16896, 32768 above; it changes nothing else. (R187.) -/
def Obligations.ClkRoundAnswersTheNearestRate : Prop :=
  ∀ (s : State) (req : Nat),
    (req < 2 ^ 32 → decode (0x34 :: rateBytes req) = .ok (.clkRound req)) ∧
    exec (.clkRound req) s = .next (s.answered (0x00 :: rateBytes (rateOfIndex (rateIndex req))))

/-- The F4 frame with opcode 0x35 is CLK.SET. Undisturbed: if the update succeeds, bits 1:0 of CLKOUT_CFG are the
nearest index, its other bits and every other byte are as before, and the answer is OK with the rate of that index;
if it fails, CLKOUT_CFG is old or updated, and the answer is BusError and no rate. (R188.) -/
def Obligations.ClkSetWritesTheNearestIndex : Prop :=
  ∀ (s : State) (req : Nat),
    (req < 2 ^ 32 → decode (0x35 :: rateBytes req) = .ok (.clkSet req)) ∧
    (Quiet 2 s → PortSays [.ok] s →
      ∃ reg, Stores 0x06 [(s.byteAt 0x06 &&& 0xFC) ||| BitVec.ofNat 8 (rateIndex req)] s.reg reg ∧
        exec (.clkSet req) s = .next (s.ran 2 1 reg
          [⟨.update 0x06 0x03 (BitVec.ofNat 8 (rateIndex req)), [], false⟩]
          [.response s.active (0x00 :: rateBytes (rateOfIndex (rateIndex req)))])) ∧
    (∀ took, Quiet 2 s → PortSays [.fail took] s →
      ∃ reg, StoresPart 0x06 took [(s.byteAt 0x06 &&& 0xFC) ||| BitVec.ofNat 8 (rateIndex req)] s.reg reg ∧
        exec (.clkSet req) s = .next (s.ran 2 1 reg
          [⟨.update 0x06 0x03 (BitVec.ofNat 8 (rateIndex req)), [], true⟩] [.response s.active [0x01]]))

/-- For every rate table and request: on an empty table there is no index; on any other there is one, it is an index of
the table, no entry is closer to the request, and every earlier entry is farther away. On the default table it is
the map of the rule: 0 up to 32, 1 up to 544, 2 up to 16896, 3 above. (R182.) -/
def Obligations.NearestIndexIsClosestAndLowestOnTies : Prop :=
  ∀ (table : List Nat) (req : Nat),
    (table = [] → nearestIndex table req = none) ∧
    (table ≠ [] → ∃ k, nearestIndex table req = some k ∧ k < table.length ∧
      ∀ j, j < table.length →
        |(table.getD k 0 : Int) - req| ≤ |(table.getD j 0 : Int) - req| ∧
        (j < k → |(table.getD k 0 : Int) - req| < |(table.getD j 0 : Int) - req|)) ∧
    nearestIndex [1, 64, 1024, 32768] req = some (rateIndex req)

/-- Whatever the state, the port and the other agents do, the number of UnsupportedRate responses put out does not grow
during a command, on either path. (43_clock_output.md section 4, R190.) -/
def Obligations.UnsupportedRateIsNeverAnswered : Prop :=
  ∀ (s t : State) (i : Instr) (p : Path), exec i s = .next t →
    t.outbox.count (.response p [0x03]) ≤ s.outbox.count (.response p [0x03])

/-- If CLK.SET req and then CLK.RECALC run undisturbed and the port lets both transactions succeed, both answer OK with
the rate of the index nearest to req, and CLK.ROUND req then answers the same. (43_clock_output.md section 4, R191.) -/
def Obligations.RecalcReturnsTheRateSet : Prop :=
  ∀ (s : State) (req : Nat), Quiet 4 s → PortSays [.ok, .ok] s →
    ∃ t u v, exec (.clkSet req) s = .next t ∧ exec .clkRecalc t = .next u ∧ exec (.clkRound req) u = .next v ∧
      v.outbox = s.outbox ++
        List.replicate 3 (.response s.active (0x00 :: rateBytes (rateOfIndex (rateIndex req))))

/-- The frame [0x40] is OFS.RD. Undisturbed: if the read succeeds it answers OK with the AGING byte, the same 8 bits; if
it fails it answers BusError and no value; no register changes. (R200.) -/
def Obligations.OfsRdReturnsTheAgingByte : Prop :=
  decode [0x40] = .ok .ofsRd ∧
    (∀ s : State, Quiet 2 s → PortSays [.ok] s →
      exec .ofsRd s = .next (s.ran 2 1 s.reg [⟨.read 0x1E 1, [s.byteAt 0x1E], false⟩]
        [.response s.active ([0x00, s.byteAt 0x1E])])) ∧
    (∀ (s : State) (took : List Bool), Quiet 2 s → PortSays [.fail took] s →
      exec .ofsRd s = .next (s.ran 2 1 s.reg [⟨.read 0x1E 1, [], true⟩] [.response s.active [0x01]]))

/-- The frame [0x41, v] is OFS.WR. Undisturbed: if the write succeeds, AGING holds v, every other byte is as before, and
the answer is OK; if it fails, AGING is old or v, every other byte as before, and the answer is BusError. No byte is
refused. (R201.) -/
def Obligations.OfsWrWritesTheAgingByte : Prop :=
  ∀ (s : State) (v : Byte),
    decode [0x41, v] = .ok (.ofsWr v) ∧
    (Quiet 2 s → PortSays [.ok] s →
      ∃ reg, Stores 0x1E [v] s.reg reg ∧
        exec (.ofsWr v) s = .next (s.ran 2 1 reg [⟨.write 0x1E [v], [], false⟩] [.response s.active [0x00]])) ∧
    (∀ took, Quiet 2 s → PortSays [.fail took] s →
      ∃ reg, StoresPart 0x1E took [v] s.reg reg ∧
        exec (.ofsWr v) s = .next (s.ran 2 1 reg [⟨.write 0x1E [v], [], true⟩] [.response s.active [0x01]]))

/-- If OFS.WR v succeeds and nothing intervenes, OFS.RD answers v; so it does when the chip steps any number of times in
between. (44_aging_offset.md, R202.) -/
def Obligations.AgingReadReturnsTheByteWritten : Prop :=
  ∀ (s : State) (v : Byte) (n : Nat), s.lock = none →
    s.moves.take 4 = [[], List.replicate n .chip, [], []] → PortSays [.ok, .ok] s →
    ∃ t u, exec (.ofsWr v) s = .next t ∧ exec .ofsRd t = .next u ∧
      u.outbox = s.outbox ++ [.response s.active [0x00], .response s.active [0x00, v]]

/-- In every state the line is high exactly when STATUS1 bit 0 and INT_EN1 bit 0 are both 1 or another source is high.
(60_exceptions.md section 3, R217.) -/
def Obligations.IrqLineIsTheGatedFlagOrTheOthers : Prop :=
  ∀ s : State, s.irqLine = (((s.byteAt 0x00).getLsbD 0 && (s.byteAt 0x01).getLsbD 0) || s.irqOther)

/-- The frame [0x23] is IRQ.SVC. Undisturbed, with the port succeeding: if A1F is 1 it reads STATUS1, clears bit 0 by an
update, keeps the other bits and every other byte, emits one ALARM_EVENT, then answers 0x00; if A1F is 0 it only
reads STATUS1 and answers 0x00. If the clear fails, STATUS1 is old or cleared, no event is emitted and it answers
0x00. If the read fails it issues nothing more, changes no register, emits nothing and answers 0x00. Afterwards LOCK
is free and the handler is idle unless the other path has an IRQ.SVC in flight. (That it then stays servicing is the
model's reading, log entry 8.) (60_exceptions.md section 4, R220.) -/
def Obligations.IrqSvcAcknowledgesAndNotifies : Prop :=
  decode [0x23] = .ok .irqSvc ∧
    (∀ s : State, Quiet 3 s → PortSays [.ok, .ok] s → (s.byteAt 0x00).getLsbD 0 = true →
      ∃ reg, Stores 0x00 [s.byteAt 0x00 &&& 0xFE] s.reg reg ∧
        exec .irqSvc s = .next { s.ran 3 2 reg
          [⟨.read 0x00 1, [s.byteAt 0x00], false⟩, ⟨.update 0x00 0x01 0x00, [], false⟩]
          [.alarmEvent, .response s.active [0x00]] with isr := isrNow (s.withFlight s.active none) }) ∧
    (∀ s : State, Quiet 2 s → PortSays [.ok] s → (s.byteAt 0x00).getLsbD 0 = false →
      exec .irqSvc s = .next { s.ran 2 1 s.reg [⟨.read 0x00 1, [s.byteAt 0x00], false⟩]
        [.response s.active [0x00]] with isr := isrNow (s.withFlight s.active none) }) ∧
    (∀ (s : State) (took : List Bool), Quiet 3 s → PortSays [.ok, .fail took] s →
      (s.byteAt 0x00).getLsbD 0 = true →
      ∃ reg, StoresPart 0x00 took [s.byteAt 0x00 &&& 0xFE] s.reg reg ∧
        exec .irqSvc s = .next { s.ran 3 2 reg
          [⟨.read 0x00 1, [s.byteAt 0x00], false⟩, ⟨.update 0x00 0x01 0x00, [], true⟩]
          [.response s.active [0x00]] with isr := isrNow (s.withFlight s.active none) }) ∧
    (∀ (s : State) (took : List Bool), Quiet 2 s → PortSays [.fail took] s →
      exec .irqSvc s = .next { s.ran 2 1 s.reg [⟨.read 0x00 1, [], true⟩]
        [.response s.active [0x00]] with isr := isrNow (s.withFlight s.active none) }) ∧
    (∀ s : State, hasIrqSvc (s.withFlight s.active none).host = false →
      hasIrqSvc (s.withFlight s.active none).irq = false → isrNow (s.withFlight s.active none) = .idle)

/-- Whatever the state, the port and the other agents do during IRQ.SVC: for every frame but [0x00] the number of times
it was put out on its path does not grow; the number of times [0x00] was put out there grows by at most one; INT_EN1
is as before. (60_exceptions.md section 4, R221, R222.) -/
def Obligations.IrqSvcAnswersNothingButHandled : Prop :=
  ∀ s t : State, exec .irqSvc s = .next t →
    (∀ frame, frame ≠ [0x00] →
      t.outbox.count (.response s.active frame) ≤ s.outbox.count (.response s.active frame)) ∧
    t.outbox.count (.response s.active [0x00]) ≤ s.outbox.count (.response s.active [0x00]) + 1 ∧
    t.byteAt 0x01 = s.byteAt 0x01

/-- Whatever the port and the other agents do, a command adds at most one ALARM_EVENT to the output if it is IRQ.SVC,
and none if it is another command. (10_state.md section 2, R31.) -/
def Obligations.OnlyIrqSvcEmitsAtMostOneAlarmEvent : Prop :=
  ∀ (s t : State) (i : Instr), exec i s = .next t →
    t.outbox.count .alarmEvent ≤ s.outbox.count .alarmEvent + (if i = .irqSvc then 1 else 0)

/-- Whatever the port and the other agents do, if LOCK is free before a command it is free after it. (60_exceptions.md
section 2, 20_memory.md section 4, R54, R216.) -/
def Obligations.LockIsFreeAfterEveryCommand : Prop :=
  ∀ (s t : State) (i : Instr), s.lock = none → exec i s = .next t → t.lock = none

/-- When path p moves at a point of a command that runs on the other path and so holds LOCK: if p has no command in
flight and its next frame is a command that issues transactions on its operands, the command is put in flight with
nothing issued, and the handler is servicing if it is IRQ.SVC; if the frame is a command that issues none (BCD.DEC,
BCD.ENC, CLK.ROUND, or refused operands), its answer leaves on p at once; if the frame is no row of R75, [0x7F]
leaves on p. Everything else is as before: the register space, TRACE, LOCK, the running command. A command that
already waits on p, and a path with nothing to do, change nothing. (That the interrupt path takes up frames other
than [0x23] is the model's reading, log entry 14. That a frame sent early waits its turn behind the ones before it
is the model's choice, log entry 17.) (20_memory.md section 4, 60_exceptions.md section 4, 40_bcd_codec.md,
30_encoding.md section 6, R54, R220, R223, R107, R187, R78, R79.) -/
def Obligations.CommandWaitsWhileLockIsHeld : Prop :=
  (∀ (s : State) (p : Path) (frame : Frame) (rest : List Frame), p ≠ s.active → s.flightOf p = none →
      s.inboxOf p = frame :: rest →
      (∀ i, decode frame = .ok i → issues i ≠ [] →
        performMove (.run p) s = { (s.withInbox p rest).withFlight p (some ⟨i, 0, []⟩) with
          isr := if i = .irqSvc then .servicing else s.isr }) ∧
      (∀ i, decode frame = .ok i → issues i = [] →
        performMove (.run p) s =
          { s.withInbox p rest with outbox := s.outbox ++ [.response p (answerAtOnce i)] }) ∧
      (¬ TableFrame frame →
        performMove (.run p) s = { s.withInbox p rest with outbox := s.outbox ++ [.response p [0x7F]] })) ∧
    (∀ (s : State) (p : Path) (i : Instr), s.flightOf p = some ⟨i, 0, []⟩ → issues i ≠ [] →
      (i = .irqSvc → s.isr = .servicing) → performMove (.run p) s = s) ∧
    ∀ (s : State) (p : Path), p = s.active ∨ (s.flightOf p = none ∧ s.inboxOf p = []) → performMove (.run p) s = s

/-- If no other agent moves during a command, every byte outside the addresses the command stores to is as before,
however the port answers; a command that stores nothing changes no byte. (10_state.md section 5, 20_memory.md
section 2, R38, R49.) -/
def Obligations.CommandsStoreOnlyToTheirTargets : Prop :=
  ∀ (s t : State) (i : Instr) (a : Nat), s.moves.take 5 = List.replicate 5 [] → exec i s = .next t →
    a ∉ targets i → t.byteAt a = s.byteAt a

/-- Whatever the other agents and the port do during a command, every byte outside the command's targets, the time block
and STATUS1 is as before. (10_state.md section 5, R38.) -/
def Obligations.OthersTouchOnlyTheChipBytes : Prop :=
  ∀ (s t : State) (i : Instr) (a : Nat), exec i s = .next t → a ∉ targets i → a ∉ chipAddrs →
    t.byteAt a = s.byteAt a

/-- Whatever the other agents and the port do during a command: bits 7:1 of STATUS1 and of INT_EN1 and bits 7:3 of
CLKOUT_CFG are as before; RSEL is as before unless the command is CLK.SET; CLKEN is as before unless it is CLK.EN or
CLK.DIS; A1IE is as before unless it is ALM.WR or ALM.EN. (10_state.md section 1, R12, R13, R14.) -/
def Obligations.UnnamedBitsArePreserved : Prop :=
  ∀ (s t : State) (i : Instr) (k : Nat), exec i s = .next t →
    (k ≠ 0 → (t.byteAt 0x00).getLsbD k = (s.byteAt 0x00).getLsbD k) ∧
    (k ≠ 0 ∨ ((∀ sec min hour mday mon y en, i ≠ .almWr sec min hour mday mon y en) ∧ ∀ b, i ≠ .almEn b) →
      (t.byteAt 0x01).getLsbD k = (s.byteAt 0x01).getLsbD k) ∧
    (2 < k ∨ (k < 2 ∧ ∀ req, i ≠ .clkSet req) ∨ (k = 2 ∧ i ≠ .clkEn ∧ i ≠ .clkDis) →
      (t.byteAt 0x06).getLsbD k = (s.byteAt 0x06).getLsbD k)

/-- Whatever the port and the other agents do: the transactions a command adds to TRACE are, in order, a beginning of
its row of R49 (nothing if its operands are refused or it waits), and none but the last of them failed; after a
reset of the block in its course TRACE is empty (that a reset may fall inside a command is the model's reading, log
entry 9). If the command runs undisturbed and the port lets every transaction succeed, it issues the whole row; of
IRQ.SVC's row the second only if A1F is 1. (20_memory.md section 2, 70_reset_and_hazards.md section 1, R45, R49,
R240.) -/
def Obligations.CommandsIssueOnlyTheirTransactions : Prop :=
  (∀ (s t : State) (i : Instr), exec i s = .next t →
      t.trace = [] ∨ ∃ added, t.trace = s.trace ++ added ∧ added.map TraceEntry.xact <+: issues i ∧
        ∀ e ∈ added.dropLast, e.failed = false) ∧
    ∀ (s : State) (i : Instr), Quiet ((issues i).length + 1) s → PortSays (List.replicate (issues i).length .ok) s →
      ∃ t added, exec i s = .next t ∧ t.trace = s.trace ++ added ∧
        added.map TraceEntry.xact =
          (if i = .irqSvc ∧ (s.byteAt 0x00).getLsbD 0 = false then [.read 0x00 1] else issues i)

/-- For every host command but IRQ.SVC that issues n transactions, and every k up to n: if its transactions succeed, the
line asks for service at the point after k of them, the handler is idle, the interrupt path is free and nobody else
moves, then the command completes with all its effects and its OK answer, and when it has, IRQ.SVC is in flight on
the interrupt path with nothing issued, the handler is servicing and LOCK is free; the next turn of the interrupt
path runs it. Where the line is low, the handler is servicing (as it is during a host IRQ.SVC), the interrupt path
is busy or itself runs the command, nothing is taken up. (60_exceptions.md sections 3 and 4, R219, R223.) -/
def Obligations.InterruptTakenUpDuringCommandWaits : Prop :=
  (∀ (s : State) (i : Instr) (k : Nat) (turns : List Move), issues i ≠ [] → i ≠ .irqSvc → k ≤ (issues i).length →
      s.active = .host → s.lock = none → s.isr = .idle → s.flightOf .irq = none → s.turns = .run .irq :: turns →
      s.moves.take ((issues i).length + 1) =
        List.replicate k [] ++ [[.serve]] ++ List.replicate ((issues i).length - k) [] →
      PortSays (List.replicate (issues i).length .ok) s →
      State.irqLine { s with reg := scriptReg ((issues i).take k) s.reg } = true →
      ∃ t added frame, exec i s = .next t ∧ t.flightOf .irq = some ⟨.irqSvc, 0, []⟩ ∧ t.isr = .servicing ∧
        t.flightOf .host = none ∧ t.lock = none ∧ t.reg = scriptReg (issues i) s.reg ∧
        t.trace = s.trace ++ added ∧ added.map TraceEntry.xact = issues i ∧
        t.outbox = s.outbox ++ [.response .host (0x00 :: frame)] ∧
        step t = exec .irqSvc { t with turns := turns, active := .irq }) ∧
    ∀ s : State, s.irqLine = false ∨ s.isr = .servicing ∨ s.flightOf .irq ≠ none ∨ s.active = .irq →
      performMove .serve s = s

/-- For every initial register space, the state after reset has LOCK free, the handler idle, no command in flight on
either path, no output outstanding, an empty TRACE and that register space. (That State.reset takes the all-zero
register space is the model's choice, log entry 1, and is not stated here.) (70_reset_and_hazards.md section 1,
R240, R241.) -/
def Obligations.ResetLeavesTheBlockIdle : Prop :=
  ∀ reg : Memory, (State.resetWith reg).lock = none ∧ (State.resetWith reg).isr = .idle ∧
    (State.resetWith reg).flightOf .host = none ∧ (State.resetWith reg).flightOf .irq = none ∧
    (State.resetWith reg).outbox = [] ∧ (State.resetWith reg).trace = [] ∧ (State.resetWith reg).reg = reg

/-- A reset turn answers a next state with LOCK free, the handler idle, no command in flight on either path, no
ALARM_EVENT outstanding, an empty TRACE, and the register space as before. The other sources on the interrupt line
stay as they are (the model's reading, log entry 9), and earlier responses leave the list of outputs with the events
(the model's choice, log entry 16). (70_reset_and_hazards.md section 1, R240, R241.) -/
def Obligations.BlockResetKeepsTheRegisterSpace : Prop :=
  ∀ (s : State) (turns : List Move), s.turns = .reset :: turns →
    ∃ t, step s = .next t ∧ t.reg = s.reg ∧ t.lock = none ∧ t.isr = .idle ∧ t.flightOf .host = none ∧
      t.flightOf .irq = none ∧ t.outbox = [] ∧ t.trace = [] ∧ t.irqOther = s.irqOther

/-- For every state in which the register space is in canonical form, LOCK is free, the handler is servicing exactly
when an IRQ.SVC is in flight, and every command in flight waits for LOCK with nothing issued, every next state a
step answers is such a state again, whatever the port and the agents do. (That an overlap of two IRQ.SVC keeps the
handler servicing is the model's reading, log entry 8.) (10_state.md section 2, 20_memory.md section 4, R29, R33,
R54.) -/
def Obligations.EveryStepKeepsTheInvariant : Prop :=
  ∀ s t : State, s.inv = true → step s = .next t → t.inv = true

/-- For every register space in canonical form, the all-zero one of State.reset among them, the state after reset meets
the invariant that every step keeps. (70_reset_and_hazards.md section 1, R240.) -/
def Obligations.ResetMeetsTheInvariant : Prop :=
  (∀ reg : Memory, reg.wf = true → (State.resetWith reg).inv = true) ∧ State.reset.inv = true

/-- The canonical form represents each content of the 256 bytes once: two register spaces in canonical form that read
the same byte at every address below 256 are the same list. (10_state.md section 1, R10.) -/
def Obligations.EqualBytesAreEqualRegisterSpaces : Prop :=
  ∀ m m' : Memory, m.wf = true → m'.wf = true → (∀ a, a < 256 → m.get a = m'.get a) → m = m'
end

