-- ==== Sys2Proof/Laws/Memory.lean ====
section
/-! SUPPORT. The laws of the register space: a read after a write, what a write leaves alone, blocks of bytes, and the
canonical form, which every operation keeps and which makes equal register spaces equal lists. -/

namespace Sys2Proof.Machine

/-! ### One byte -/

theorem Memory.get_erase (m : Memory) (a b : Nat) :
    (m.erase a).get b = if b = a then Memory.unlisted else m.get b := by
  induction m with
  | nil => simp [Memory.erase, Memory.get]
  | cons c m ih =>
    obtain ⟨d, v⟩ := c
    by_cases h : a = d
    · simp only [Memory.erase, if_pos h, ih]
      by_cases hb : b = a
      · simp [hb]
      · simp [hb, Memory.get, show b ≠ d from h ▸ hb]
    · simp only [Memory.erase, if_neg h, Memory.get, ih]
      by_cases hb : b = d
      · simp [hb, show d ≠ a from fun e => h e.symm]
      · simp [hb]

theorem Memory.get_insert (m : Memory) (a b : Nat) (v : Byte) :
    (m.insert a v).get b = if b = a then v else m.get b := by
  induction m with
  | nil => simp [Memory.insert, Memory.get]
  | cons c m ih =>
    obtain ⟨d, w⟩ := c
    simp only [Memory.insert]
    split
    · simp [Memory.get]
    · split
      · rename_i h
        subst h
        by_cases hb : b = a <;> simp [Memory.get, hb]
      · rename_i h
        simp only [Memory.get, ih]
        by_cases hb : b = d
        · simp [hb, show d ≠ a from fun e => h e.symm]
        · simp [hb]

/-- A read after a write: the written byte at the written address, the old byte anywhere else. -/
theorem Memory.get_set (m : Memory) {a : Nat} (b : Nat) (v : Byte) (h : a < Config.regSize) :
    (m.set a v).get b = if b = a then v else m.get b := by
  simp only [Memory.set, if_pos h]
  split
  · rename_i hv
    rw [Memory.get_erase, hv]
  · exact Memory.get_insert m a b v

theorem Memory.get_set_ne (m : Memory) {a b : Nat} (v : Byte) (h : b ≠ a) : (m.set a v).get b = m.get b := by
  by_cases ha : a < Config.regSize
  · rw [Memory.get_set m b v ha, if_neg h]
  · simp [Memory.set, ha]

theorem Memory.get_set_self (m : Memory) {a : Nat} (v : Byte) (h : a < Config.regSize) : (m.set a v).get a = v := by
  rw [Memory.get_set m a v h, if_pos rfl]

/-! ### Blocks -/

@[simp] theorem Memory.readBytes_length (m : Memory) (a : Nat) (n : Nat) : (m.readBytes a n).length = n := by
  induction n generalizing a with
  | zero => rfl
  | succ n ih => simp [Memory.readBytes, ih]

theorem Memory.readBytes_getD (m : Memory) (a : Nat) {n k : Nat} (h : k < n) :
    (m.readBytes a n).getD k 0 = m.get (a + k) := by
  induction n generalizing a k with
  | zero => omega
  | succ n ih =>
    cases k with
    | zero => rfl
    | succ k =>
      have := ih (a + 1) (show k < n by omega)
      simp only [Memory.readBytes, List.getD_cons_succ, this]
      congr 1
      omega

theorem Memory.readBytes_congr {m m' : Memory} {a : Nat} {n : Nat} (h : ∀ k, k < n → m'.get (a + k) = m.get (a + k)) :
    m'.readBytes a n = m.readBytes a n := by
  induction n generalizing a with
  | zero => rfl
  | succ n ih =>
    simp only [Memory.readBytes]
    congr 1
    · exact h 0 (by omega)
    · refine ih fun k hk => ?_
      have := h (k + 1) (by omega)
      rwa [show a + (k + 1) = a + 1 + k by omega] at this

/-- Bytes outside a written block keep their value. -/
theorem Memory.writeBytes_get_outside (m : Memory) (a : Nat) (buf : List Byte) {b : Nat}
    (h : b < a ∨ a + buf.length ≤ b) : (m.writeBytes a buf).get b = m.get b := by
  induction buf generalizing a m with
  | nil => rfl
  | cons v buf ih =>
    simp only [List.length_cons] at h
    rw [Memory.writeBytes, ih (m.set a v) (a + 1) (by omega), Memory.get_set_ne m v (by omega)]

/-- Bytes inside a written block hold what was written. -/
theorem Memory.writeBytes_get_inside (m : Memory) (a : Nat) (buf : List Byte) {k : Nat} (hk : k < buf.length)
    (h : a + buf.length ≤ Config.regSize) : (m.writeBytes a buf).get (a + k) = buf.getD k 0 := by
  induction buf generalizing a m k with
  | nil => simp at hk
  | cons v buf ih =>
    simp only [List.length_cons] at h hk
    cases k with
    | zero =>
      rw [Memory.writeBytes, Memory.writeBytes_get_outside (m.set a v) (a + 1) buf (b := a + 0) (by omega)]
      exact Memory.get_set_self m v (by omega)
    | succ k =>
      rw [Memory.writeBytes, show a + (k + 1) = a + 1 + k by omega,
        ih (m.set a v) (a + 1) (by omega) (by omega)]
      rfl

/-- A block write inside the space stores exactly its bytes (R42). -/
theorem Memory.writeBytes_stores (m : Memory) (a : Nat) (buf : List Byte) (h : a + buf.length ≤ Config.regSize) :
    Stores a buf m (m.writeBytes a buf) :=
  ⟨fun _ hk => m.writeBytes_get_inside a buf hk h, fun _ hb => m.writeBytes_get_outside a buf hb⟩

/-- The bytes read back after a block write are the bytes written. -/
theorem Memory.readBytes_writeBytes (m : Memory) (a : Nat) (buf : List Byte) (h : a + buf.length ≤ Config.regSize) :
    (m.writeBytes a buf).readBytes a buf.length = buf := by
  apply List.ext_getElem (by simp)
  intro k h1 h2
  have := (m.writeBytes a buf).readBytes_getD a (n := buf.length) h2
  rw [m.writeBytes_get_inside a buf h2 h] at this
  simpa [List.getD_eq_getElem?_getD, h1, h2] using this

/-! ### Failed writes -/

theorem mixBytes_length (took : List Bool) {old new : List Byte} (h : old.length = new.length) :
    (mixBytes took old new).length = new.length := by
  induction new generalizing took old with
  | nil => cases old <;> cases took <;> simp_all [mixBytes]
  | cons n new ih =>
    cases old with
    | nil => simp at h
    | cons o old =>
      have := fun t => ih t (old := old) (by simpa using h)
      cases took <;> simp [mixBytes, this]

theorem mixBytes_getD (took : List Bool) {old new : List Byte} (h : old.length = new.length) {k : Nat}
    (hk : k < new.length) :
    (mixBytes took old new).getD k 0 = if took.getD k false then new.getD k 0 else old.getD k 0 := by
  induction new generalizing took old k with
  | nil => simp at hk
  | cons n new ih =>
    cases old with
    | nil => simp at h
    | cons o old =>
      have ih' := fun t j (hj : j < new.length) => ih t (old := old) (k := j) (by simpa using h) hj
      cases k with
      | zero => cases took with
        | nil => simp [mixBytes]
        | cons t took => cases t <;> simp [mixBytes]
      | succ k =>
        have hk' : k < new.length := by simpa using hk
        cases took with
        | nil => simpa [mixBytes] using ih' [] k hk'
        | cons t took => simpa [mixBytes] using ih' took k hk'

/-- A failed block write leaves each byte old or new, as the port says, and nothing else changed (R42). -/
theorem failed_write_stores_part (m : Memory) (a : Nat) (took : List Bool) (buf : List Byte)
    (h : a + buf.length ≤ Config.regSize) :
    StoresPart a took buf m (xactReg (.write a buf) (.fail took) m) := by
  have hlen : (mixBytes took (m.readBytes a buf.length) buf).length = buf.length := mixBytes_length took (by simp)
  constructor
  · intro k hk
    rw [xactReg, m.writeBytes_get_inside a _ (by omega) (by omega), mixBytes_getD took (by simp) hk,
      m.readBytes_getD a hk]
  · intro b hb
    rw [xactReg, m.writeBytes_get_outside a _ (by omega)]

/-! ### The canonical form -/

theorem Memory.wfFrom_mono {low low' : Nat} {m : Memory} (h : low' ≤ low) (hm : Memory.wfFrom low m = true) :
    Memory.wfFrom low' m = true := by
  cases m with
  | nil => rfl
  | cons c m => obtain ⟨a, v⟩ := c; simp_all [Memory.wfFrom]; omega

theorem Memory.wfFrom_erase {low : Nat} {m : Memory} (a : Nat) (hm : Memory.wfFrom low m = true) :
    Memory.wfFrom low (m.erase a) = true := by
  induction m generalizing low with
  | nil => rfl
  | cons c m ih =>
    obtain ⟨b, w⟩ := c
    simp only [Memory.wfFrom, Bool.and_eq_true, decide_eq_true_eq] at hm
    obtain ⟨⟨⟨h1, h2⟩, h3⟩, h4⟩ := hm
    simp only [Memory.erase]
    split
    · exact Memory.wfFrom_mono (by omega) (ih h4)
    · simp [Memory.wfFrom, h1, h2, h3, ih h4]

theorem Memory.wfFrom_insert {low : Nat} {m : Memory} {a : Nat} {v : Byte} (ha : a < Config.regSize)
    (hv : v ≠ Memory.unlisted) (hl : low ≤ a) (hm : Memory.wfFrom low m = true) :
    Memory.wfFrom low (m.insert a v) = true := by
  induction m generalizing low with
  | nil => simp [Memory.insert, Memory.wfFrom, ha, hv, hl]
  | cons c m ih =>
    obtain ⟨b, w⟩ := c
    simp only [Memory.wfFrom, Bool.and_eq_true, decide_eq_true_eq] at hm
    obtain ⟨⟨⟨h1, h2⟩, h3⟩, h4⟩ := hm
    simp only [Memory.insert]
    split
    · rename_i hlt
      simp [Memory.wfFrom, ha, hv, hl, h2, h3, h4]
      omega
    · split
      · rename_i _ he
        subst he
        simp [Memory.wfFrom, ha, hv, hl, h4]
      · simp [Memory.wfFrom, h1, h2, h3, ih (show b + 1 ≤ a by omega) h4]

/-- A write keeps the canonical form. -/
theorem Memory.wf_set {m : Memory} (a : Nat) (v : Byte) (hm : m.wf = true) : (m.set a v).wf = true := by
  simp only [Memory.set]
  split
  · split
    · exact Memory.wfFrom_erase a hm
    · exact Memory.wfFrom_insert ‹_› ‹_› (Nat.zero_le a) hm
  · exact hm

/-- A block write keeps the canonical form. -/
theorem Memory.wf_writeBytes {m : Memory} (a : Nat) (buf : List Byte) (hm : m.wf = true) :
    (m.writeBytes a buf).wf = true := by
  induction buf generalizing a m with
  | nil => exact hm
  | cons v buf ih => exact ih (a + 1) (Memory.wf_set a v hm)

/-- Every transaction keeps the canonical form, whatever the port answers. -/
theorem wf_xactReg {m : Memory} (x : Xact) (a : PortAnswer) (hm : m.wf = true) : (xactReg x a m).wf = true := by
  cases x <;> cases a <;> simp only [xactReg] <;>
    first
    | exact hm
    | exact Memory.wf_writeBytes _ _ hm
    | exact Memory.wf_set _ _ hm
    | (split <;> first | exact Memory.wf_set _ _ hm | exact hm)

/-- The chip's step keeps the canonical form. -/
theorem wf_chipStepWith {s : State} (tick : TimeBlock → TimeBlock) (hm : s.reg.wf = true) :
    (chipStepWith tick s).reg.wf = true := by
  have h : (tickedReg tick s.reg).wf = true := Memory.wf_writeBytes _ _ hm
  simp only [chipStepWith, comparedReg]
  split
  · exact Memory.wf_set _ _ h
  · exact h

theorem Memory.get_below {low a : Nat} {m : Memory} (hm : Memory.wfFrom low m = true) (h : a < low) :
    m.get a = Memory.unlisted := by
  induction m generalizing low with
  | nil => rfl
  | cons c m ih =>
    obtain ⟨b, w⟩ := c
    simp only [Memory.wfFrom, Bool.and_eq_true, decide_eq_true_eq] at hm
    obtain ⟨⟨⟨h1, _⟩, _⟩, h4⟩ := hm
    rw [Memory.get, if_neg (by omega)]
    exact ih h4 (by omega)

/-- The reset register space has the canonical form. -/
theorem wf_reset : State.reset.reg.wf = true := rfl

end Sys2Proof.Machine
end

