-- ==== Sys2Proof/Laws/Codec.lean ====
section
/-! SUPPORT. The laws of the codec, of validation and of the block encoders: what they give on the operands the checks
let through. -/

namespace Sys2Proof.Machine

/-! ### The codec -/

theorem bcdEncode_of_le {n : Nat} (h : n ≤ 99) : bcdEncode n = some (packed n) := if_pos h

theorem bcdEncode_of_gt {n : Nat} (h : 99 < n) : bcdEncode n = none := if_neg (by omega)

/-- A field of two digits survives encoding and decoding under any mask that keeps its bits. -/
theorem bcdDecode_packed {n : Nat} {mask : Byte} (h : n ≤ 99) (hm : packed n &&& mask = packed n) :
    bcdDecode (packed n) mask = n := by
  have key : ∀ k, k < 100 → (packed k).toNat / 16 * 10 + (packed k).toNat % 16 = k := by decide
  simp only [bcdDecode, hm, highNibble, lowNibble]
  exact key n (by omega)

theorem bcdDecode_packed_7F {n : Nat} (h : n ≤ 79) : bcdDecode (packed n) 0x7F = n :=
  bcdDecode_packed (by omega) ((by decide : ∀ k, k < 80 → packed k &&& 0x7F = packed k) n (by omega))

theorem bcdDecode_packed_3F {n : Nat} (h : n ≤ 39) : bcdDecode (packed n) 0x3F = n :=
  bcdDecode_packed (by omega) ((by decide : ∀ k, k < 40 → packed k &&& 0x3F = packed k) n (by omega))

theorem bcdDecode_packed_1F {n : Nat} (h : n ≤ 19) : bcdDecode (packed n) 0x1F = n :=
  bcdDecode_packed (by omega) ((by decide : ∀ k, k < 20 → packed k &&& 0x1F = packed k) n (by omega))

theorem bcdDecode_packed_07 {n : Nat} (h : n ≤ 7) : bcdDecode (packed n) 0x07 = n :=
  bcdDecode_packed (by omega) ((by decide : ∀ k, k < 8 → packed k &&& 0x07 = packed k) n (by omega))

/-- The century bit over a packed month does not disturb the month. -/
theorem bcdDecode_month_century {n : Nat} (h : n ≤ 12) (c : Bool) :
    bcdDecode (packed n ||| if c then 0x80 else 0x00) 0x1F = n := by
  have key : ∀ k, k < 13 → ∀ c : Bool, bcdDecode (packed k ||| if c then 0x80 else 0x00) 0x1F = k := by decide
  exact key n (by omega) c

/-- The century bit of a written month byte is the one that was put there. -/
theorem century_of_month {n : Nat} (h : n ≤ 12) (c : Bool) :
    bitOf (packed n ||| if c then 0x80 else 0x00) 7 = c := by
  have key : ∀ k, k < 13 → ∀ c : Bool, bitOf (packed k ||| if c then 0x80 else 0x00) 7 = c := by decide
  exact key n (by omega) c

/-- An hour written in 24-hour form is read back in the 24-hour branch (R129, R135). -/
theorem decodeHour_packed {n : Nat} (h : n ≤ 23) : decodeHour (packed n) = n := by
  have key : ∀ k, k < 24 → decodeHour (packed k) = k := by decide
  exact key n (by omega)

/-! ### Validation -/

theorem yearValid_iff (y : Nat) : yearValid y = true ↔ 100 ≤ y ∧ y ≤ 299 := by
  rw [yearValid, Bool.and_eq_true, decide_eq_true_iff, decide_eq_true_iff]
  simp only [Config.yearMin, Config.yearMax, Config.swEpoch]
  omega

theorem timeValid_iff (sec min hour wday mday mon y : Nat) :
    timeValid ⟨sec, min, hour, wday, mday, mon, y⟩ = true ↔ LegalTime sec min hour wday mday mon y := by
  simp only [timeValid, Bool.and_eq_true, decide_eq_true_eq, yearValid_iff, LegalTime]
  omega

theorem alarmValid_iff (sec min hour mday mon y : Nat) :
    alarmValid ⟨sec, min, hour, mday, mon, y⟩ = true ↔ LegalAlarm sec min hour mday mon y := by
  simp only [alarmValid, Bool.and_eq_true, decide_eq_true_eq, yearValid_iff, LegalAlarm]
  omega

theorem readBool_boolByte (b : Bool) : readBool (boolByte b) = some b := by cases b <;> rfl

theorem readBool_eq_some {v : Byte} {b : Bool} (h : readBool v = some b) : v = boolByte b := by
  revert h
  simp only [readBool]
  split
  · rintro ⟨⟩; assumption
  · split
    · rintro ⟨⟩; assumption
    · intro h; cases h

theorem readBool_eq_none {v : Byte} (h0 : v ≠ 0x00) (h1 : v ≠ 0x01) : readBool v = none := by
  rw [readBool, if_neg h0, if_neg h1]

theorem centuryBits_eq (y : Nat) : centuryBits y = if 200 ≤ y then 0x80 else 0x00 := by
  simp only [centuryBits, Config.centuryThreshold, Config.swEpoch, Config.bCentury, bitMask,
    show (2100 ≤ 1900 + y) = (200 ≤ y) from propext (by omega)]
  rfl

/-- TIME.WR's check lets legal operands through with the seven bytes of R129. -/
theorem checkTimeWr_legal {sec min hour wday mday mon y : Nat} (h : LegalTime sec min hour wday mday mon y) :
    checkTimeWr ⟨sec, min, hour, wday, mday, mon, y⟩ =
      .ok ⟨packed sec, packed min, packed hour, packed (wday + 1), packed mday,
        packed mon ||| (if 200 ≤ y then 0x80 else 0x00), packed (y % 100)⟩ := by
  have hw : ((wday : Int) + 1).toNat = wday + 1 := by omega
  rw [checkTimeWr, if_pos ((timeValid_iff ..).2 h)]
  obtain ⟨h1, h2, h3, h4, h5, h6, h7, h8, h9, h10⟩ := h
  simp only [encodeTime, hw, bcdEncode_of_le (show sec ≤ 99 by omega), bcdEncode_of_le (show min ≤ 99 by omega),
    bcdEncode_of_le (show hour ≤ 99 by omega), bcdEncode_of_le (show wday + 1 ≤ 99 by omega),
    bcdEncode_of_le (show mday ≤ 99 by omega), bcdEncode_of_le (show mon ≤ 99 by omega),
    bcdEncode_of_le (show y % 100 ≤ 99 by omega), centuryBits_eq]

/-- TIME.WR's check refuses every other operand (R128). -/
theorem checkTimeWr_illegal {sec min hour wday mday mon y : Nat} (h : ¬ LegalTime sec min hour wday mday mon y) :
    checkTimeWr ⟨sec, min, hour, wday, mday, mon, y⟩ = .error .invalidArgument :=
  if_neg (fun hv => h ((timeValid_iff ..).1 hv))

/-- ALM.WR's check lets legal operands through with the six bytes of R154. -/
theorem checkAlmWr_legal {sec min hour mday mon y : Nat} (en : Bool) (h : LegalAlarm sec min hour mday mon y) :
    checkAlmWr ⟨sec, min, hour, mday, mon, y⟩ (boolByte en) =
      .ok (⟨packed sec, packed min, packed hour, packed mday, packed mon, packed (y % 100)⟩, en) := by
  rw [checkAlmWr, if_pos ((alarmValid_iff ..).2 h), readBool_boolByte]
  obtain ⟨h1, h2, h3, h4, h5, h6, h7, h8, h9⟩ := h
  simp only [encodeAlarm, bcdEncode_of_le (show sec ≤ 99 by omega), bcdEncode_of_le (show min ≤ 99 by omega),
    bcdEncode_of_le (show hour ≤ 99 by omega), bcdEncode_of_le (show mday ≤ 99 by omega),
    bcdEncode_of_le (show mon ≤ 99 by omega), bcdEncode_of_le (show y % 100 ≤ 99 by omega)]

/-- ALM.WR's check refuses an illegal field and a byte that is no boolean (R153, R80). -/
theorem checkAlmWr_illegal {sec min hour mday mon y : Nat} {en : Byte}
    (h : ¬ LegalAlarm sec min hour mday mon y ∨ (en ≠ 0x00 ∧ en ≠ 0x01)) :
    checkAlmWr ⟨sec, min, hour, mday, mon, y⟩ en = .error .invalidArgument := by
  simp only [checkAlmWr]
  split
  · rename_i hv
    rcases h with h | ⟨h0, h1⟩
    · exact absurd ((alarmValid_iff ..).1 hv) h
    · simp [readBool_eq_none h0 h1]
  · rfl

/-! ### Blocks and bytes -/

@[simp] theorem timeBytes_length (t : TimeBlock) : (timeBytes t).length = 7 := rfl

@[simp] theorem alarmBytes_length (a : AlarmBlock) : (alarmBytes a).length = 6 := rfl

@[simp] theorem timeOfBytes_timeBytes (t : TimeBlock) : timeOfBytes (timeBytes t) = t := rfl

@[simp] theorem alarmOfBytes_alarmBytes (a : AlarmBlock) : alarmOfBytes (alarmBytes a) = a := rfl

/-- A block write of the time is read back as the time written. -/
theorem timeBlock_writeBytes (m : Memory) (t : TimeBlock) : (m.writeBytes Config.aTime (timeBytes t)).timeBlock = t := by
  have h := m.readBytes_writeBytes Config.aTime (timeBytes t) (show 17 ≤ 256 by decide)
  simp only [timeBytes_length] at h
  simp [Memory.timeBlock, h]

/-! ### The rate table -/

/-- The table-size requirement in the words of R189. -/
theorem tableSized_iff (table : List Nat) : tableSized table = true ↔ ∃ k, k ≤ 8 ∧ table.length = 2 ^ k := by
  simp only [tableSized, List.any_eq_true, List.mem_range, decide_eq_true_eq]
  exact ⟨fun ⟨k, hk, h⟩ => ⟨k, Nat.lt_succ_iff.1 hk, h⟩, fun ⟨k, hk, h⟩ => ⟨k, Nat.lt_succ_iff.2 hk, h⟩⟩

/-- The table of R180 meets the invariant, and its mask is its length minus one (R189). -/
theorem rateTable_sized :
    tableSized Config.rateTable = true ∧ Config.rateIdxMask.toNat = Config.rateTable.length - 1 := by decide

/-- The table of R180 leaves every early answer as it is (R189). -/
@[simp] theorem onTable_rateTable (answer : Option Frame) : onTable Config.rateTable answer = answer := rfl

/-- On every table of the required size every stored byte, masked with the length minus one, selects an entry: no stored
index reads outside the table (R181, R189). -/
theorem storedRate_of_tableSized {table : List Nat} (h : tableSized table = true) (v : Byte) :
    ∃ rate ∈ table, storedRate table (BitVec.ofNat 8 (table.length - 1)) v = some rate := by
  obtain ⟨k, hk, hn⟩ := (tableSized_iff table).1 h
  have hpos : 0 < 2 ^ k := Nat.two_pow_pos k
  have hle : 2 ^ k ≤ 2 ^ 8 := Nat.pow_le_pow_right (by decide) hk
  have hlt : (v &&& BitVec.ofNat 8 (table.length - 1)).toNat < table.length := by
    have h1 : (v &&& BitVec.ofNat 8 (table.length - 1)).toNat ≤ (BitVec.ofNat 8 (table.length - 1)).toNat := by
      rw [BitVec.toNat_and]; exact Nat.and_le_right
    rw [BitVec.toNat_ofNat] at h1
    have h2 := Nat.mod_le (table.length - 1) (2 ^ 8)
    omega
  exact ⟨table[(v &&& BitVec.ofNat 8 (table.length - 1)).toNat], List.getElem_mem hlt, List.getElem?_eq_getElem hlt⟩

end Sys2Proof.Machine
end

