-- ==== Sys2Proof/Laws/Frames.lean ====
section
/-! SUPPORT. The widths of `00_scope.md` R4 as numerals, and what the byte order of frames and the readers of operands
give, in numerals: a proof cites these and never unfolds a width. -/

namespace Sys2Proof

/-! ### Bytes and numbers -/

theorem Config.regSize_eq : Config.regSize = 256 := rfl

@[simp] theorem rateLength_eq : rateLength = 4 := rfl

theorem byte_lt (b : Byte) : b.toNat < 256 := b.isLt

@[simp] theorem toNat_toByte (n : Nat) : (toByte n).toNat = n % 256 := BitVec.toNat_ofNat n 8

theorem toByte_eq (n : Nat) : toByte n = BitVec.ofNat 8 n := rfl

@[simp] theorem toByte_toNat (b : Byte) : toByte b.toNat = b := by simp [toByte]

/-- A bit beyond the register width is 0 (R10). -/
theorem getLsbD_byte {k : Nat} (b : Byte) (h : 8 ≤ k) : b.getLsbD k = false := BitVec.getLsbD_of_ge b k h

/-! ### Well-formed operands -/

theorem fitsByte_iff (n : Nat) : fitsByte n = true ↔ n < 256 := decide_eq_true_iff

theorem fitsHalf_iff (n : Nat) : fitsHalf n = true ↔ n < 65536 := decide_eq_true_iff

theorem fitsRate_iff (n : Nat) : fitsRate n = true ↔ n < 4294967296 := decide_eq_true_iff

/-! ### Little-endian numbers -/

theorem ofLe_two (b c : Byte) : ofLe [b, c] = b.toNat + 256 * c.toNat := rfl

theorem ofLe_four (b c d e : Byte) :
    ofLe [b, c, d, e] = b.toNat + 256 * (c.toNat + 256 * (d.toNat + 256 * e.toNat)) := rfl

theorem leBytes_length (count n : Nat) : (leBytes count n).length = count := by
  induction count generalizing n with
  | zero => rfl
  | succ count ih => simp [leBytes, ih]

/-- The low bytes of a number give back the number, up to what they can hold. -/
theorem ofLe_leBytes (count n : Nat) : ofLe (leBytes count n) = n % 2 ^ (8 * count) := by
  induction count generalizing n with
  | zero => simp [leBytes, ofLe, Nat.mod_one]
  | succ count ih =>
    have h := Nat.mod_mul (x := n) (a := 256) (b := 2 ^ (8 * count))
    simp only [leBytes, ofLe, toNat_toByte, ih, show (2 : Nat) ^ Config.dataW = 256 from rfl,
      show 2 ^ (8 * (count + 1)) = 256 * 2 ^ (8 * count) by rw [Nat.mul_add, Nat.pow_add, Nat.mul_comm]]
    exact h.symm

/-- The bytes of the number that bytes give are those bytes. -/
theorem leBytes_ofLe (bytes : List Byte) : leBytes bytes.length (ofLe bytes) = bytes := by
  induction bytes with
  | nil => rfl
  | cons b bytes ih =>
    have hb := byte_lt b
    have hd : ofLe (b :: bytes) / 2 ^ Config.dataW = ofLe bytes := by
      simp only [ofLe, show (2 : Nat) ^ Config.dataW = 256 from rfl]; omega
    have ht : toByte (ofLe (b :: bytes)) = b := by
      apply BitVec.eq_of_toNat_eq
      simp only [toNat_toByte, ofLe, show (2 : Nat) ^ Config.dataW = 256 from rfl]; omega
    rw [List.length_cons, leBytes, hd, ht, ih]

theorem ofLe_lt (bytes : List Byte) : ofLe bytes < 2 ^ (8 * bytes.length) := by
  have h := ofLe_leBytes bytes.length (ofLe bytes)
  rw [leBytes_ofLe] at h
  rw [h]
  exact Nat.mod_lt _ (Nat.two_pow_pos _)

theorem yearBytes_eq (n : Nat) : yearBytes n = Machine.halfBytes n := rfl

theorem rateFrameBytes_eq (n : Nat) : rateFrameBytes n = Machine.rateBytes n := by
  have h : ∀ a b : Nat, n / a / b = n / (a * b) := fun a b => Nat.div_div_eq_div_mul n a b
  show [toByte n, toByte (n / 256), toByte (n / 256 / 256), toByte (n / 256 / 256 / 256)] = _
  simp only [h, toByte_eq, Machine.rateBytes]

/-! ### Reading the operands of a frame -/

/-- A rate is read from four bytes (R72). -/
theorem readRate_four (b c d e : Byte) (f : Nat → Instr) : readRate [b, c, d, e] f = some (f (ofLe [b, c, d, e])) := rfl

/-- A rate is read back from the bytes that carry it. -/
theorem readRate_rateFrameBytes {n : Nat} (h : n < 4294967296) (f : Nat → Instr) :
    readRate (rateFrameBytes n) f = some (f n) := by
  have hn : ofLe (rateFrameBytes n) = n := (ofLe_leBytes 4 n).trans (Nat.mod_eq_of_lt h)
  rw [readRate, if_pos (show (rateFrameBytes n).length = rateLength from leBytes_length _ _), hn]

/-- `year_off` is read back from the two bytes that carry it. -/
theorem ofLe_yearBytes {n : Nat} (h : n < 65536) : ofLe (yearBytes n) = n :=
  (ofLe_leBytes 2 n).trans (Nat.mod_eq_of_lt h)

end Sys2Proof
end

