-- ==== Sys2Proof/Laws/State.lean ====
section
/-! SUPPORT. What each update of the state does to each field: one lemma per field per update, and the lemmas of the
two paths. No later proof unfolds a record update. -/

namespace Sys2Proof.Machine

/-! ### `withPath` -/

@[simp] theorem withPath_reg (s : State) (p : Path) (ps : PathState) : (s.withPath p ps).reg = s.reg := by cases p <;> rfl
@[simp] theorem withPath_lock (s : State) (p : Path) (ps : PathState) : (s.withPath p ps).lock = s.lock := by cases p <;> rfl
@[simp] theorem withPath_isr (s : State) (p : Path) (ps : PathState) : (s.withPath p ps).isr = s.isr := by cases p <;> rfl
@[simp] theorem withPath_active (s : State) (p : Path) (ps : PathState) : (s.withPath p ps).active = s.active := by cases p <;> rfl
@[simp] theorem withPath_irqOther (s : State) (p : Path) (ps : PathState) : (s.withPath p ps).irqOther = s.irqOther := by cases p <;> rfl
@[simp] theorem withPath_trace (s : State) (p : Path) (ps : PathState) : (s.withPath p ps).trace = s.trace := by cases p <;> rfl
@[simp] theorem withPath_outbox (s : State) (p : Path) (ps : PathState) : (s.withPath p ps).outbox = s.outbox := by cases p <;> rfl
@[simp] theorem withPath_answers (s : State) (p : Path) (ps : PathState) : (s.withPath p ps).answers = s.answers := by cases p <;> rfl
@[simp] theorem withPath_moves (s : State) (p : Path) (ps : PathState) : (s.withPath p ps).moves = s.moves := by cases p <;> rfl
@[simp] theorem withPath_turns (s : State) (p : Path) (ps : PathState) : (s.withPath p ps).turns = s.turns := by cases p <;> rfl
@[simp] theorem withPath_draws (s : State) (p : Path) (ps : PathState) : (s.withPath p ps).draws = s.draws := by cases p <;> rfl

/-! ### `withFlight` -/

@[simp] theorem withFlight_reg (s : State) (p : Path) (f : Option Flight) : (s.withFlight p f).reg = s.reg := by cases p <;> rfl
@[simp] theorem withFlight_lock (s : State) (p : Path) (f : Option Flight) : (s.withFlight p f).lock = s.lock := by cases p <;> rfl
@[simp] theorem withFlight_isr (s : State) (p : Path) (f : Option Flight) : (s.withFlight p f).isr = s.isr := by cases p <;> rfl
@[simp] theorem withFlight_active (s : State) (p : Path) (f : Option Flight) : (s.withFlight p f).active = s.active := by cases p <;> rfl
@[simp] theorem withFlight_irqOther (s : State) (p : Path) (f : Option Flight) : (s.withFlight p f).irqOther = s.irqOther := by cases p <;> rfl
@[simp] theorem withFlight_trace (s : State) (p : Path) (f : Option Flight) : (s.withFlight p f).trace = s.trace := by cases p <;> rfl
@[simp] theorem withFlight_outbox (s : State) (p : Path) (f : Option Flight) : (s.withFlight p f).outbox = s.outbox := by cases p <;> rfl
@[simp] theorem withFlight_answers (s : State) (p : Path) (f : Option Flight) : (s.withFlight p f).answers = s.answers := by cases p <;> rfl
@[simp] theorem withFlight_moves (s : State) (p : Path) (f : Option Flight) : (s.withFlight p f).moves = s.moves := by cases p <;> rfl
@[simp] theorem withFlight_turns (s : State) (p : Path) (f : Option Flight) : (s.withFlight p f).turns = s.turns := by cases p <;> rfl
@[simp] theorem withFlight_draws (s : State) (p : Path) (f : Option Flight) : (s.withFlight p f).draws = s.draws := by cases p <;> rfl

/-! ### `withInbox` -/

@[simp] theorem withInbox_reg (s : State) (p : Path) (frames : List Frame) : (s.withInbox p frames).reg = s.reg := by cases p <;> rfl
@[simp] theorem withInbox_lock (s : State) (p : Path) (frames : List Frame) : (s.withInbox p frames).lock = s.lock := by cases p <;> rfl
@[simp] theorem withInbox_isr (s : State) (p : Path) (frames : List Frame) : (s.withInbox p frames).isr = s.isr := by cases p <;> rfl
@[simp] theorem withInbox_active (s : State) (p : Path) (frames : List Frame) : (s.withInbox p frames).active = s.active := by cases p <;> rfl
@[simp] theorem withInbox_irqOther (s : State) (p : Path) (frames : List Frame) : (s.withInbox p frames).irqOther = s.irqOther := by cases p <;> rfl
@[simp] theorem withInbox_trace (s : State) (p : Path) (frames : List Frame) : (s.withInbox p frames).trace = s.trace := by cases p <;> rfl
@[simp] theorem withInbox_outbox (s : State) (p : Path) (frames : List Frame) : (s.withInbox p frames).outbox = s.outbox := by cases p <;> rfl
@[simp] theorem withInbox_answers (s : State) (p : Path) (frames : List Frame) : (s.withInbox p frames).answers = s.answers := by cases p <;> rfl
@[simp] theorem withInbox_moves (s : State) (p : Path) (frames : List Frame) : (s.withInbox p frames).moves = s.moves := by cases p <;> rfl
@[simp] theorem withInbox_turns (s : State) (p : Path) (frames : List Frame) : (s.withInbox p frames).turns = s.turns := by cases p <;> rfl
@[simp] theorem withInbox_draws (s : State) (p : Path) (frames : List Frame) : (s.withInbox p frames).draws = s.draws := by cases p <;> rfl

/-! ### `deliver` -/

@[simp] theorem deliver_reg (s : State) (p : Path) (frame : Frame) : (deliver p frame s).reg = s.reg := by cases p <;> rfl
@[simp] theorem deliver_lock (s : State) (p : Path) (frame : Frame) : (deliver p frame s).lock = s.lock := by cases p <;> rfl
@[simp] theorem deliver_isr (s : State) (p : Path) (frame : Frame) : (deliver p frame s).isr = s.isr := by cases p <;> rfl
@[simp] theorem deliver_active (s : State) (p : Path) (frame : Frame) : (deliver p frame s).active = s.active := by cases p <;> rfl
@[simp] theorem deliver_irqOther (s : State) (p : Path) (frame : Frame) : (deliver p frame s).irqOther = s.irqOther := by cases p <;> rfl
@[simp] theorem deliver_trace (s : State) (p : Path) (frame : Frame) : (deliver p frame s).trace = s.trace := by cases p <;> rfl
@[simp] theorem deliver_outbox (s : State) (p : Path) (frame : Frame) : (deliver p frame s).outbox = s.outbox := by cases p <;> rfl
@[simp] theorem deliver_answers (s : State) (p : Path) (frame : Frame) : (deliver p frame s).answers = s.answers := by cases p <;> rfl
@[simp] theorem deliver_moves (s : State) (p : Path) (frame : Frame) : (deliver p frame s).moves = s.moves := by cases p <;> rfl
@[simp] theorem deliver_turns (s : State) (p : Path) (frame : Frame) : (deliver p frame s).turns = s.turns := by cases p <;> rfl
@[simp] theorem deliver_draws (s : State) (p : Path) (frame : Frame) : (deliver p frame s).draws = s.draws := by cases p <;> rfl

/-! ### `respond` -/

@[simp] theorem respond_reg (s : State) (p : Path) (frame : Frame) : (respond p frame s).reg = s.reg := rfl
@[simp] theorem respond_lock (s : State) (p : Path) (frame : Frame) : (respond p frame s).lock = s.lock := rfl
@[simp] theorem respond_isr (s : State) (p : Path) (frame : Frame) : (respond p frame s).isr = s.isr := rfl
@[simp] theorem respond_host (s : State) (p : Path) (frame : Frame) : (respond p frame s).host = s.host := rfl
@[simp] theorem respond_irq (s : State) (p : Path) (frame : Frame) : (respond p frame s).irq = s.irq := rfl
@[simp] theorem respond_active (s : State) (p : Path) (frame : Frame) : (respond p frame s).active = s.active := rfl
@[simp] theorem respond_irqOther (s : State) (p : Path) (frame : Frame) : (respond p frame s).irqOther = s.irqOther := rfl
@[simp] theorem respond_trace (s : State) (p : Path) (frame : Frame) : (respond p frame s).trace = s.trace := rfl
@[simp] theorem respond_outbox (s : State) (p : Path) (frame : Frame) : (respond p frame s).outbox = s.outbox ++ [.response p frame] := rfl
@[simp] theorem respond_answers (s : State) (p : Path) (frame : Frame) : (respond p frame s).answers = s.answers := rfl
@[simp] theorem respond_moves (s : State) (p : Path) (frame : Frame) : (respond p frame s).moves = s.moves := rfl
@[simp] theorem respond_turns (s : State) (p : Path) (frame : Frame) : (respond p frame s).turns = s.turns := rfl
@[simp] theorem respond_draws (s : State) (p : Path) (frame : Frame) : (respond p frame s).draws = s.draws := rfl

/-! ### `answerIllegal` -/

@[simp] theorem answerIllegal_reg (s : State) (p : Path) : (answerIllegal p s).reg = s.reg := rfl
@[simp] theorem answerIllegal_lock (s : State) (p : Path) : (answerIllegal p s).lock = s.lock := rfl
@[simp] theorem answerIllegal_isr (s : State) (p : Path) : (answerIllegal p s).isr = s.isr := rfl
@[simp] theorem answerIllegal_host (s : State) (p : Path) : (answerIllegal p s).host = s.host := rfl
@[simp] theorem answerIllegal_irq (s : State) (p : Path) : (answerIllegal p s).irq = s.irq := rfl
@[simp] theorem answerIllegal_active (s : State) (p : Path) : (answerIllegal p s).active = s.active := rfl
@[simp] theorem answerIllegal_irqOther (s : State) (p : Path) : (answerIllegal p s).irqOther = s.irqOther := rfl
@[simp] theorem answerIllegal_trace (s : State) (p : Path) : (answerIllegal p s).trace = s.trace := rfl
@[simp] theorem answerIllegal_outbox (s : State) (p : Path) : (answerIllegal p s).outbox = s.outbox ++ [.response p [0x7F]] := rfl
@[simp] theorem answerIllegal_answers (s : State) (p : Path) : (answerIllegal p s).answers = s.answers := rfl
@[simp] theorem answerIllegal_moves (s : State) (p : Path) : (answerIllegal p s).moves = s.moves := rfl
@[simp] theorem answerIllegal_turns (s : State) (p : Path) : (answerIllegal p s).turns = s.turns := rfl
@[simp] theorem answerIllegal_draws (s : State) (p : Path) : (answerIllegal p s).draws = s.draws := rfl

/-! ### `emitAlarm` -/

@[simp] theorem emitAlarm_reg (s : State) : (emitAlarm s).reg = s.reg := rfl
@[simp] theorem emitAlarm_lock (s : State) : (emitAlarm s).lock = s.lock := rfl
@[simp] theorem emitAlarm_isr (s : State) : (emitAlarm s).isr = s.isr := rfl
@[simp] theorem emitAlarm_host (s : State) : (emitAlarm s).host = s.host := rfl
@[simp] theorem emitAlarm_irq (s : State) : (emitAlarm s).irq = s.irq := rfl
@[simp] theorem emitAlarm_active (s : State) : (emitAlarm s).active = s.active := rfl
@[simp] theorem emitAlarm_irqOther (s : State) : (emitAlarm s).irqOther = s.irqOther := rfl
@[simp] theorem emitAlarm_trace (s : State) : (emitAlarm s).trace = s.trace := rfl
@[simp] theorem emitAlarm_outbox (s : State) : (emitAlarm s).outbox = s.outbox ++ [.alarmEvent] := rfl
@[simp] theorem emitAlarm_answers (s : State) : (emitAlarm s).answers = s.answers := rfl
@[simp] theorem emitAlarm_moves (s : State) : (emitAlarm s).moves = s.moves := rfl
@[simp] theorem emitAlarm_turns (s : State) : (emitAlarm s).turns = s.turns := rfl
@[simp] theorem emitAlarm_draws (s : State) : (emitAlarm s).draws = s.draws := rfl

/-! ### `takeUp` -/

@[simp] theorem takeUp_reg (s : State) (p : Path) (i : Instr) : (takeUp p i s).reg = s.reg := by cases p <;> (simp only [takeUp]; split <;> rfl)
@[simp] theorem takeUp_lock (s : State) (p : Path) (i : Instr) : (takeUp p i s).lock = s.lock := by cases p <;> (simp only [takeUp]; split <;> rfl)
@[simp] theorem takeUp_isr (s : State) (p : Path) (i : Instr) : (takeUp p i s).isr = if i = .irqSvc then .servicing else s.isr := by cases p <;> (simp only [takeUp]; split <;> rfl)
@[simp] theorem takeUp_active (s : State) (p : Path) (i : Instr) : (takeUp p i s).active = s.active := by cases p <;> (simp only [takeUp]; split <;> rfl)
@[simp] theorem takeUp_irqOther (s : State) (p : Path) (i : Instr) : (takeUp p i s).irqOther = s.irqOther := by cases p <;> (simp only [takeUp]; split <;> rfl)
@[simp] theorem takeUp_trace (s : State) (p : Path) (i : Instr) : (takeUp p i s).trace = s.trace := by cases p <;> (simp only [takeUp]; split <;> rfl)
@[simp] theorem takeUp_outbox (s : State) (p : Path) (i : Instr) : (takeUp p i s).outbox = s.outbox := by cases p <;> (simp only [takeUp]; split <;> rfl)
@[simp] theorem takeUp_answers (s : State) (p : Path) (i : Instr) : (takeUp p i s).answers = s.answers := by cases p <;> (simp only [takeUp]; split <;> rfl)
@[simp] theorem takeUp_moves (s : State) (p : Path) (i : Instr) : (takeUp p i s).moves = s.moves := by cases p <;> (simp only [takeUp]; split <;> rfl)
@[simp] theorem takeUp_turns (s : State) (p : Path) (i : Instr) : (takeUp p i s).turns = s.turns := by cases p <;> (simp only [takeUp]; split <;> rfl)
@[simp] theorem takeUp_draws (s : State) (p : Path) (i : Instr) : (takeUp p i s).draws = s.draws := by cases p <;> (simp only [takeUp]; split <;> rfl)

/-! ### `blockReset` -/

@[simp] theorem blockReset_reg (s : State) : (blockReset s).reg = s.reg := rfl
@[simp] theorem blockReset_lock (s : State) : (blockReset s).lock = none := rfl
@[simp] theorem blockReset_isr (s : State) : (blockReset s).isr = .idle := rfl
@[simp] theorem blockReset_host (s : State) : (blockReset s).host = { s.host with flight := none } := rfl
@[simp] theorem blockReset_irq (s : State) : (blockReset s).irq = { s.irq with flight := none } := rfl
@[simp] theorem blockReset_active (s : State) : (blockReset s).active = s.active := rfl
@[simp] theorem blockReset_irqOther (s : State) : (blockReset s).irqOther = s.irqOther := rfl
@[simp] theorem blockReset_trace (s : State) : (blockReset s).trace = [] := rfl
@[simp] theorem blockReset_outbox (s : State) : (blockReset s).outbox = [] := rfl
@[simp] theorem blockReset_answers (s : State) : (blockReset s).answers = s.answers := rfl
@[simp] theorem blockReset_moves (s : State) : (blockReset s).moves = s.moves := rfl
@[simp] theorem blockReset_turns (s : State) : (blockReset s).turns = s.turns := rfl
@[simp] theorem blockReset_draws (s : State) : (blockReset s).draws = s.draws := rfl

/-! ### `chipStepWith` -/

@[simp] theorem chipStepWith_reg (s : State) (tick : TimeBlock → TimeBlock) : (chipStepWith tick s).reg = comparedReg (tickedReg tick s.reg) := rfl
@[simp] theorem chipStepWith_lock (s : State) (tick : TimeBlock → TimeBlock) : (chipStepWith tick s).lock = s.lock := rfl
@[simp] theorem chipStepWith_isr (s : State) (tick : TimeBlock → TimeBlock) : (chipStepWith tick s).isr = s.isr := rfl
@[simp] theorem chipStepWith_host (s : State) (tick : TimeBlock → TimeBlock) : (chipStepWith tick s).host = s.host := rfl
@[simp] theorem chipStepWith_irq (s : State) (tick : TimeBlock → TimeBlock) : (chipStepWith tick s).irq = s.irq := rfl
@[simp] theorem chipStepWith_active (s : State) (tick : TimeBlock → TimeBlock) : (chipStepWith tick s).active = s.active := rfl
@[simp] theorem chipStepWith_irqOther (s : State) (tick : TimeBlock → TimeBlock) : (chipStepWith tick s).irqOther = s.irqOther := rfl
@[simp] theorem chipStepWith_trace (s : State) (tick : TimeBlock → TimeBlock) : (chipStepWith tick s).trace = s.trace := rfl
@[simp] theorem chipStepWith_outbox (s : State) (tick : TimeBlock → TimeBlock) : (chipStepWith tick s).outbox = s.outbox := rfl
@[simp] theorem chipStepWith_answers (s : State) (tick : TimeBlock → TimeBlock) : (chipStepWith tick s).answers = s.answers := rfl
@[simp] theorem chipStepWith_moves (s : State) (tick : TimeBlock → TimeBlock) : (chipStepWith tick s).moves = s.moves := rfl
@[simp] theorem chipStepWith_turns (s : State) (tick : TimeBlock → TimeBlock) : (chipStepWith tick s).turns = s.turns := rfl
@[simp] theorem chipStepWith_draws (s : State) (tick : TimeBlock → TimeBlock) : (chipStepWith tick s).draws = s.draws := rfl

/-! ### `chipStep` -/

@[simp] theorem chipStep_reg (s : State) : (chipStep s).reg = comparedReg (tickedReg Config.tickFn s.reg) := rfl
@[simp] theorem chipStep_lock (s : State) : (chipStep s).lock = s.lock := rfl
@[simp] theorem chipStep_isr (s : State) : (chipStep s).isr = s.isr := rfl
@[simp] theorem chipStep_host (s : State) : (chipStep s).host = s.host := rfl
@[simp] theorem chipStep_irq (s : State) : (chipStep s).irq = s.irq := rfl
@[simp] theorem chipStep_active (s : State) : (chipStep s).active = s.active := rfl
@[simp] theorem chipStep_irqOther (s : State) : (chipStep s).irqOther = s.irqOther := rfl
@[simp] theorem chipStep_trace (s : State) : (chipStep s).trace = s.trace := rfl
@[simp] theorem chipStep_outbox (s : State) : (chipStep s).outbox = s.outbox := rfl
@[simp] theorem chipStep_answers (s : State) : (chipStep s).answers = s.answers := rfl
@[simp] theorem chipStep_moves (s : State) : (chipStep s).moves = s.moves := rfl
@[simp] theorem chipStep_turns (s : State) : (chipStep s).turns = s.turns := rfl
@[simp] theorem chipStep_draws (s : State) : (chipStep s).draws = s.draws := rfl

/-! ### `acquire` -/

@[simp] theorem acquire_reg (s : State) : (acquire s).reg = s.reg := rfl
@[simp] theorem acquire_lock (s : State) : (acquire s).lock = some s.active := rfl
@[simp] theorem acquire_isr (s : State) : (acquire s).isr = s.isr := rfl
@[simp] theorem acquire_host (s : State) : (acquire s).host = s.host := rfl
@[simp] theorem acquire_irq (s : State) : (acquire s).irq = s.irq := rfl
@[simp] theorem acquire_active (s : State) : (acquire s).active = s.active := rfl
@[simp] theorem acquire_irqOther (s : State) : (acquire s).irqOther = s.irqOther := rfl
@[simp] theorem acquire_trace (s : State) : (acquire s).trace = s.trace := rfl
@[simp] theorem acquire_outbox (s : State) : (acquire s).outbox = s.outbox := rfl
@[simp] theorem acquire_answers (s : State) : (acquire s).answers = s.answers := rfl
@[simp] theorem acquire_moves (s : State) : (acquire s).moves = s.moves := rfl
@[simp] theorem acquire_turns (s : State) : (acquire s).turns = s.turns := rfl
@[simp] theorem acquire_draws (s : State) : (acquire s).draws = s.draws := rfl

/-! ### `release` -/

@[simp] theorem release_reg (s : State) : (release s).reg = s.reg := by cases h : s.active <;> simp [release, State.withFlight, State.withPath, h]
@[simp] theorem release_lock (s : State) : (release s).lock = none := by cases h : s.active <;> simp [release, State.withFlight, State.withPath, h]
@[simp] theorem release_isr (s : State) : (release s).isr = s.isr := by cases h : s.active <;> simp [release, State.withFlight, State.withPath, h]
@[simp] theorem release_active (s : State) : (release s).active = s.active := by cases h : s.active <;> simp [release, State.withFlight, State.withPath, h]
@[simp] theorem release_irqOther (s : State) : (release s).irqOther = s.irqOther := by cases h : s.active <;> simp [release, State.withFlight, State.withPath, h]
@[simp] theorem release_trace (s : State) : (release s).trace = s.trace := by cases h : s.active <;> simp [release, State.withFlight, State.withPath, h]
@[simp] theorem release_outbox (s : State) : (release s).outbox = s.outbox := by cases h : s.active <;> simp [release, State.withFlight, State.withPath, h]
@[simp] theorem release_answers (s : State) : (release s).answers = s.answers := by cases h : s.active <;> simp [release, State.withFlight, State.withPath, h]
@[simp] theorem release_moves (s : State) : (release s).moves = s.moves := by cases h : s.active <;> simp [release, State.withFlight, State.withPath, h]
@[simp] theorem release_turns (s : State) : (release s).turns = s.turns := by cases h : s.active <;> simp [release, State.withFlight, State.withPath, h]
@[simp] theorem release_draws (s : State) : (release s).draws = s.draws := by cases h : s.active <;> simp [release, State.withFlight, State.withPath, h]

/-! ### `popMoves` -/

@[simp] theorem popMoves_reg (s : State) : (popMoves s).reg = s.reg := by simp only [popMoves]; split <;> rfl
@[simp] theorem popMoves_lock (s : State) : (popMoves s).lock = s.lock := by simp only [popMoves]; split <;> rfl
@[simp] theorem popMoves_isr (s : State) : (popMoves s).isr = s.isr := by simp only [popMoves]; split <;> rfl
@[simp] theorem popMoves_host (s : State) : (popMoves s).host = s.host := by simp only [popMoves]; split <;> rfl
@[simp] theorem popMoves_irq (s : State) : (popMoves s).irq = s.irq := by simp only [popMoves]; split <;> rfl
@[simp] theorem popMoves_active (s : State) : (popMoves s).active = s.active := by simp only [popMoves]; split <;> rfl
@[simp] theorem popMoves_irqOther (s : State) : (popMoves s).irqOther = s.irqOther := by simp only [popMoves]; split <;> rfl
@[simp] theorem popMoves_trace (s : State) : (popMoves s).trace = s.trace := by simp only [popMoves]; split <;> rfl
@[simp] theorem popMoves_outbox (s : State) : (popMoves s).outbox = s.outbox := by simp only [popMoves]; split <;> rfl
@[simp] theorem popMoves_answers (s : State) : (popMoves s).answers = s.answers := by simp only [popMoves]; split <;> rfl
@[simp] theorem popMoves_turns (s : State) : (popMoves s).turns = s.turns := by simp only [popMoves]; split <;> rfl

/-! ### `popAnswer` -/

@[simp] theorem popAnswer_reg (s : State) : (popAnswer s).reg = s.reg := by simp only [popAnswer]; split <;> rfl
@[simp] theorem popAnswer_lock (s : State) : (popAnswer s).lock = s.lock := by simp only [popAnswer]; split <;> rfl
@[simp] theorem popAnswer_isr (s : State) : (popAnswer s).isr = s.isr := by simp only [popAnswer]; split <;> rfl
@[simp] theorem popAnswer_host (s : State) : (popAnswer s).host = s.host := by simp only [popAnswer]; split <;> rfl
@[simp] theorem popAnswer_irq (s : State) : (popAnswer s).irq = s.irq := by simp only [popAnswer]; split <;> rfl
@[simp] theorem popAnswer_active (s : State) : (popAnswer s).active = s.active := by simp only [popAnswer]; split <;> rfl
@[simp] theorem popAnswer_irqOther (s : State) : (popAnswer s).irqOther = s.irqOther := by simp only [popAnswer]; split <;> rfl
@[simp] theorem popAnswer_trace (s : State) : (popAnswer s).trace = s.trace := by simp only [popAnswer]; split <;> rfl
@[simp] theorem popAnswer_outbox (s : State) : (popAnswer s).outbox = s.outbox := by simp only [popAnswer]; split <;> rfl
@[simp] theorem popAnswer_moves (s : State) : (popAnswer s).moves = s.moves := by simp only [popAnswer]; split <;> rfl
@[simp] theorem popAnswer_turns (s : State) : (popAnswer s).turns = s.turns := by simp only [popAnswer]; split <;> rfl

/-! ### `popTurn` -/

@[simp] theorem popTurn_reg (s : State) : (popTurn s).reg = s.reg := by simp only [popTurn]; split <;> rfl
@[simp] theorem popTurn_lock (s : State) : (popTurn s).lock = s.lock := by simp only [popTurn]; split <;> rfl
@[simp] theorem popTurn_isr (s : State) : (popTurn s).isr = s.isr := by simp only [popTurn]; split <;> rfl
@[simp] theorem popTurn_host (s : State) : (popTurn s).host = s.host := by simp only [popTurn]; split <;> rfl
@[simp] theorem popTurn_irq (s : State) : (popTurn s).irq = s.irq := by simp only [popTurn]; split <;> rfl
@[simp] theorem popTurn_active (s : State) : (popTurn s).active = s.active := by simp only [popTurn]; split <;> rfl
@[simp] theorem popTurn_irqOther (s : State) : (popTurn s).irqOther = s.irqOther := by simp only [popTurn]; split <;> rfl
@[simp] theorem popTurn_trace (s : State) : (popTurn s).trace = s.trace := by simp only [popTurn]; split <;> rfl
@[simp] theorem popTurn_outbox (s : State) : (popTurn s).outbox = s.outbox := by simp only [popTurn]; split <;> rfl
@[simp] theorem popTurn_answers (s : State) : (popTurn s).answers = s.answers := by simp only [popTurn]; split <;> rfl
@[simp] theorem popTurn_moves (s : State) : (popTurn s).moves = s.moves := by simp only [popTurn]; split <;> rfl

/-! ### `applyXact` -/

@[simp] theorem applyXact_reg (s : State) (x : Xact) (a : PortAnswer) (f : Flight) : (applyXact x a f s).reg = xactReg x a s.reg := by simp [applyXact]
@[simp] theorem applyXact_lock (s : State) (x : Xact) (a : PortAnswer) (f : Flight) : (applyXact x a f s).lock = s.lock := by simp [applyXact]
@[simp] theorem applyXact_isr (s : State) (x : Xact) (a : PortAnswer) (f : Flight) : (applyXact x a f s).isr = s.isr := by simp [applyXact]
@[simp] theorem applyXact_active (s : State) (x : Xact) (a : PortAnswer) (f : Flight) : (applyXact x a f s).active = s.active := by simp [applyXact]
@[simp] theorem applyXact_irqOther (s : State) (x : Xact) (a : PortAnswer) (f : Flight) : (applyXact x a f s).irqOther = s.irqOther := by simp [applyXact]
@[simp] theorem applyXact_trace (s : State) (x : Xact) (a : PortAnswer) (f : Flight) : (applyXact x a f s).trace = s.trace ++ [{ xact := x, data := xactData x a s.reg, failed := !portOk a }] := by simp [applyXact]
@[simp] theorem applyXact_outbox (s : State) (x : Xact) (a : PortAnswer) (f : Flight) : (applyXact x a f s).outbox = s.outbox := by simp [applyXact]
@[simp] theorem applyXact_answers (s : State) (x : Xact) (a : PortAnswer) (f : Flight) : (applyXact x a f s).answers = s.answers := by simp [applyXact]
@[simp] theorem applyXact_moves (s : State) (x : Xact) (a : PortAnswer) (f : Flight) : (applyXact x a f s).moves = s.moves := by simp [applyXact]
@[simp] theorem applyXact_turns (s : State) (x : Xact) (a : PortAnswer) (f : Flight) : (applyXact x a f s).turns = s.turns := by simp [applyXact]
@[simp] theorem applyXact_draws (s : State) (x : Xact) (a : PortAnswer) (f : Flight) : (applyXact x a f s).draws = s.draws := by simp [applyXact]

/-! ### Paths -/

@[simp] theorem flightOf_withFlight_self (s : State) (p : Path) (f : Option Flight) :
    (s.withFlight p f).flightOf p = f := by cases p <;> rfl

theorem flightOf_withFlight_ne (s : State) {p q : Path} (f : Option Flight) (h : q ≠ p) :
    (s.withFlight p f).flightOf q = s.flightOf q := by
  cases p <;> cases q <;> first | rfl | exact absurd rfl h

@[simp] theorem inboxOf_withFlight (s : State) (p q : Path) (f : Option Flight) :
    (s.withFlight p f).inboxOf q = s.inboxOf q := by cases p <;> cases q <;> rfl

@[simp] theorem inboxOf_withInbox_self (s : State) (p : Path) (frames : List Frame) :
    (s.withInbox p frames).inboxOf p = frames := by cases p <;> rfl

theorem inboxOf_withInbox_ne (s : State) {p q : Path} (frames : List Frame) (h : q ≠ p) :
    (s.withInbox p frames).inboxOf q = s.inboxOf q := by
  cases p <;> cases q <;> first | rfl | exact absurd rfl h

@[simp] theorem flightOf_withInbox (s : State) (p q : Path) (frames : List Frame) :
    (s.withInbox p frames).flightOf q = s.flightOf q := by cases p <;> cases q <;> rfl

@[simp] theorem flightOf_respond (s : State) (p q : Path) (frame : Frame) :
    (respond p frame s).flightOf q = s.flightOf q := by cases q <;> rfl

@[simp] theorem flightOf_emitAlarm (s : State) (q : Path) : (emitAlarm s).flightOf q = s.flightOf q := by
  cases q <;> rfl

@[simp] theorem flightOf_deliver (s : State) (p q : Path) (frame : Frame) :
    (deliver p frame s).flightOf q = s.flightOf q := by cases p <;> cases q <;> rfl

@[simp] theorem flightOf_acquire (s : State) (q : Path) : (acquire s).flightOf q = s.flightOf q := by
  cases q <;> rfl

@[simp] theorem flightOf_chipStep (s : State) (q : Path) : (chipStep s).flightOf q = s.flightOf q := by
  cases q <;> rfl

@[simp] theorem flightOf_blockReset (s : State) (q : Path) : (blockReset s).flightOf q = none := by
  cases q <;> rfl

@[simp] theorem flightOf_popMoves (s : State) (q : Path) : (popMoves s).flightOf q = s.flightOf q := by
  cases q <;> simp [State.flightOf, State.pathState]

@[simp] theorem flightOf_popAnswer (s : State) (q : Path) : (popAnswer s).flightOf q = s.flightOf q := by
  cases q <;> simp [State.flightOf, State.pathState]

theorem flightOf_takeUp_self (s : State) (p : Path) (i : Instr) :
    (takeUp p i s).flightOf p = some { instr := i, index := 0, bytes := [] } := by
  simp only [takeUp]; split <;> cases p <;> rfl

theorem flightOf_takeUp_ne (s : State) {p q : Path} (i : Instr) (h : q ≠ p) :
    (takeUp p i s).flightOf q = s.flightOf q := by
  simp only [takeUp]; split <;> cases p <;> cases q <;> first | rfl | exact absurd rfl h

@[simp] theorem flightOf_release_active (s : State) : (release s).flightOf s.active = none := by
  cases h : s.active <;> simp [release, State.withFlight, State.withPath, State.flightOf, State.pathState, h]

theorem flightOf_release_ne (s : State) {q : Path} (h : q ≠ s.active) : (release s).flightOf q = s.flightOf q := by
  cases q <;> cases h' : s.active <;>
    simp_all [release, State.withFlight, State.withPath, State.flightOf, State.pathState]

theorem flightOf_applyXact_active (s : State) (x : Xact) (a : PortAnswer) (f : Flight) :
    (applyXact x a f s).flightOf s.active =
      some { f with index := f.index + 1, bytes := f.bytes ++ xactData x a s.reg } := by
  cases h : s.active <;> simp [applyXact, State.withFlight, State.withPath, State.flightOf, State.pathState, h]

theorem flightOf_applyXact_self (s : State) (x : Xact) (a : PortAnswer) (f : Flight) :
    (applyXact x a f s).flightOf (applyXact x a f s).active =
      some { f with index := f.index + 1, bytes := f.bytes ++ xactData x a s.reg } := by
  rw [applyXact_active, flightOf_applyXact_active]

theorem flightOf_applyXact_ne (s : State) (x : Xact) (a : PortAnswer) (f : Flight) {q : Path} (h : q ≠ s.active) :
    (applyXact x a f s).flightOf q = s.flightOf q := by
  cases q <;> cases h' : s.active <;>
    simp_all [applyXact, State.withFlight, State.withPath, State.flightOf, State.pathState]

end Sys2Proof.Machine
end

