-- ==== Sys2Proof/Laws/Ops.lean ====
section
/-! SUPPORT. Once for each shared operation, everything it can do: the induction principles of the other agents' moves
and of a script of transactions, and what a script does when it runs undisturbed. -/

namespace Sys2Proof.Machine

/-! ### The other agents' moves -/

/-- What holds before a point and survives every single move holds after the point. -/
theorem performMoves_induct {P : State → Prop} (hmove : ∀ m s, P s → P (performMove m s)) (ms : List Move) {s : State}
    (h : P s) : P (performMoves ms s) := by
  induction ms generalizing s with
  | nil => exact h
  | cons m ms ih =>
    simp only [performMoves]
    split
    · exact hmove .reset s h
    · exact ih (hmove m s h)

/-- What survives the drawing of moves and every single move survives a point. -/
theorem interfere_induct {P : State → Prop} (hmove : ∀ m s, P s → P (performMove m s))
    (hpop : ∀ s, P s → P (popMoves s)) {s : State} (h : P s) : P (interfere s) :=
  performMoves_induct hmove _ (hpop s h)

/-- What survives points and transactions survives a script, whatever way it ends. -/
theorem issue_induct {P : State → Prop} (hint : ∀ s, P s → P (interfere s))
    (hxact : ∀ x a f s, s.flightOf s.active = some f → P s → P (applyXact x a f (popAnswer s))) (x : Xact)
    {s : State} (h : P s) : P (issue x s).2 := by
  simp only [issue]
  split
  · exact hint s h
  · exact hxact x _ _ _ ‹_› (hint s h)

/-- The same for a list of transactions, where only the transactions of the list are asked about. -/
theorem issueAll_induct {P : State → Prop} (hint : ∀ s, P s → P (interfere s)) (xs : List Xact)
    (hxact : ∀ x ∈ xs, ∀ a f s, s.flightOf s.active = some f → P s → P (applyXact x a f (popAnswer s)))
    {s : State} (h : P s) : P (issueAll xs s).2 := by
  induction xs generalizing s with
  | nil => exact h
  | cons x xs ih =>
    have hx : P (issue x s).2 := by
      simp only [issue]
      split
      · exact hint s h
      · exact hxact x (by simp) _ _ _ ‹_› (hint s h)
    simp only [issueAll]
    split
    · exact ih (fun y hy => hxact y (by simp [hy])) hx
    · exact hx
    · exact hx

/-- The end of a command: what survives a point, a release and a response survives it. -/
theorem conclude_induct {P : State → Prop} (hint : ∀ s, P s → P (interfere s))
    (hend : ∀ s frame, (∃ f, s.flightOf s.active = some f) → P s → P (respond s.active frame (release s)))
    (reply : List Byte → Frame) {r : Ended × State} (h : P r.2) : P (conclude reply r) := by
  have hi := hint r.2 h
  simp only [conclude]
  split
  · exact h
  · split
    · exact hi
    · exact hend _ _ ⟨_, ‹_›⟩ hi
  · split
    · exact hi
    · exact hend _ _ ⟨_, ‹_›⟩ hi

/-- What `locked` can do: fault before anything is issued, wait, or run the body with LOCK held. -/
theorem locked_cases (i : Instr) (script : List Xact) (body : State → State) (s : State) :
    (script.all xactInside = false ∧ locked i script body s = .fault .portRange) ∨
    (script.all xactInside = true ∧ s.lock = none ∧
      locked i script body s = .next (body (acquire (takeUp s.active i s)))) ∨
    (script.all xactInside = true ∧ s.lock ≠ none ∧ locked i script body s = .next (takeUp s.active i s)) := by
  simp only [locked]
  split
  · rename_i h
    cases hl : s.lock with
    | none => exact .inr (.inl ⟨h, by simp, by simp⟩)
    | some q => exact .inr (.inr ⟨h, by simp, by simp⟩)
  · exact .inl ⟨Bool.eq_false_iff.2 ‹¬ _›, rfl⟩

/-- What `fetch` can find. -/
theorem fetch_cases (p : Path) (s : State) :
    (∃ f, s.flightOf p = some f ∧ fetch p s = .command f.instr s) ∨
    (s.flightOf p = none ∧ s.inboxOf p = [] ∧ fetch p s = .idle) ∨
    (∃ frame rest i, s.flightOf p = none ∧ s.inboxOf p = frame :: rest ∧ decode frame = .ok i ∧
      fetch p s = .command i (s.withInbox p rest)) ∨
    (∃ frame rest e, s.flightOf p = none ∧ s.inboxOf p = frame :: rest ∧ decode frame = .error e ∧
      fetch p s = .illegal (s.withInbox p rest)) := by
  simp only [fetch]
  cases hf : s.flightOf p with
  | some f => exact .inl ⟨f, rfl, rfl⟩
  | none =>
    cases hb : s.inboxOf p with
    | nil => exact .inr (.inl ⟨rfl, rfl, rfl⟩)
    | cons frame rest =>
      cases hd : decode frame with
      | ok i => exact .inr (.inr (.inl ⟨frame, rest, i, rfl, rfl, hd, by simp [hd]⟩))
      | error e => exact .inr (.inr (.inr ⟨frame, rest, e, rfl, rfl, hd, by simp [hd]⟩))

/-- What another path's move can do while a command runs: nothing, a response on that path with one frame less in its
inbox, or a command taken up that waits. -/
theorem otherRuns_cases (p : Path) (s : State) :
    otherRuns p s = s ∨
    (p ≠ s.active ∧ ∃ rest frame, s.flightOf p = none ∧ otherRuns p s = respond p frame (s.withInbox p rest)) ∨
    (p ≠ s.active ∧ ∃ i, answerBeforeLock i = none ∧
      ((∃ f, s.flightOf p = some f ∧ f.instr = i ∧ otherRuns p s = takeUp p i s) ∨
       ∃ rest, s.flightOf p = none ∧ otherRuns p s = takeUp p i (s.withInbox p rest))) ∨
    (p ≠ s.active ∧ ∃ f frame, s.flightOf p = some f ∧ answerBeforeLock f.instr = some frame ∧
      otherRuns p s = respond p frame s) := by
  by_cases hp : p = s.active
  · exact .inl (by simp [otherRuns, hp])
  · rcases fetch_cases p s with ⟨f, hf, h⟩ | ⟨_, _, h⟩ | ⟨frame, rest, i, hf, _, _, h⟩ | ⟨frame, rest, e, hf, _, _, h⟩
    · cases ha : answerBeforeLock f.instr with
      | none => exact .inr (.inr (.inl ⟨hp, f.instr, ha, .inl ⟨f, hf, rfl, by simp [otherRuns, hp, h, ha]⟩⟩))
      | some r => exact .inr (.inr (.inr ⟨hp, f, r, hf, ha, by simp [otherRuns, hp, h, ha]⟩))
    · exact .inl (by simp [otherRuns, hp, h])
    · cases ha : answerBeforeLock i with
      | none => exact .inr (.inr (.inl ⟨hp, i, ha, .inr ⟨rest, hf, by simp [otherRuns, hp, h, ha]⟩⟩))
      | some r => exact .inr (.inl ⟨hp, rest, r, hf, by simp [otherRuns, hp, h, ha]⟩)
    · exact .inr (.inl ⟨hp, rest, errorFrame .illegalCommand, hf, by simp [otherRuns, hp, h, answerIllegal]⟩)

/-- IRQ.SVC taken up by the line while a command runs: nothing, or IRQ.SVC in flight on the free interrupt path. -/
theorem otherServes_cases (s : State) :
    otherServes s = s ∨
    (s.active ≠ .irq ∧ s.flightOf .irq = none ∧ s.isr = .idle ∧ s.irqLine = true ∧
      otherServes s = takeUp .irq .irqSvc s) := by
  simp only [otherServes]
  split
  · rename_i h
    simp only [serviceDue, Bool.and_eq_true, decide_eq_true_eq, Option.isNone_iff_eq_none] at h
    exact .inr ⟨h.1, h.2.2, h.2.1.2, h.2.1.1, rfl⟩
  · exact .inl rfl

/-! ### Checks and answers before LOCK -/

theorem checked_error {α : Type} (st : Status) (run : α → State → Host.Outcome State Fault Refusal) (s : State) :
    checked (.error st) run s = .next (answerNow (errorFrame st) s) := rfl

theorem checked_ok {α : Type} (v : α) (run : α → State → Host.Outcome State Fault Refusal) (s : State) :
    checked (.ok v) run s = run v s := rfl

/-- What `withTable` can do: run the command on a table the spec allows, or refuse (R189). -/
theorem withTable_cases (table : List Nat) (run : State → Host.Outcome State Fault Refusal) (s : State) :
    (tableAllowed table = true ∧ withTable table run s = run s) ∨
    (tableAllowed table = false ∧ withTable table run s = .refused .rateTable) := by
  cases h : tableAllowed table <;> simp [withTable, h]

/-- The table of R180 has the required size: no command is refused (R189). -/
@[simp] theorem withTable_rateTable (run : State → Host.Outcome State Fault Refusal) (s : State) :
    withTable Config.rateTable run s = run s := rfl

/-- An answer before LOCK, in the terms of the statements. -/
theorem answerNow_eq (frame : Frame) (s : State) : answerNow frame s = s.answered frame := by
  obtain ⟨⟩ := s
  rename_i active _ _ _ _ _ _ _
  cases active <;> rfl

/-! ### A masked update -/

/-- A masked update that succeeds stores the merged byte and nothing else (R43). -/
theorem update_stores (m : Memory) {a : Nat} (mask val : Byte) (h : a < Config.regSize) :
    Stores a [mergeBits (m.get a) mask val] m (xactReg (.update a mask val) .ok m) :=
  m.writeBytes_stores a [mergeBits (m.get a) mask val] h

/-- A masked update that fails leaves the byte old or merged, as the port says, and nothing else changed (R43). -/
theorem failed_update_stores_part (m : Memory) {a : Nat} (took : List Bool) (mask val : Byte) (h : a < Config.regSize) :
    StoresPart a took [mergeBits (m.get a) mask val] m (xactReg (.update a mask val) (.fail took) m) := by
  refine ⟨fun k hk => ?_, fun b hb => ?_⟩
  · obtain rfl : k = 0 := by simpa using hk
    cases took with
    | nil => simp [xactReg]
    | cons t took => cases t <;> simp [xactReg, Memory.get_set_self _ _ h]
  · have hne : b ≠ a := by simp at hb; omega
    simp only [xactReg]
    split
    · exact Memory.get_set_ne m _ hne
    · rfl

/-! ### A script that runs undisturbed -/

/-- The bytes such a script delivers. -/
def scriptData : List Xact → Memory → List Byte
  | [], _ => []
  | x :: xs, m => xactData x .ok m ++ scriptData xs (xactReg x .ok m)

/-- The entries such a script leaves in TRACE. -/
def scriptEntries : List Xact → Memory → List TraceEntry
  | [], _ => []
  | x :: xs, m => ⟨x, xactData x .ok m, false⟩ :: scriptEntries xs (xactReg x .ok m)

theorem interfere_quiet {s : State} {rest : List (List Move)} (h : s.moves = [] :: rest) :
    interfere s = { s with moves := rest } := by
  simp [interfere, nextMoves, popMoves, h, performMoves]

theorem issue_quiet {s : State} {f : Flight} {a : PortAnswer} {rest : List (List Move)} {as : List PortAnswer}
    (x : Xact) (hf : s.flightOf s.active = some f) (hm : s.moves = [] :: rest) (ha : s.answers = a :: as) :
    issue x s = (if portOk a then .done else .busError, applyXact x a f { s with moves := rest, answers := as }) := by
  have hf' : State.flightOf { s with moves := rest } s.active = some f := hf
  have ha' : nextAnswer { s with moves := rest } = a := by simp only [nextAnswer, ha]
  have hp : popAnswer { s with moves := rest } = { s with moves := rest, answers := as } := by
    simp only [popAnswer, ha]
  simp only [issue, interfere_quiet hm, hf', ha', hp]

theorem withFlight_withFlight (s : State) (p : Path) (f g : Option Flight) :
    (s.withFlight p f).withFlight p g = s.withFlight p g := by cases p <;> rfl

/-- The state after a script whose transactions all succeeded undisturbed, for the command `f` in flight; `rest` and
`as` are the moves and answers still to come. -/
def afterScript (xs : List Xact) (f : Flight) (rest : List (List Move)) (as : List PortAnswer) (s : State) : State :=
  { s.withFlight s.active (some ⟨f.instr, f.index + xs.length, f.bytes ++ scriptData xs s.reg⟩) with
    reg := scriptReg xs s.reg
    moves := rest
    answers := as
    trace := s.trace ++ scriptEntries xs s.reg }

theorem flightOf_afterScript (xs : List Xact) (f : Flight) (rest : List (List Move)) (as : List PortAnswer)
    (s : State) : (afterScript xs f rest as s).flightOf (afterScript xs f rest as s).active =
      some ⟨f.instr, f.index + xs.length, f.bytes ++ scriptData xs s.reg⟩ := by
  obtain ⟨⟩ := s
  rename_i active _ _ _ _ _ _ _
  cases active <;> rfl

/-- All transactions succeed and nobody interferes: the register space, TRACE, the index and the bytes of the command
are the script's (R33, R36, R49, R53). -/
theorem issueAll_undisturbed (xs : List Xact) {s : State} {f : Flight} {rest : List (List Move)}
    {as : List PortAnswer} (hf : s.flightOf s.active = some f) (hm : s.moves = List.replicate xs.length [] ++ rest)
    (ha : s.answers = List.replicate xs.length .ok ++ as) :
    issueAll xs s = (.done, afterScript xs f rest as s) := by
  induction xs generalizing s f with
  | nil =>
    obtain ⟨⟩ := s
    rename_i active _ _ _ _ _ _ _
    cases active <;>
      simp_all [issueAll, afterScript, scriptData, scriptReg, scriptEntries, State.withFlight, State.withPath, State.pathState,
        State.flightOf] <;> rw [← hf]
  | cons x xs ih =>
    have hi := issue_quiet (a := .ok) (rest := List.replicate xs.length [] ++ rest)
      (as := List.replicate xs.length .ok ++ as) x hf (by simpa [List.replicate_succ] using hm)
      (by simpa [List.replicate_succ] using ha)
    simp only [portOk, if_true] at hi
    simp only [issueAll, hi]
    have hf2 := flightOf_applyXact_active
      { s with moves := List.replicate xs.length [] ++ rest, answers := List.replicate xs.length .ok ++ as } x .ok f
    rw [ih (s := applyXact x .ok f _) (by simpa using hf2) (by simp) (by simp)]
    obtain ⟨⟩ := s
    rename_i active _ _ _ _ _ _ _
    cases active <;>
      simp [afterScript, applyXact, scriptData, scriptReg, scriptEntries, State.withFlight, State.withPath, State.pathState,
        portOk] <;> omega

theorem Quiet.moves_eq {n : Nat} {s : State} (h : Quiet n s) : s.moves = List.replicate n [] ++ s.moves.drop n := by
  have := List.take_append_drop n s.moves
  rw [h.2] at this
  exact this.symm

theorem PortSays.answers_eq {as : List PortAnswer} {s : State} (h : PortSays as s) :
    s.answers = as ++ s.answers.drop as.length := by
  have := List.take_append_drop as.length s.answers
  rw [show s.answers.take as.length = as from h] at this
  exact this.symm

/-- The end of a command whose script succeeded, when nobody interferes: LOCK is released and the response leaves. -/
theorem conclude_done_quiet (reply : List Byte → Frame) {s : State} {f : Flight} {rest : List (List Move)}
    (hf : s.flightOf s.active = some f) (hm : s.moves = [] :: rest) :
    conclude reply (.done, s) = respond s.active (reply f.bytes) (release { s with moves := rest }) := by
  have hf' : State.flightOf { s with moves := rest } s.active = some f := hf
  simp only [conclude, interfere_quiet hm, hf', bytesRead]

/-- The end of a command one of whose transactions failed, when nobody interferes: LOCK is released, BusError leaves. -/
theorem conclude_busError_quiet (reply : List Byte → Frame) {s : State} {f : Flight} {rest : List (List Move)}
    (hf : s.flightOf s.active = some f) (hm : s.moves = [] :: rest) :
    conclude reply (.busError, s) = respond s.active [0x01] (release { s with moves := rest }) := by
  have hf' : State.flightOf { s with moves := rest } s.active = some f := hf
  simp only [conclude, interfere_quiet hm, hf', raise]
  rfl

/-- A command whose transactions all succeed and that runs undisturbed (R45, R49, R53, R54). -/
theorem runScript_undisturbed {i : Instr} (hi : i ≠ .irqSvc) {xs : List Xact} (hin : xs.all xactInside = true)
    (reply : List Byte → Frame) {s : State} (hq : Quiet (xs.length + 1) s)
    (ha : PortSays (List.replicate xs.length .ok) s) :
    runScript i xs reply s = .next (s.ran (xs.length + 1) xs.length (scriptReg xs s.reg) (scriptEntries xs s.reg)
      [.response s.active (reply (scriptData xs s.reg))]) := by
  have hl := hq.1
  have hm := hq.moves_eq
  have ha' := ha.answers_eq
  generalize hmr : s.moves.drop (xs.length + 1) = mr at hm
  generalize har : s.answers.drop (List.replicate xs.length PortAnswer.ok).length = ar at ha'
  rw [List.length_replicate] at har
  have hrun := issueAll_undisturbed xs (s := acquire (takeUp s.active i s))
    (f := { instr := i, index := 0, bytes := [] }) (rest := [] :: mr) (as := ar)
    (by simp [flightOf_takeUp_self])
    (by simp [hm, List.replicate_succ', List.append_assoc]) (by simpa using ha')
  simp only [runScript, locked, if_pos hin, hl, hrun]
  rw [conclude_done_quiet reply (flightOf_afterScript _ _ _ _ _) (rest := mr) rfl]
  obtain ⟨⟩ := s
  rename_i active _ _ _ _ _ _ _
  cases active <;>
    simp_all [afterScript, State.ran, respond, release, takeUp, acquire, State.withFlight, State.withPath,
      State.pathState]

/-- A command one of whose transactions fails, the ones before it succeeding, that runs undisturbed: the later ones
are not issued, LOCK is free, the answer is BusError (R45, R211, R216). -/
theorem runScript_busError {i : Instr} (hi : i ≠ .irqSvc) {xs ys : List Xact} {x : Xact} {took : List Bool}
    (hin : (xs ++ x :: ys).all xactInside = true) (reply : List Byte → Frame) {s : State}
    (hq : Quiet (xs.length + 2) s) (ha : PortSays (List.replicate xs.length .ok ++ [.fail took]) s) :
    runScript i (xs ++ x :: ys) reply s = .next (s.ran (xs.length + 2) (xs.length + 1)
      (xactReg x (.fail took) (scriptReg xs s.reg)) (scriptEntries xs s.reg ++ [⟨x, [], true⟩])
      [.response s.active [0x01]]) := by
  have hl := hq.1
  have hm := hq.moves_eq
  have ha' := ha.answers_eq
  generalize hmr : s.moves.drop (xs.length + 2) = mr at hm
  generalize har : s.answers.drop (List.replicate xs.length PortAnswer.ok ++ [PortAnswer.fail took]).length = ar at ha'
  rw [List.length_append, List.length_replicate, List.length_singleton] at har
  have happ : ∀ (zs : List Xact) (u : State), (issueAll zs u).1 = .done →
      issueAll (zs ++ x :: ys) u = issueAll (x :: ys) (issueAll zs u).2 := by
    intro zs
    induction zs with
    | nil => intro u _; rfl
    | cons z zs ih =>
      intro u hu
      simp only [List.cons_append, issueAll] at hu ⊢
      split <;> rename_i hz <;> simp only [hz] at hu
      · exact ih _ hu
      · cases hu
      · cases hu
  have hrun := issueAll_undisturbed xs (s := acquire (takeUp s.active i s))
    (f := { instr := i, index := 0, bytes := [] }) (rest := [] :: [] :: mr) (as := .fail took :: ar)
    (by simp [flightOf_takeUp_self])
    (by simp [hm, List.replicate_succ', List.append_assoc]) (by simpa using ha')
  have hcut := happ xs (acquire (takeUp s.active i s)) (by rw [hrun])
  simp only [hrun] at hcut
  have hx := issue_quiet (rest := [] :: mr) (as := ar) x (flightOf_afterScript xs ⟨i, 0, []⟩ ([] :: [] :: mr)
    (.fail took :: ar) (acquire (takeUp s.active i s))) rfl rfl
  simp only [portOk, Bool.false_eq_true, if_false] at hx
  simp only [issueAll, hx] at hcut
  simp only [runScript, locked, if_pos hin, hl, hcut]
  rw [conclude_busError_quiet reply (flightOf_applyXact_self _ _ _ _) (rest := mr) (applyXact_moves _ _ _ _)]
  obtain ⟨⟩ := s
  rename_i active _ _ _ _ _ _ _
  cases active <;>
    simp_all [afterScript, State.ran, respond, release, takeUp, acquire, State.withFlight, State.withPath,
      State.pathState, applyXact, xactData, portOk]

end Sys2Proof.Machine
end

