-- ==== Sys2Proof/Laws/Exec.lean ====
section
/-! SUPPORT. Once for all commands, everything `exec` can do: the shape of each command's meaning, and the induction
principle of what survives a command whatever the port and the other agents do. -/

namespace Sys2Proof.Machine

/-- A rate request finds the entry of the table of R182 (R190: never UnsupportedRate). -/
theorem nearestRate_rateTable (req : Nat) :
    nearestRate Config.rateTable req = some (rateIndex req, rateOfIndex (rateIndex req)) := by
  have hcons : ∀ best bestRate i rate rates, nearestFrom req best bestRate i (rate :: rates) =
      if distance rate req < distance bestRate req then nearestFrom req i rate (i + 1) rates
      else nearestFrom req best bestRate (i + 1) rates := fun _ _ _ _ _ => rfl
  have hnil : ∀ best bestRate i, nearestFrom req best bestRate i [] = best := fun _ _ _ => rfl
  have hi : nearestIndex Config.rateTable req = some (rateIndex req) := by
    refine congrArg some (show nearestFrom req 0 1 1 [64, 1024, 32768] = _ from ?_)
    rw [hcons]
    unfold rateIndex
    split_ifs <;> rw [hcons] <;> split_ifs <;> rw [hcons] <;> split_ifs <;> rw [hnil] <;>
      simp only [distance] at * <;> omega
  simp only [nearestRate, hi, rateIndex]
  split_ifs <;> rfl

/-- What a path answers at once while the other path runs a command: exactly a command that issues no transaction, with
its answer (R54, R107, R187, R212). -/
theorem answerBeforeLock_eq (i : Instr) :
    answerBeforeLock i = if issues i = [] then some (answerAtOnce i) else none := by
  cases i with
  | bcdDec b m => rfl
  | bcdEnc n =>
    by_cases h : n ≤ 99
    · simp [answerBeforeLock, answerBcdEnc, issues, answerAtOnce, h, bcdEncode_of_le h]; rfl
    · simp [answerBeforeLock, answerBcdEnc, issues, answerAtOnce, h, bcdEncode_of_gt (Nat.lt_of_not_le h)]; rfl
  | clkRound req =>
    simp only [answerBeforeLock, answerClkRound, nearestRate_rateTable, issues, if_true, answerAtOnce, okFrame, rateFrameBytes_eq]
    rfl
  | clkSet req => simp only [answerBeforeLock, checkClkSet, nearestRate_rateTable, errorOf]; rfl
  | almEn b =>
    cases hb : readBool b with
    | none =>
      have : ¬ (b = 0x00 ∨ b = 0x01) := by rintro (rfl | rfl) <;> cases hb
      simp only [answerBeforeLock, checkAlmEn, hb, errorOf, issues, if_neg this]; rfl
    | some e =>
      obtain rfl := readBool_eq_some hb
      simp only [answerBeforeLock, checkAlmEn, hb, errorOf]; cases e <;> rfl
  | timeWr sec min hour wday mday mon y =>
    by_cases h : LegalTime sec min hour wday mday mon y
    · simp only [answerBeforeLock, checkTimeWr_legal h, errorOf, issues, if_pos h]; rfl
    · simp only [answerBeforeLock, checkTimeWr_illegal h, errorOf, issues, if_neg h]; rfl
  | almWr sec min hour mday mon y en =>
    by_cases h : LegalAlarm sec min hour mday mon y ∧ (en = 0x00 ∨ en = 0x01)
    · obtain ⟨e, rfl⟩ : ∃ e, en = boolByte e := by
        rcases h.2 with he | he
        · exact ⟨false, he⟩
        · exact ⟨true, he⟩
      simp only [answerBeforeLock, checkAlmWr_legal e h.1, errorOf, issues, if_pos h]; rfl
    · have h' : ¬ LegalAlarm sec min hour mday mon y ∨ (en ≠ 0x00 ∧ en ≠ 0x01) := by
        by_cases hl : LegalAlarm sec min hour mday mon y
        · exact .inr ⟨fun e => h ⟨hl, .inl e⟩, fun e => h ⟨hl, .inr e⟩⟩
        · exact .inl hl
      simp only [answerBeforeLock, checkAlmWr_illegal h', errorOf, issues, if_neg h]; rfl
  | timeRd => rfl
  | almRd => rfl
  | irqSvc => rfl
  | clkEn => rfl
  | clkDis => rfl
  | clkIsen => rfl
  | clkRecalc => rfl
  | ofsRd => rfl
  | ofsWr v => rfl

/-- The three shapes of a command: it is answered before LOCK; it is the script of its transactions (R49), all inside
the register space, answered by a frame whose first byte is OK; it is IRQ.SVC. -/
theorem exec_cases (i : Instr) (s : State) :
    (∃ frame, answerBeforeLock i = some frame ∧ exec i s = .next (answerNow frame s)) ∨
    (answerBeforeLock i = none ∧ i ≠ .irqSvc ∧ (issues i).all xactInside = true ∧
      ∃ reply : List Byte → Frame, (∀ buf, (reply buf).head? = some 0x00) ∧
        exec i s = runScript i (issues i) reply s) ∨
    i = .irqSvc := by
  cases i with
  | bcdDec b m => exact .inl ⟨_, rfl, rfl⟩
  | bcdEnc n => exact .inl ⟨_, rfl, rfl⟩
  | clkRound req => exact .inl ⟨_, rfl, rfl⟩
  | irqSvc => exact .inr (.inr rfl)
  | timeRd => exact .inr (.inl ⟨rfl, by simp, rfl, replyTimeRd, fun _ => rfl, rfl⟩)
  | almRd => exact .inr (.inl ⟨rfl, by simp, rfl, replyAlmRd, fun _ => rfl, rfl⟩)
  | clkEn => exact .inr (.inl ⟨rfl, by simp, rfl, fun _ => okFrame [], fun _ => rfl, rfl⟩)
  | clkDis => exact .inr (.inl ⟨rfl, by simp, rfl, fun _ => okFrame [], fun _ => rfl, rfl⟩)
  | clkIsen => exact .inr (.inl ⟨rfl, by simp, rfl, replyClkIsen, fun _ => rfl, rfl⟩)
  | ofsRd => exact .inr (.inl ⟨rfl, by simp, rfl, replyOfsRd, fun _ => rfl, rfl⟩)
  | ofsWr v => exact .inr (.inl ⟨rfl, by simp, rfl, fun _ => okFrame [], fun _ => rfl, rfl⟩)
  | clkRecalc =>
    refine .inr (.inl ⟨rfl, by simp, rfl, replyClkRecalc, fun buf => ?_, rfl⟩)
    exact (by decide : ∀ b : Byte, (replyClkRecalc [b]).head? = some 0x00) (buf.getD 0 0)
  | clkSet req =>
    have hc : checkClkSet req = .ok (rateIndex req, rateOfIndex (rateIndex req)) := by
      simp only [checkClkSet, nearestRate_rateTable]
    refine .inr (.inl ⟨by simp only [answerBeforeLock, hc, errorOf, onTable_rateTable], by simp, rfl,
      fun _ => okFrame (rateFrameBytes (rateOfIndex (rateIndex req))), fun _ => rfl, ?_⟩)
    simp only [exec, execClkSet, withTable_rateTable, hc, checked_ok]
    rfl
  | almEn b =>
    cases hb : readBool b with
    | none =>
      refine .inl ⟨errorFrame .invalidArgument, ?_, ?_⟩ <;>
        simp only [exec, execAlmEn, answerBeforeLock, checkAlmEn, hb, errorOf, checked_error]
    | some e =>
      obtain rfl := readBool_eq_some hb
      refine .inr (.inl ⟨by simp only [answerBeforeLock, checkAlmEn, hb, errorOf], by simp, by cases e <;> rfl,
        fun _ => okFrame [], fun _ => rfl, ?_⟩)
      simp only [exec, execAlmEn, checkAlmEn, hb, checked_ok]
      cases e <;> rfl
  | timeWr sec min hour wday mday mon y =>
    by_cases h : LegalTime sec min hour wday mday mon y
    · refine .inr (.inl ⟨by simp only [answerBeforeLock, checkTimeWr_legal h, errorOf], by simp,
        by simp only [issues, if_pos h]; rfl, fun _ => okFrame [], fun _ => rfl, ?_⟩)
      simp only [exec, execTimeWr, checkTimeWr_legal h, checked_ok, issues, if_pos h]
      rfl
    · refine .inl ⟨errorFrame .invalidArgument, ?_, ?_⟩ <;>
        simp only [exec, execTimeWr, answerBeforeLock, checkTimeWr_illegal h, errorOf, checked_error]
  | almWr sec min hour mday mon y en =>
    by_cases h : LegalAlarm sec min hour mday mon y ∧ (en = 0x00 ∨ en = 0x01)
    · have hissues : issues (.almWr sec min hour mday mon y en) = [.write 0x11 (packedAlarm sec min hour mday mon y),
          .update 0x01 0x01 en, .update 0x00 0x01 0x00] := by
        simp only [issues, if_pos h]
      obtain ⟨e, rfl⟩ : ∃ e, en = boolByte e := by
        rcases h.2 with he | he
        · exact ⟨false, he⟩
        · exact ⟨true, he⟩
      refine .inr (.inl ⟨by simp only [answerBeforeLock, checkAlmWr_legal e h.1, errorOf], by simp,
        by rw [hissues]; rfl, fun _ => okFrame [], fun _ => rfl, ?_⟩)
      simp only [exec, execAlmWr, checkAlmWr_legal e h.1, checked_ok, hissues]
      cases e <;> rfl
    · have h' : ¬ LegalAlarm sec min hour mday mon y ∨ (en ≠ 0x00 ∧ en ≠ 0x01) := by
        by_cases hl : LegalAlarm sec min hour mday mon y
        · exact .inr ⟨fun e => h ⟨hl, .inl e⟩, fun e => h ⟨hl, .inr e⟩⟩
        · exact .inl hl
      refine .inl ⟨errorFrame .invalidArgument, ?_, ?_⟩ <;>
        simp only [exec, execAlmWr, answerBeforeLock, checkAlmWr_illegal h', errorOf, checked_error]

/-- The transactions of IRQ.SVC are on the register space. -/
theorem irqSvc_cases (s : State) :
    (s.lock = none ∧ exec .irqSvc s = .next (bodyIrqSvc (acquire (takeUp s.active .irqSvc s)))) ∨
    (s.lock ≠ none ∧ exec .irqSvc s = .next (takeUp s.active .irqSvc s)) := by
  rcases locked_cases .irqSvc scriptIrqSvc bodyIrqSvc s with ⟨h, _⟩ | ⟨_, hl, h⟩ | ⟨_, hl, h⟩
  · cases h
  · exact .inl ⟨hl, h⟩
  · exact .inr ⟨hl, h⟩

/-- What IRQ.SVC does once LOCK is held: what survives points, its two transactions and its exit survives it. -/
theorem bodyIrqSvc_induct {P : State → Prop} (hint : ∀ s, P s → P (interfere s))
    (hxact : ∀ x ∈ issues .irqSvc, ∀ a f s, s.flightOf s.active = some f → P s → P (applyXact x a f (popAnswer s)))
    (hexit : ∀ notify s, P s → P (exitIrqSvc notify s)) {s : State} (h : P s) : P (bodyIrqSvc s) := by
  have h1 : P (issueAll [readStatus1] s).2 :=
    issueAll_induct hint _ (fun x hx => hxact x (by simp only [List.mem_singleton] at hx; subst hx; decide)) h
  simp only [bodyIrqSvc]
  split
  · exact h1
  · exact hexit _ _ h1
  · split
    · have h2 : P (issueAll [clearA1f] (issueAll [readStatus1] s).2).2 :=
        issueAll_induct hint _ (fun x hx => hxact x (by simp only [List.mem_singleton] at hx; subst hx; decide)) h1
      split
      · exact h2
      · exact hexit _ _ h2
      · exact hexit _ _ h2
    · exact hexit _ _ h1

/-- What survives every part of a command survives the command, whatever the port and the other agents do. -/
theorem exec_induct {P : State → Prop} (i : Instr) {s t : State} (hint : ∀ s, P s → P (interfere s))
    (hanswer : ∀ frame, answerBeforeLock i = some frame → P s → P (answerNow frame s))
    (htake : answerBeforeLock i = none → P s → P (takeUp s.active i s))
    (hacquire : ∀ s, P s → P (acquire s))
    (hxact : ∀ x ∈ issues i, ∀ a f s, s.flightOf s.active = some f → P s → P (applyXact x a f (popAnswer s)))
    (hend : ∀ s frame, (∃ f, s.flightOf s.active = some f) → P s → P (respond s.active frame (release s)))
    (hexit : i = .irqSvc → ∀ notify s, P s → P (exitIrqSvc notify s)) (h : P s) (he : exec i s = .next t) : P t := by
  rcases exec_cases i s with ⟨frame, ha, hx⟩ | ⟨ha, _, hin, reply, _, hx⟩ | rfl
  · cases hx.symm.trans he
    exact hanswer frame ha h
  · rw [hx] at he
    rcases locked_cases i (issues i) (fun s' => conclude reply (issueAll (issues i) s')) s with
      ⟨h', _⟩ | ⟨_, _, h'⟩ | ⟨_, _, h'⟩
    · simp [hin] at h'
    · cases h'.symm.trans he
      exact conclude_induct hint hend reply (issueAll_induct hint _ hxact (hacquire _ (htake ha h)))
    · cases h'.symm.trans he
      exact htake ha h
  · rcases irqSvc_cases s with ⟨_, hx⟩ | ⟨_, hx⟩ <;> cases hx.symm.trans he
    · exact bodyIrqSvc_induct hint hxact (hexit rfl) (hacquire _ (htake rfl h))
    · exact htake rfl h

/-! ### The register space under everything that can happen -/

/-- A move of another agent changes the register space only if it is the chip's step. -/
theorem performMove_reg (m : Move) (s : State) :
    (performMove m s).reg = s.reg ∨ (performMove m s).reg = (chipStep s).reg := by
  cases m with
  | chip => exact .inr rfl
  | line level => exact .inl rfl
  | send p frame => exact .inl (by cases p <;> rfl)
  | reset => exact .inl rfl
  | serve =>
    rcases otherServes_cases s with h | ⟨_, _, _, _, h⟩
    · exact .inl (by simp [performMove, h])
    · exact .inl (by simp [performMove, h])
  | run p =>
    rcases otherRuns_cases p s with h | ⟨_, rest, frame, _, h⟩ | ⟨_, i, _, ⟨f, _, _, h⟩ | ⟨rest, _, h⟩⟩ |
      ⟨_, f, frame, _, _, h⟩ <;> exact .inl (by cases p <;> simp [performMove, h, State.withInbox, State.withPath])

/-- What the chip's steps and the transactions of a command keep true of the register space is true of it after the
command, whatever the port and the other agents do. -/
theorem exec_reg_induct {Q : Memory → Prop} (i : Instr) {s t : State}
    (hchip : ∀ u : State, Q u.reg → Q (chipStep u).reg)
    (hxact : ∀ x ∈ issues i, ∀ a m, Q m → Q (xactReg x a m)) (h : Q s.reg) (he : exec i s = .next t) : Q t.reg := by
  have hint : ∀ u : State, Q u.reg → Q (interfere u).reg := fun u hu =>
    interfere_induct (P := fun v => Q v.reg)
      (fun m v hv => by rcases performMove_reg m v with h' | h' <;> rw [h'] <;> first | exact hv | exact hchip v hv)
      (fun v hv => by simpa using hv) hu
  refine exec_induct (P := fun u => Q u.reg) i hint ?_ (fun _ hu => by simpa using hu) (fun u hu => hu) ?_
    (fun u _ _ hu => by simpa using hu) ?_ h he
  · intro frame _ hu
    rw [answerNow_eq]
    simp only [State.answered]
    cases s.active <;> exact hu
  · intro x hx a f u _ hu
    simp only [applyXact]
    simpa using hxact x hx a _ hu
  · intro _ notify u hu
    have hi := hint u hu
    simp only [exitIrqSvc]
    split
    · exact hi
    · split <;> simpa using hi

end Sys2Proof.Machine
end

