-- ==== Sys2Proof/Laws/PerInstr.lean ====
section
/-! SUPPORT. Statements about every command, one lemma per constructor. -/

/-- The frame of a command has the length R75 gives for its opcode. -/
def Sys2Proof.Laws.EncodedLength.Statement (i : Sys2Proof.Instr) : Prop :=
  (Sys2Proof.encode i).length = Sys2Proof.frameLength (Sys2Proof.opcodeOfInstr i)

namespace Sys2Proof.Laws.EncodedLength

open Sys2Proof

theorem bcdDec (byte mask : Byte) : Statement (.bcdDec byte mask) := rfl

theorem bcdEnc (n : Nat) : Statement (.bcdEnc n) := rfl

theorem timeRd : Statement (.timeRd) := rfl

theorem timeWr (sec min hour wday mday mon yearOff : Nat) : Statement (.timeWr sec min hour wday mday mon yearOff) := rfl

theorem almRd : Statement (.almRd) := rfl

theorem almWr (sec min hour mday mon yearOff : Nat) (en : Byte) : Statement (.almWr sec min hour mday mon yearOff en) := rfl

theorem almEn (b : Byte) : Statement (.almEn b) := rfl

theorem irqSvc : Statement (.irqSvc) := rfl

theorem clkEn : Statement (.clkEn) := rfl

theorem clkDis : Statement (.clkDis) := rfl

theorem clkIsen : Statement (.clkIsen) := rfl

theorem clkRecalc : Statement (.clkRecalc) := rfl

theorem clkRound (req : Nat) : Statement (.clkRound req) := rfl

theorem clkSet (req : Nat) : Statement (.clkSet req) := rfl

theorem ofsRd : Statement (.ofsRd) := rfl

theorem ofsWr (v : Byte) : Statement (.ofsWr v) := rfl

end Sys2Proof.Laws.EncodedLength
end

