-- ==== Sys2Proof/Machine/Assembler.lean ====
section
/-! DEFINITION. The written form of commands and responses (`30_encoding.md` R82) and the source's other names for the
commands (R83). No command's meaning depends on it. -/

namespace Sys2Proof.Machine

/-- The mnemonic of a row of R75. -/
def mnemonic : Opcode → String
  | .bcdDec => "BCD.DEC"
  | .bcdEnc => "BCD.ENC"
  | .timeRd => "TIME.RD"
  | .timeWr => "TIME.WR"
  | .almRd => "ALM.RD"
  | .almWr => "ALM.WR"
  | .almEn => "ALM.EN"
  | .irqSvc => "IRQ.SVC"
  | .clkEn => "CLK.EN"
  | .clkDis => "CLK.DIS"
  | .clkIsen => "CLK.ISEN"
  | .clkRecalc => "CLK.RECALC"
  | .clkRound => "CLK.ROUND"
  | .clkSet => "CLK.SET"
  | .ofsRd => "OFS.RD"
  | .ofsWr => "OFS.WR"

/-- The source's names for a command: each expands to exactly that command (R83). -/
def sourceNames : Opcode → List String
  | .bcdDec => ["decode"]
  | .bcdEnc => ["encode"]
  | .timeRd => ["read_time"]
  | .timeWr => ["write_time", "set_time"]
  | .almRd => ["read_alarm"]
  | .almWr => ["write_alarm", "set_alarm"]
  | .almEn => ["set_alarm_enabled"]
  | .irqSvc => []
  | .clkEn => ["enable"]
  | .clkDis => ["disable"]
  | .clkIsen => ["is_enabled"]
  | .clkRecalc => ["recalc_rate"]
  | .clkRound => ["round_rate"]
  | .clkSet => ["set_rate"]
  | .ofsRd => ["read_offset"]
  | .ofsWr => ["set_offset"]

/-- The command a name of the source stands for (R83). -/
def opcodeOfSourceName (name : String) : Option Opcode := allOpcodes.find? (fun o => (sourceNames o).contains name)

/-- One hexadecimal digit. -/
def hexDigit (n : Nat) : String :=
  (["0", "1", "2", "3", "4", "5", "6", "7", "8", "9", "A", "B", "C", "D", "E", "F"]).getD n "?"

/-- A byte as `0x` and two digits. -/
def hexByte (b : Byte) : String := "0x" ++ hexDigit (highNibble b) ++ hexDigit (lowNibble b)

/-- ` name=value`. -/
def namedValue (name value : String) : String := " " ++ name ++ "=" ++ value

/-- The operands of a command as `name=value` in frame order (R82). -/
def operandText : Instr → String
  | .bcdDec byte mask => namedValue "byte" (hexByte byte) ++ namedValue "mask" (hexByte mask)
  | .bcdEnc n => namedValue "n" (toString n)
  | .timeRd => ""
  | .timeWr sec min hour wday mday mon yearOff =>
    namedValue "sec" (toString sec) ++ namedValue "min" (toString min) ++ namedValue "hour" (toString hour) ++
      namedValue "wday" (toString wday) ++ namedValue "mday" (toString mday) ++ namedValue "mon" (toString mon) ++
      namedValue "year_off" (toString yearOff)
  | .almRd => ""
  | .almWr sec min hour mday mon yearOff en =>
    namedValue "sec" (toString sec) ++ namedValue "min" (toString min) ++ namedValue "hour" (toString hour) ++
      namedValue "mday" (toString mday) ++ namedValue "mon" (toString mon) ++
      namedValue "year_off" (toString yearOff) ++ namedValue "en" (toString en.toNat)
  | .almEn b => namedValue "b" (toString b.toNat)
  | .irqSvc => ""
  | .clkEn => ""
  | .clkDis => ""
  | .clkIsen => ""
  | .clkRecalc => ""
  | .clkRound req => namedValue "req" (toString req)
  | .clkSet req => namedValue "req" (toString req)
  | .ofsRd => ""
  | .ofsWr v => namedValue "v" (toString v.toInt)

/-- A command as written (R82). -/
def commandText (i : Instr) : String := mnemonic (opcodeOfInstr i) ++ operandText i

/-- The payload of an OK response as `name=value` (R77, R82). -/
def payloadText : Opcode → List Byte → String
  | .bcdDec, [v] => namedValue "value" (toString v.toNat)
  | .bcdEnc, [b] => namedValue "byte" (hexByte b)
  | .timeRd, [sec, min, hour, wday, mday, mon, y0, y1] =>
    namedValue "sec" (toString sec.toNat) ++ namedValue "min" (toString min.toNat) ++
      namedValue "hour" (toString hour.toNat) ++ namedValue "wday" (toString wday.toInt) ++
      namedValue "mday" (toString mday.toNat) ++ namedValue "mon" (toString mon.toNat) ++
      namedValue "year_off" (toString (ofLe [y0, y1]))
  | .almRd, [sec, min, hour, mday, mon, y0, y1, enabled, pending] =>
    namedValue "sec" (toString sec.toNat) ++ namedValue "min" (toString min.toNat) ++
      namedValue "hour" (toString hour.toNat) ++ namedValue "mday" (toString mday.toNat) ++
      namedValue "mon" (toString mon.toNat) ++ namedValue "year_off" (toString (ofLe [y0, y1])) ++
      namedValue "enabled" (toString enabled.toNat) ++ namedValue "pending" (toString pending.toNat)
  | .clkIsen, [e] => namedValue "e" (toString e.toNat)
  | .clkRecalc, rate => namedValue "rate" (toString (ofLe rate))
  | .clkRound, rate => namedValue "rate" (toString (ofLe rate))
  | .clkSet, rate => namedValue "rate" (toString (ofLe rate))
  | .ofsRd, [v] => namedValue "v" (toString v.toInt)
  | _, _ => ""

/-- A response of a command as written (R82). -/
def responseText (o : Opcode) : Frame → String
  | [] => ""
  | code :: payload =>
    if code = statusCode .ok then "-> OK" ++ payloadText o payload
    else if code = statusCode .busError then "-> BusError"
    else if code = statusCode .invalidArgument then "-> InvalidArgument"
    else if code = statusCode .unsupportedRate then "-> UnsupportedRate"
    else "-> IllegalCommand"

end Sys2Proof.Machine
end

