-- ==== Sys2Proof/Tests/Slice0.lean ====
section
/-! SUPPORT. Tests: ill-formed terms the check refuses, words written out from the spec's encodings, one-step runs whose
expected values are the vectors of `95_test_vectors.md`, and for every statement with hypotheses a state and
operands that meet them. -/

namespace Sys2Proof.Tests

open Sys2Proof Sys2Proof.Machine

/-! ### Helpers -/

/-- The state after reset over the register space `reg`, nobody interfering, the port answering `answers`. -/
def holding (reg : Memory) (answers : List PortAnswer) : State :=
  { State.resetWith reg with moves := List.replicate 9 [], answers := answers }

/-- The register space at its reset contents, nobody interfering, eight transactions succeeding. -/
def calm : State := holding [] (List.replicate 8 .ok)

/-- A register space that holds `bytes` from `addr` on, and nothing else. -/
def block (addr : Nat) (bytes : List Byte) : Memory := Memory.writeBytes [] addr bytes

/-- The command ends with the register space `reg`, the outputs `outs` and these transactions issued (with whether each
failed), LOCK free. -/
def ends (i : Instr) (s : State) (reg : Memory) (outs : List Output) (issued : List (Xact × Bool)) : Bool :=
  match exec i s with
  | .next t => decide (t.reg = reg ∧ t.outbox = outs ∧ t.lock = none ∧
      t.trace.map (fun e => (e.xact, e.failed)) = issued)
  | .fault _ => false
  | .refused _ => false

/-- One response on the host path. -/
def answer (frame : Frame) : List Output := [.response .host frame]

/-! ### WellFormed refuses what no frame can carry -/

theorem test_wf_bcdEnc : (Instr.bcdEnc 256).wf = false := by decide
theorem test_wf_timeWr_sec : (Instr.timeWr 256 0 0 0 1 1 100).wf = false := by decide
theorem test_wf_timeWr_min : (Instr.timeWr 0 256 0 0 1 1 100).wf = false := by decide
theorem test_wf_timeWr_hour : (Instr.timeWr 0 0 256 0 1 1 100).wf = false := by decide
theorem test_wf_timeWr_wday : (Instr.timeWr 0 0 0 256 1 1 100).wf = false := by decide
theorem test_wf_timeWr_mday : (Instr.timeWr 0 0 0 0 256 1 100).wf = false := by decide
theorem test_wf_timeWr_mon : (Instr.timeWr 0 0 0 0 1 256 100).wf = false := by decide
theorem test_wf_timeWr_year : (Instr.timeWr 0 0 0 0 1 1 65536).wf = false := by decide
theorem test_wf_almWr_sec : (Instr.almWr 256 0 0 1 1 100 0).wf = false := by decide
theorem test_wf_almWr_min : (Instr.almWr 0 256 0 1 1 100 0).wf = false := by decide
theorem test_wf_almWr_hour : (Instr.almWr 0 0 256 1 1 100 0).wf = false := by decide
theorem test_wf_almWr_mday : (Instr.almWr 0 0 0 256 1 100 0).wf = false := by decide
theorem test_wf_almWr_mon : (Instr.almWr 0 0 0 1 256 100 0).wf = false := by decide
theorem test_wf_almWr_year : (Instr.almWr 0 0 0 1 1 65536 0).wf = false := by decide
theorem test_wf_clkRound : (Instr.clkRound 4294967296).wf = false := by decide
theorem test_wf_clkSet : (Instr.clkSet 4294967296).wf = false := by decide
theorem test_wf_lets_illegal_operands_through :
    (Instr.timeWr 61 59 23 4 29 2 124).wf = true ∧ (Instr.almEn 0x02).wf = true := by decide

/-! ### Decode: frames written out from the spec (V-B, V-T1, V-A1, V-C, V-O, V-E; operands of R69 to R75) -/

theorem test_decode_bcdDec : decode [0x01, 0xD9, 0x7F] = .ok (.bcdDec 0xD9 0x7F) := by decide
theorem test_decode_bcdEnc : decode [0x02, 0xFF] = .ok (.bcdEnc 255) := by decide
theorem test_decode_timeRd : decode [0x10] = .ok .timeRd := by decide
theorem test_decode_timeWr :
    decode [0x11, 0x07, 0x08, 0x09, 0x02, 0x1F, 0x0B, 0x2B, 0x01] = .ok (.timeWr 7 8 9 2 31 11 299) := by decide
theorem test_decode_almRd : decode [0x20] = .ok .almRd := by decide
theorem test_decode_almWr :
    decode [0x21, 0x3B, 0x3A, 0x17, 0x1F, 0x0C, 0x2B, 0x01, 0x80] = .ok (.almWr 59 58 23 31 12 299 0x80) := by decide
theorem test_decode_almEn : decode [0x22, 0x02] = .ok (.almEn 0x02) := by decide
theorem test_decode_irqSvc : decode [0x23] = .ok .irqSvc := by decide
theorem test_decode_clkEn : decode [0x30] = .ok .clkEn := by decide
theorem test_decode_clkDis : decode [0x31] = .ok .clkDis := by decide
theorem test_decode_clkIsen : decode [0x32] = .ok .clkIsen := by decide
theorem test_decode_clkRecalc : decode [0x33] = .ok .clkRecalc := by decide
theorem test_decode_clkRound : decode [0x34, 0xA0, 0x86, 0x01, 0x00] = .ok (.clkRound 100000) := by decide
theorem test_decode_clkSet : decode [0x35, 0x01, 0x02, 0x03, 0x80] = .ok (.clkSet 2147680769) := by decide
theorem test_decode_ofsRd : decode [0x40] = .ok .ofsRd := by decide
theorem test_decode_ofsWr : decode [0x41, 0x80] = .ok (.ofsWr 0x80) := by decide

theorem test_decode_rejects_unassigned :
    decode [] = .error .emptyFrame ∧ decode [0x00] = .error (.illegalOpcode 0x00) ∧
    decode [0x12] = .error (.illegalOpcode 0x12) ∧ decode [0x24] = .error (.illegalOpcode 0x24) ∧
    decode [0x36] = .error (.illegalOpcode 0x36) ∧ decode [0x42, 0x00] = .error (.illegalOpcode 0x42) ∧
    decode [0xFF] = .error (.illegalOpcode 0xFF) := by decide

theorem test_decode_rejects_wrong_length :
    decode [0x10, 0x00] = .error (.wrongLength 0x10 2) ∧ decode [0x01, 0x59] = .error (.wrongLength 0x01 2) ∧
    decode [0x11, 0x3D, 0x3B, 0x17, 0x04, 0x1D, 0x02, 0x7C] = .error (.wrongLength 0x11 8) ∧
    decode [0x34, 0xF4, 0x01] = .error (.wrongLength 0x34 3) := by decide

/-- The table's numbering: the first byte is bits 7 to 0. -/
theorem test_decodeTableWord :
    decodeTableWord 24 0x7F5901 = some (.bcdDec 0x59 0x7F) ∧ decodeTableWord 8 0x01 = some (.bcdDec 0 0) ∧
    decodeTableWord 72 0x007C021D04173B3A11 = some (.timeWr 58 59 23 4 29 2 124) ∧
    decodeTableWord 8 0x21 = some (.almWr 0 0 0 0 0 0 0) ∧ decodeTableWord 40 0x00000001F435 = some (.clkSet 500) ∧
    decodeTableWord 8 0x23 = some .irqSvc ∧ decodeTableWord 8 0x12 = none := by decide

/-- The first step after reset runs the word placed by `withFetchWord` (R242). -/
theorem test_first_step_runs_the_word :
    (∃ t, step (State.reset.withFetchWord 24 0x7F5901) = .next t ∧ t.outbox = answer [0x00, 0x3B]) ∧
    step (State.reset.withFetchWord 8 0x10) = exec .timeRd (State.withInbox State.reset .host []) :=
  ⟨⟨_, rfl, rfl⟩, rfl⟩

/-! ### The commands, against the vectors of `95_test_vectors.md` -/

theorem test_bcdDec : ends (.bcdDec 0x59 0xF0) calm [] (answer [0x00, 0x32]) [] = true ∧
    ends (.bcdDec 0xFF 0xFF) calm [] (answer [0x00, 0xA5]) [] = true := by decide

theorem test_bcdEnc : ends (.bcdEnc 59) calm [] (answer [0x00, 0x59]) [] = true ∧
    ends (.bcdEnc 100) calm [] (answer [0x02]) [] = true := by decide

/-- V-T3 row 1 and V-T5 row 3. -/
theorem test_timeRd :
    ends .timeRd (holding (block 0x0A [0xD8, 0xD9, 0x71, 0xFD, 0xE9, 0xF2, 0x24]) [.ok])
      (block 0x0A [0xD8, 0xD9, 0x71, 0xFD, 0xE9, 0xF2, 0x24])
      (answer [0x00, 0x3A, 0x3B, 0x17, 0x04, 0x1D, 0x0C, 0xE0, 0x00]) [(.read 0x0A 7, false)] = true ∧
    ends .timeRd (holding (block 0x0A [0x7A, 0x6B, 0x2C, 0x00, 0x3D, 0x1E, 0xAF]) [.ok])
      (block 0x0A [0x7A, 0x6B, 0x2C, 0x00, 0x3D, 0x1E, 0xAF])
      (answer [0x00, 0x50, 0x47, 0x20, 0xFF, 0x2B, 0x18, 0xD7, 0x00]) [(.read 0x0A 7, false)] = true := by decide

/-- V-T4, the hour byte. -/
theorem test_decodeHour :
    [0x00, 0x12, 0x92, 0x52, 0x41, 0x72, 0x61, 0x71, 0xD2, 0x40, 0x60, 0x53, 0x79, 0x7F, 0x3F].map decodeHour =
      [0, 12, 12, 0, 1, 12, 13, 23, 0, 0, 12, 13, 31, 37, 45] := by decide

/-- V-T1 row 2; V-T6 with every second byte taken. -/
theorem test_timeWr :
    ends (.timeWr 59 59 23 6 31 12 299) calm (block 0x0A [0x59, 0x59, 0x23, 0x07, 0x31, 0x92, 0x99]) (answer [0x00])
      [(.write 0x0A [0x59, 0x59, 0x23, 0x07, 0x31, 0x92, 0x99], false)] = true ∧
    ends (.timeWr 58 59 23 4 29 2 124)
      (holding (block 0x0A [0x00, 0x00, 0x00, 0x01, 0x01, 0x01, 0x00]) [.fail [true, false, true, false, true, false, true]])
      (block 0x0A [0x58, 0x00, 0x23, 0x01, 0x29, 0x01, 0x24]) (answer [0x01])
      [(.write 0x0A [0x58, 0x59, 0x23, 0x05, 0x29, 0x02, 0x24], true)] = true := by decide

/-- V-T2, every row. -/
theorem test_timeWr_refused :
    [(60, 59, 23, 4, 29, 2, 124), (61, 59, 23, 4, 29, 2, 124), (58, 60, 23, 4, 29, 2, 124), (58, 59, 24, 4, 29, 2, 124),
     (58, 59, 23, 7, 29, 2, 124), (58, 59, 23, 4, 0, 2, 124), (58, 59, 23, 4, 32, 2, 124), (58, 59, 23, 4, 29, 0, 124),
     (58, 59, 23, 4, 29, 13, 124), (58, 59, 23, 4, 29, 2, 99), (58, 59, 23, 4, 29, 2, 300),
     (58, 59, 23, 4, 29, 2, 65535)].all
      (fun (a, b, c, d, e, f, g) => ends (.timeWr a b c d e f g) calm [] (answer [0x02]) []) = true := by decide

/-- Program P2, step 2, and its variant with the clock in 2005. -/
theorem test_almRd :
    ends .almRd (holding ((block 0x11 [0x00, 0x30, 0x07, 0x15, 0x06, 0x05]).set 0x01 0x41 |>.set 0x00 0x82 |>.set 0x0F 0x86)
        (List.replicate 4 .ok))
      ((block 0x11 [0x00, 0x30, 0x07, 0x15, 0x06, 0x05]).set 0x01 0x41 |>.set 0x00 0x82 |>.set 0x0F 0x86)
      (answer [0x00, 0x00, 0x1E, 0x07, 0x0F, 0x06, 0xCD, 0x00, 0x01, 0x00])
      [(.read 0x11 6, false), (.read 0x01 1, false), (.read 0x00 1, false), (.read 0x0A 7, false)] = true ∧
    ends .almRd (holding ((block 0x11 [0x00, 0x30, 0x07, 0x15, 0x06, 0x05]).set 0x0F 0x06) [.ok, .ok, .fail []])
      ((block 0x11 [0x00, 0x30, 0x07, 0x15, 0x06, 0x05]).set 0x0F 0x06) (answer [0x01])
      [(.read 0x11 6, false), (.read 0x01 1, false), (.read 0x00 1, true)] = true := by decide

/-- Program P2, step 1; program P5, step 1, with the enable bit not taken. -/
theorem test_almWr :
    ends (.almWr 0 30 7 15 6 205 0x01)
      (holding ((block 0x11 [0xFF, 0xFF, 0xFF, 0xFF, 0xFF, 0xFF]).set 0x01 0x40 |>.set 0x00 0x83) (List.replicate 3 .ok))
      ((block 0x11 [0x00, 0x30, 0x07, 0x15, 0x06, 0x05]).set 0x01 0x41 |>.set 0x00 0x82) (answer [0x00])
      [(.write 0x11 [0x00, 0x30, 0x07, 0x15, 0x06, 0x05], false), (.update 0x01 0x01 0x01, false),
       (.update 0x00 0x01 0x00, false)] = true ∧
    ends (.almWr 0 30 7 15 6 205 0x01)
      (holding ((block 0x11 [0x00, 0x00, 0x00, 0x01, 0x01, 0x00]).set 0x00 0x01) [.ok, .fail [false]])
      ((block 0x11 [0x00, 0x30, 0x07, 0x15, 0x06, 0x05]).set 0x00 0x01) (answer [0x01])
      [(.write 0x11 [0x00, 0x30, 0x07, 0x15, 0x06, 0x05], false), (.update 0x01 0x01 0x01, true)] = true := by decide

/-- V-A7, the rows of ALM.EN; a byte that is no boolean (V-E). -/
theorem test_almEn :
    ends (.almEn 0x00) (holding [(0x00, 0x01), (0x01, 0xF1)] [.ok]) [(0x00, 0x01), (0x01, 0xF0)] (answer [0x00])
      [(.update 0x01 0x01 0x00, false)] = true ∧
    ends (.almEn 0x02) calm [] (answer [0x02]) [] = true := by decide

/-- V-I rows 1 and 3. -/
theorem test_irqSvc :
    ends .irqSvc (holding [(0x00, 0x81), (0x01, 0x01)] [.ok, .ok]) [(0x00, 0x80), (0x01, 0x01)]
      [.alarmEvent, .response .host [0x00]] [(.read 0x00 1, false), (.update 0x00 0x01 0x00, false)] = true ∧
    ends .irqSvc (holding [(0x00, 0x80), (0x01, 0x01)] [.ok]) [(0x00, 0x80), (0x01, 0x01)] (answer [0x00])
      [(.read 0x00 1, false)] = true := by decide

/-- V-I rows 5 and 6. -/
theorem test_irqSvc_swallows_bus_errors :
    ends .irqSvc (holding [(0x00, 0x01), (0x01, 0x01)] [.fail []]) [(0x00, 0x01), (0x01, 0x01)] (answer [0x00])
      [(.read 0x00 1, true)] = true ∧
    ends .irqSvc (holding [(0x00, 0x01), (0x01, 0x01)] [.ok, .fail [true]]) [(0x01, 0x01)] (answer [0x00])
      [(.read 0x00 1, false), (.update 0x00 0x01 0x00, true)] = true := by decide

/-- V-C3. -/
theorem test_clkEn :
    ends .clkEn (holding [(0x06, 0xF8)] [.ok]) [(0x06, 0xFC)] (answer [0x00]) [(.update 0x06 0x04 0x04, false)] = true ∧
    ends .clkEn (holding [(0x06, 0x01)] [.fail [true]]) [(0x06, 0x05)] (answer [0x01])
      [(.update 0x06 0x04 0x04, true)] = true := by decide

theorem test_clkDis :
    ends .clkDis (holding [(0x06, 0xFF)] [.ok]) [(0x06, 0xFB)] (answer [0x00]) [(.update 0x06 0x04 0x00, false)] = true := by
  decide

/-- V-C2, rows 0xFE and 0xFB. -/
theorem test_clkIsen :
    ends .clkIsen (holding [(0x06, 0xFE)] [.ok]) [(0x06, 0xFE)] (answer [0x00, 0x01]) [(.read 0x06 1, false)] = true ∧
    ends .clkIsen (holding [(0x06, 0xFB)] [.ok]) [(0x06, 0xFB)] (answer [0x00, 0x00]) [(.read 0x06 1, false)] = true := by
  decide

theorem test_clkRecalc :
    ends .clkRecalc (holding [(0x06, 0xFE)] [.ok]) [(0x06, 0xFE)] (answer [0x00, 0x00, 0x04, 0x00, 0x00])
      [(.read 0x06 1, false)] = true := by decide

/-- V-C1: the boundaries and the two ties. -/
theorem test_clkRound :
    [(0, 0), (32, 0), (33, 1), (544, 1), (545, 2), (16896, 2), (16897, 3), (4294967295, 3)].all
      (fun (req, k) => decide (nearestIndex Config.rateTable req = some k)) = true ∧
    ends (.clkRound 544) calm [] (answer [0x00, 0x40, 0x00, 0x00, 0x00]) [] = true := by decide

/-- R189: lengths 1, 4 and 8 are required ones, 3 and 6 are refused; the empty table is allowed (R190). -/
theorem test_rate_table_size :
    [0, 1, 3, 4, 6, 8].map (fun n => tableSized (List.replicate n 1)) = [false, true, false, true, false, true] ∧
    [0, 1, 3].map (fun n => tableAllowed (List.replicate n 1)) = [true, true, false] := by decide

/-- R189: a command of a block with three rates is refused, and its frame is not answered early. -/
theorem test_rate_table_refused (s : State) :
    withTable [1, 64, 1024] (fun s => .next (answerNow (answerClkRound 500) s)) s = .refused .rateTable ∧
    onTable [1, 64, 1024] (some (answerClkRound 500)) = none := ⟨rfl, rfl⟩

/-- V-C4. -/
theorem test_clkSet :
    ends (.clkSet 1) (holding [(0x06, 0xFB)] [.ok]) [(0x06, 0xF8)] (answer [0x00, 0x01, 0x00, 0x00, 0x00])
      [(.update 0x06 0x03 0x00, false)] = true ∧
    ends (.clkSet 1) (holding [(0x06, 0xFB)] [.fail []]) [(0x06, 0xFB)] (answer [0x01])
      [(.update 0x06 0x03 0x00, true)] = true := by decide

/-- V-O. -/
theorem test_ofsRd :
    ends .ofsRd (holding [(0x1E, 0xF6)] [.ok]) [(0x1E, 0xF6)] (answer [0x00, 0xF6]) [(.read 0x1E 1, false)] = true ∧
    (holding [(0x1E, 0xF6)] []).agingValue = -10 := by decide

theorem test_ofsWr :
    ends (.ofsWr 0x80) calm [(0x1E, 0x80)] (answer [0x00]) [(.write 0x1E [0x80], false)] = true ∧
    ends (.ofsWr 0x05) (holding [] [.fail []]) [] (answer [0x01]) [(.write 0x1E [0x05], true)] = true := by decide

/-! ### The chip, the line, reset, the text forms -/

/-- V-A6, every row. -/
theorem test_alarmMatch :
    [[0x00, 0x30, 0x07, 0x02, 0x15, 0x06, 0x05], [0x00, 0x30, 0x07, 0x05, 0x15, 0x06, 0x05],
     [0x00, 0x30, 0x07, 0x02, 0x15, 0x86, 0x05], [0x00, 0x30, 0x47, 0x02, 0x15, 0x06, 0x05],
     [0x00, 0x30, 0x67, 0x02, 0x15, 0x06, 0x05], [0x80, 0x30, 0x07, 0x02, 0x15, 0x06, 0x05],
     [0x01, 0x30, 0x07, 0x02, 0x15, 0x06, 0x05], [0x00, 0x30, 0x07, 0x02, 0x15, 0x06, 0x06],
     [0x00, 0x30, 0x07, 0x02, 0x16, 0x06, 0x05]].map
      (fun t => alarmMatch (timeOfBytes t) (alarmOfBytes [0x00, 0x30, 0x07, 0x15, 0x06, 0x05])) =
      [true, true, true, true, false, true, false, false, false] := by decide

/-- Program P4, step 1, with its `TickFn`. -/
theorem test_chipStep :
    (chipStepWith (fun _ => timeOfBytes [0x00, 0x30, 0x07, 0x02, 0x15, 0x06, 0x05])
      (holding ((block 0x0A [0x59, 0x29, 0x07, 0x02, 0x15, 0x06, 0x05, 0x00, 0x30, 0x07, 0x15, 0x06, 0x05]).set 0x01 0x01)
        [])).reg =
      ((block 0x0A [0x00, 0x30, 0x07, 0x02, 0x15, 0x06, 0x05, 0x00, 0x30, 0x07, 0x15, 0x06, 0x05]).set 0x01 0x01 |>.set
        0x00 0x01) := by decide

/-- Program P7, steps 3 to 5: IRQ.SVC taken up during ALM.WR waits, then finds the flag clear. -/
theorem test_irqSvc_waits_for_lock :
    ends (.almWr 0 30 7 15 6 105 0x01)
      { holding [(0x00, 0x01), (0x01, 0x01)] (List.replicate 3 .ok) with moves := [[], [.serve], [], []] }
      ((block 0x11 [0x00, 0x30, 0x07, 0x15, 0x06, 0x05]).set 0x01 0x01) (answer [0x00])
      [(.write 0x11 [0x00, 0x30, 0x07, 0x15, 0x06, 0x05], false), (.update 0x01 0x01 0x01, false),
       (.update 0x00 0x01 0x00, false)] = true ∧
    ends .irqSvc { holding [(0x01, 0x01)] [.ok] with active := .irq } [(0x01, 0x01)] [.response .irq [0x00]]
      [(.read 0x00 1, false)] = true := by decide

/-- A block reset between two transactions of ALM.WR: the first write stays, the rest is never issued (R240, R241). -/
theorem test_reset_inside_a_command :
    ends (.almWr 0 30 7 15 6 105 0x01)
      { holding [] (List.replicate 3 .ok) with moves := [[], [.reset], [], []] }
      (block 0x11 [0x00, 0x30, 0x07, 0x15, 0x06, 0x05]) [] [] = true := by decide

/-- The spec's written forms (R82, R83). -/
theorem test_text :
    commandText (.ofsWr 0xF6) = "OFS.WR v=-10" ∧ commandText (.clkSet 500) = "CLK.SET req=500" ∧
    responseText .clkSet [0x00, 0x40, 0x00, 0x00, 0x00] = "-> OK rate=64" ∧
    opcodeOfSourceName "set_rate" = some .clkSet := by decide

/-! ### Witnesses: for every statement with hypotheses, states and operands that meet them -/

/-- Nobody interferes and the port fails its first transaction. -/
def failing : State := holding [] [.fail [true, false]]

/-- As `calm`, with A1F and A1IE set. -/
def pending : State := holding [(0x00, 0x01), (0x01, 0x01)] (List.replicate 8 .ok)

/-- The interrupt path holds LOCK with ALM.RD under way; `frames` were sent on the host path. -/
def otherRunning (frames : List Frame) : State :=
  { calm with lock := some .irq, active := .irq, irq := ⟨[], some ⟨.almRd, 1, [0, 0, 0, 0, 0, 0]⟩⟩, host := ⟨frames, none⟩ }

theorem witness_DecodeOfEncode :
    (Instr.timeWr 255 255 255 255 255 255 65535).wf = true ∧ (Instr.clkSet 4294967295).wf = true := by decide

theorem witness_EncodeOfDecodedFrame : decode [0x35, 0xFF, 0xFF, 0xFF, 0xFF] = .ok (.clkSet 4294967295) := by decide

theorem witness_FrameDecodes : TableFrame [0x41, 0xFF] ∧ ¬ TableFrame [0x41] := by decide

theorem witness_StepRunsDecodedCommand :
    let s : State := { calm with turns := [.run .irq], irq := { inbox := [[0x22, 0x01]], flight := none } }
    s.turns = .run .irq :: [] ∧ s.flightOf .irq = none ∧ s.inboxOf .irq = [0x22, 0x01] :: [] ∧
      decode [0x22, 0x01] = .ok (.almEn 0x01) := by decide

theorem witness_StepAnswersIllegalFrame :
    ∀ frame ∈ [[], [0x03, 0x00], [0x10, 0x00], [0x34, 0xF4, 0x01]],
      let s : State := { calm with turns := [.run .host], host := { inbox := [frame], flight := none } }
      ¬ TableFrame frame ∧ s.turns = .run .host :: [] ∧ s.flightOf .host = none ∧ s.inboxOf .host = frame :: [] := by
  decide

theorem witness_StepResumesWaitingCommand :
    let s : State := { calm with turns := [.run .irq], irq := { inbox := [], flight := some ⟨.irqSvc, 0, []⟩ } }
    s.turns = .run .irq :: [] ∧ s.flightOf .irq = some ⟨.irqSvc, 0, []⟩ := by decide

theorem witness_StepServesTheInterruptLine_taken :
    let s : State := { pending with turns := [.serve] }
    s.turns = .serve :: [] ∧ s.irqLine = true ∧ s.isr = .idle ∧ s.flightOf .irq = none := by decide

theorem witness_StepServesTheInterruptLine_not_taken :
    ({ calm with turns := [.serve] } : State).irqLine = false ∧
    ({ pending with turns := [.serve], isr := .servicing } : State).isr = .servicing ∧
    ({ pending with turns := [.serve], irq := ⟨[], some ⟨.timeRd, 0, []⟩⟩ } : State).flightOf .irq ≠ none := by decide

theorem witness_BcdEnc : 255 < 256 ∧ 99 ≤ 99 ∧ 99 < 100 := by decide

theorem witness_BcdRoundTrip : 99 ≤ 99 ∧ bcdValid 0x99 = true ∧ bcdValid 0x9A = false ∧ 99 < 100 := by decide

theorem witness_DecodeHour :
    BitVec.getLsbD (0xBF : Byte) 6 = false ∧
    (BitVec.getLsbD (0x52 : Byte) 6 = true ∧ BitVec.getLsbD (0x52 : Byte) 5 = false) ∧
    (BitVec.getLsbD (0x72 : Byte) 6 = true ∧ BitVec.getLsbD (0x72 : Byte) 5 = true) := by decide

/-- The clauses of every one-transaction command: it runs undisturbed and the port lets it succeed, or fails it. For
TIME.RD, ALM.EN, CLK.EN, CLK.DIS, CLK.ISEN, CLK.RECALC, CLK.SET, OFS.RD and OFS.WR. -/
theorem witness_one_transaction :
    (Quiet 2 calm ∧ PortSays [.ok] calm) ∧ (Quiet 2 failing ∧ PortSays [.fail [true, false]] failing) := by decide

theorem witness_TimeWr_frame : (Instr.timeWr 255 255 255 255 255 255 65535).wf = true := by decide

theorem witness_TimeWr_illegal : ¬ LegalTime 60 59 23 6 31 12 299 ∧ ¬ LegalTime 59 59 23 6 31 12 300 ∧
    ¬ LegalTime 0 0 0 0 0 1 100 ∧ ¬ LegalTime 0 0 0 0 1 1 99 := by decide

theorem witness_TimeWr_written : LegalTime 59 59 23 6 31 12 299 ∧ Quiet 2 calm ∧ PortSays [.ok] calm := by decide

theorem witness_TimeWr_failed : LegalTime 0 0 0 0 1 1 100 ∧ Quiet 2 failing ∧ PortSays [.fail [true, false]] failing := by
  decide

theorem witness_TimeRead : LegalTime 59 59 23 6 31 12 299 ∧ LegalTime 0 0 0 0 1 1 100 ∧ Quiet 4 calm ∧
    PortSays [.ok, .ok] calm := by decide

theorem witness_TimeWrForces24HourMode :
    LegalTime 30 15 12 0 1 1 100 ∧ Quiet 2 (holding [(0x0C, 0x72)] [.ok]) ∧
    PortSays [.ok] (holding [(0x0C, 0x72)] [.ok]) := by decide

theorem witness_TimeRdSeesOneInstant :
    let s : State := { calm with moves := [[.chip, .chip], [.chip]] }
    s.lock = none ∧ s.moves.take 2 = [List.replicate 2 .chip, List.replicate 1 .chip] ∧ PortSays [.ok] s := by decide

theorem witness_AlmRd :
    (Quiet 5 calm ∧ PortSays [.ok, .ok, .ok, .ok] calm) ∧
    ∀ k, k < 4 → Quiet (k + 2) (holding [] (List.replicate k .ok ++ [.fail []])) ∧
      PortSays (List.replicate k .ok ++ [.fail []]) (holding [] (List.replicate k .ok ++ [.fail []])) := by decide

theorem witness_AlmWrRefuses :
    ¬ LegalAlarm 60 0 0 1 1 100 ∧ ¬ LegalAlarm 59 59 23 31 13 299 ∧ ¬ LegalAlarm 59 59 23 31 12 300 ∧
    ((0x02 : Byte) ≠ 0x00 ∧ (0x02 : Byte) ≠ 0x01) := by decide

theorem witness_AlmWrArms :
    ((0x01 : Byte) = 0x00 ∨ (0x01 : Byte) = 0x01) ∧ (Instr.almWr 255 255 255 255 255 65535 0x01).wf = true ∧
    LegalAlarm 59 59 23 31 12 299 ∧ LegalAlarm 0 0 0 1 1 100 ∧ Quiet 4 pending ∧ PortSays [.ok, .ok, .ok] pending := by
  decide

theorem witness_AlmWrFailure :
    LegalAlarm 0 30 7 15 6 205 ∧
    (Quiet 2 (holding [] [.fail [true]]) ∧ PortSays [.fail [true]] (holding [] [.fail [true]])) ∧
    (Quiet 3 (holding [] [.ok, .fail [true]]) ∧ PortSays [.ok, .fail [true]] (holding [] [.ok, .fail [true]])) ∧
    (Quiet 4 (holding [] [.ok, .ok, .fail [true]]) ∧
      PortSays [.ok, .ok, .fail [true]] (holding [] [.ok, .ok, .fail [true]])) := by decide

theorem witness_AlmEn : ((0xFF : Byte) ≠ 0x00 ∧ (0xFF : Byte) ≠ 0x01) ∧
    ((0x00 : Byte) = 0x00 ∨ (0x00 : Byte) = 0x01) ∧ Quiet 2 calm ∧ PortSays [.ok] calm ∧ Quiet 2 failing ∧
    PortSays [.fail [true, false]] failing := by decide

theorem witness_AlarmRead : LegalAlarm 59 59 23 31 12 299 ∧ LegalAlarm 0 0 0 1 1 100 ∧ Quiet 9 calm ∧
    PortSays (List.replicate 7 .ok) calm := by decide

theorem witness_ChipStep : ({ calm with turns := [.chip] } : State).turns = .chip :: [] := by decide

theorem witness_PendingFlagIsSticky :
    pending.a1f = true ∧ (∀ sec min hour mday mon y en, Instr.timeRd ≠ .almWr sec min hour mday mon y en) ∧
    Instr.timeRd ≠ .irqSvc ∧ ∃ t, exec .timeRd pending = .next t := ⟨by decide, by simp, by decide, _, rfl⟩

theorem witness_BlockNeverSetsThePendingFlag :
    calm.moves.take 5 = List.replicate 5 [] ∧ calm.a1f = false ∧ ∃ t, exec (.almWr 0 0 0 1 1 100 1) calm = .next t :=
  ⟨by decide, by decide, _, rfl⟩

theorem witness_AlarmStateMachine : Quiet 4 pending ∧ PortSays [.ok, .ok, .ok] pending ∧ LegalAlarm 59 59 23 31 12 299 := by
  decide

theorem witness_FlagSetDuringAlmWrIsLost :
    let s : State := { calm with moves := [[], [.chip], [.chip, .chip], []] }
    ((0x01 : Byte) = 0x00 ∨ (0x01 : Byte) = 0x01) ∧ LegalAlarm 0 30 7 15 6 105 ∧ s.lock = none ∧
    s.moves.take 4 = [List.replicate 0 .chip, List.replicate 1 .chip, List.replicate 2 .chip, []] ∧
    PortSays [.ok, .ok, .ok] s := by decide

theorem witness_ClkRates : 4294967295 < 2 ^ 32 ∧ Quiet 2 calm ∧ PortSays [.ok] calm := by decide

theorem witness_NearestIndex : ([] : List Nat) = [] ∧ [7] ≠ [] ∧ 0 < [7].length := by decide

theorem witness_UnsupportedRate :
    ∃ t, exec .clkRecalc { calm with outbox := [.response .irq [0x03]] } = .next t := ⟨_, rfl⟩

theorem witness_Recalc : Quiet 4 calm ∧ PortSays [.ok, .ok] calm := by decide

theorem witness_AgingRead :
    let s : State := { calm with moves := [[], [.chip, .chip], [], []] }
    s.lock = none ∧ s.moves.take 4 = [[], List.replicate 2 .chip, [], []] ∧ PortSays [.ok, .ok] s := by decide

theorem witness_IrqSvc_pending : Quiet 3 pending ∧ PortSays [.ok, .ok] pending ∧ (pending.byteAt 0x00).getLsbD 0 = true := by
  decide

theorem witness_IrqSvc_clear : Quiet 2 calm ∧ PortSays [.ok] calm ∧ (calm.byteAt 0x00).getLsbD 0 = false := by decide

theorem witness_IrqSvc_clear_fails :
    let s := holding [(0x00, 0x01)] [.ok, .fail [true]]
    Quiet 3 s ∧ PortSays [.ok, .fail [true]] s ∧ (s.byteAt 0x00).getLsbD 0 = true := by decide

theorem witness_IrqSvc_read_fails : Quiet 2 failing ∧ PortSays [.fail [true, false]] failing := by decide

theorem witness_IrqSvc_no_other : hasIrqSvc (calm.withFlight calm.active none).host = false ∧
    hasIrqSvc (calm.withFlight calm.active none).irq = false := by decide

theorem witness_IrqSvcAnswersNothingButHandled :
    (∃ t, exec .irqSvc { pending with outbox := [.response .host [0x01]] } = .next t) ∧ ([0x01] : Frame) ≠ [0x00] :=
  ⟨⟨_, rfl⟩, by decide⟩

theorem witness_exec_answers : calm.lock = none ∧ (∃ t, exec .ofsRd calm = .next t) ∧ (∃ t, exec .irqSvc calm = .next t) ∧
    ∃ t, exec (.bcdEnc 100) calm = .next t := ⟨rfl, ⟨_, rfl⟩, ⟨_, rfl⟩, _, rfl⟩

/-- R54, R107, R78: what the host path does while the interrupt path holds LOCK. -/
theorem test_other_path_moves :
    performMove (.run .host) (otherRunning [[0x01, 0x59, 0x7F], [0x40]]) =
      { otherRunning [[0x40]] with outbox := [.response .host [0x00, 0x3B]] } ∧
    performMove (.run .host) (otherRunning [[0x12]]) =
      { otherRunning [] with outbox := [.response .host [0x7F]] } ∧
    performMove (.run .host) (otherRunning [[0x10]]) =
      { otherRunning [] with host := ⟨[], some ⟨.timeRd, 0, []⟩⟩ } := by decide

/-- Frames of commands that issue transactions: they wait. -/
theorem witness_CommandWaits_waits :
    ∀ frame ∈ [[0x10], [0x23], [0x22, 0x01], [0x35, 0xF4, 0x01, 0x00, 0x00]],
      let s := otherRunning [frame, [0x40]]
      Path.host ≠ s.active ∧ s.flightOf .host = none ∧ s.inboxOf .host = frame :: [[0x40]] ∧
        ((decode frame).toOption.map fun i => decide (issues i ≠ [])) = some true := by decide

/-- Frames of commands that issue none, by their kind or for their operands: they are answered at once. -/
theorem witness_CommandWaits_answered :
    ∀ frame ∈ [[0x01, 0x59, 0x7F], [0x02, 0x63], [0x02, 0x64], [0x34, 0xF4, 0x01, 0x00, 0x00], [0x22, 0x02]],
      let s := otherRunning [frame]
      Path.host ≠ s.active ∧ s.flightOf .host = none ∧ s.inboxOf .host = frame :: [] ∧
        ((decode frame).toOption.map fun i => decide (issues i = [])) = some true := by decide

theorem witness_CommandWaits_illegal :
    ∀ frame ∈ [[], [0x12], [0x10, 0x00]],
      let s := otherRunning [frame]
      Path.host ≠ s.active ∧ s.flightOf .host = none ∧ s.inboxOf .host = frame :: [] ∧ ¬ TableFrame frame := by decide

/-- A command that already waits, the running path itself, a path with nothing to do. -/
theorem witness_CommandWaits_unchanged :
    (let s : State := { otherRunning [] with host := ⟨[[0x40]], some ⟨.irqSvc, 0, []⟩⟩, isr := .servicing }
     s.flightOf .host = some ⟨.irqSvc, 0, []⟩ ∧ issues .irqSvc ≠ [] ∧ s.isr = .servicing) ∧
    (let s : State := { otherRunning [] with host := ⟨[], some ⟨.clkEn, 0, []⟩⟩ }
     s.flightOf .host = some ⟨.clkEn, 0, []⟩ ∧ issues .clkEn ≠ [] ∧ Instr.clkEn ≠ .irqSvc) ∧
    Path.irq = (otherRunning [[0x40]]).active ∧
    (otherRunning []).flightOf .host = none ∧ (otherRunning []).inboxOf .host = [] := by decide

theorem witness_CommandsStoreOnlyToTheirTargets :
    calm.moves.take 5 = List.replicate 5 [] ∧ 0x1D ∉ targets (.ofsWr 0x01) ∧ 0x1F ∉ targets (.ofsWr 0x01) ∧
    ∃ t, exec (.ofsWr 0x01) calm = .next t := ⟨by decide, by decide, by decide, _, rfl⟩

theorem witness_OthersTouchOnlyTheChipBytes :
    0x06 ∉ targets .timeRd ∧ 0x06 ∉ chipAddrs ∧ 0x11 ∉ chipAddrs ∧ ∃ t, exec .timeRd calm = .next t :=
  ⟨by decide, by decide, by decide, _, rfl⟩

theorem witness_UnnamedBits :
    (∃ t, exec (.clkSet 500) calm = .next t) ∧ (∃ t, exec .clkEn calm = .next t) ∧
    (∀ sec min hour mday mon y en, Instr.clkEn ≠ .almWr sec min hour mday mon y en) ∧ (∀ b, Instr.clkEn ≠ .almEn b) ∧
    (∀ req, Instr.clkEn ≠ .clkSet req) ∧ Instr.clkSet 500 ≠ .clkEn ∧ Instr.clkSet 500 ≠ .clkDis :=
  ⟨⟨_, rfl⟩, ⟨_, rfl⟩, by simp, by simp, by simp, by simp, by simp⟩

theorem witness_CommandsIssue : ∃ t, exec .almRd calm = .next t := ⟨_, rfl⟩

/-- The whole row issued: commands with transactions, without, and IRQ.SVC with the flag set and clear. -/
theorem witness_CommandsIssue_all :
    (∀ i ∈ [.almRd, .almWr 0 30 7 15 6 205 0x01, .bcdEnc 100, .timeWr 60 0 0 0 1 1 100, .irqSvc],
      Quiet ((issues i).length + 1) pending ∧ PortSays (List.replicate (issues i).length .ok) pending) ∧
    (pending.byteAt 0x00).getLsbD 0 = true ∧
    Quiet 3 calm ∧ PortSays [.ok, .ok] calm ∧ (calm.byteAt 0x00).getLsbD 0 = false := by decide

/-- The line asks for service at point `k` of a host command of `n` transactions, by another source. -/
def servedAt (k n : Nat) : State :=
  { calm with irqOther := true, moves := List.replicate k [] ++ [[.serve]] ++ List.replicate (n - k) [], turns := [.run .irq] }

/-- The first point and the last, for a command of one transaction and for ALM.WR. -/
theorem witness_InterruptTakenUp :
    ∀ i ∈ [.almEn 0x01, .almWr 0 30 7 15 6 205 0x01, .timeRd], ∀ k ∈ [0, 1, (issues i).length],
      let s := servedAt k (issues i).length
      issues i ≠ [] ∧ i ≠ .irqSvc ∧ k ≤ (issues i).length ∧ s.active = .host ∧ s.lock = none ∧ s.isr = .idle ∧
        s.flightOf .irq = none ∧ s.turns = .run .irq :: [] ∧
        s.moves.take ((issues i).length + 1) =
          List.replicate k [] ++ [[.serve]] ++ List.replicate ((issues i).length - k) [] ∧
        PortSays (List.replicate (issues i).length .ok) s ∧
        State.irqLine { s with reg := scriptReg ((issues i).take k) s.reg } = true := by decide

/-- The same by the alarm's own flag, which ALM.WR's enable update lets onto the line. -/
theorem witness_InterruptTakenUp_enabled :
    let i : Instr := .almWr 0 30 7 15 6 205 0x01
    State.irqLine { pending with reg := scriptReg ((issues i).take 2) [(0x00, 0x01)] } = true ∧
      State.irqLine { pending with reg := [(0x00, 0x01)] } = false := by decide

theorem witness_InterruptNotTakenUp :
    calm.irqLine = false ∧ ({ pending with isr := .servicing } : State).isr = .servicing ∧
    ({ pending with irq := ⟨[], some ⟨.timeRd, 0, []⟩⟩ } : State).flightOf .irq ≠ none ∧
    ({ pending with active := .irq } : State).active = .irq := by decide

theorem witness_BlockReset : ({ otherRunning [] with turns := [.reset] } : State).turns = .reset :: [] := by decide

theorem witness_Invariant :
    ({ calm with turns := [.chip] } : State).inv = true ∧ ∃ t, step { calm with turns := [.chip] } = .next t :=
  ⟨by decide, _, rfl⟩

theorem witness_ResetMeetsTheInvariant : Memory.wf [(0x00, 0x81), (0xFF, 0x01)] = true := by decide

theorem witness_EqualBytes :
    Memory.wf [(0x00, 0x81)] = true ∧ Memory.wf (Memory.set [] 0x00 0x81) = true ∧
    ∀ a, a < 256 → Memory.get [(0x00, 0x81)] a = Memory.get (Memory.set [] 0x00 0x81) a :=
  ⟨by decide, by decide, fun _ _ => rfl⟩

end Sys2Proof.Tests
end

section
/-! SUPPORT. The shared operations of the earlier layer by case (one transaction, the ends of a command), the transactions a
command can issue, and the principle by which a proof about a whole command is a proof about its parts, with the
points that are left counted: what a running command keeps, and what it then ends in. -/

namespace Sys2Proof.Machine

/-! ### The transactions of a command, by kind (R49) -/

/-- The transactions command `i` may issue: reads, block writes to its targets above the control registers, and masked
updates of one flag or of the rate index (R38, R49). -/
inductive Issued (i : Instr) : Xact → Prop where
  | read (addr len : Nat) : Issued i (.read addr len)
  | block (addr : Nat) (buf : List Byte) (above : 0x0A ≤ addr)
      (named : ∀ a, addr ≤ a → a < addr + buf.length → a ∈ targets i) : Issued i (.write addr buf)
  | clearPending (named : 0x00 ∈ targets i) : Issued i (.update 0x00 0x01 0x00)
  | setEnable (val : Byte) (named : 0x01 ∈ targets i) : Issued i (.update 0x01 0x01 val)
  | setOutput (val : Byte) (hi : i = .clkEn ∨ i = .clkDis) : Issued i (.update 0x06 0x04 val)
  | setRate (req : Nat) (val : Byte) (hi : i = .clkSet req) : Issued i (.update 0x06 0x03 val)

/-- Every transaction of a row of R49 is of one of these kinds. -/
theorem issued_of_mem {i : Instr} {x : Xact} (hx : x ∈ issues i) : Issued i x := by
  cases i with
  | bcdDec | bcdEnc | clkRound => simp [issues] at hx
  | timeRd | clkIsen | clkRecalc | ofsRd => obtain rfl := List.mem_singleton.1 hx; exact .read _ _
  | almRd =>
    simp only [issues, List.mem_cons, List.not_mem_nil, or_false] at hx
    rcases hx with rfl | rfl | rfl | rfl <;> exact .read _ _
  | timeWr sec min hour wday mday mon y =>
    simp only [issues] at hx
    split at hx
    · obtain rfl := List.mem_singleton.1 hx
      exact .block _ _ (by decide) fun a h1 h2 => by simp [packedTime] at h2; simp [targets]; omega
    · cases hx
  | almWr sec min hour mday mon y en =>
    simp only [issues] at hx
    split at hx
    · simp only [List.mem_cons, List.not_mem_nil, or_false] at hx
      rcases hx with rfl | rfl | rfl
      · exact .block _ _ (by decide) fun a h1 h2 => by simp [packedAlarm] at h2; simp [targets]; omega
      · exact .setEnable _ (by simp [targets])
      · exact .clearPending (by simp [targets])
    · cases hx
  | almEn b =>
    simp only [issues] at hx
    split at hx
    · obtain rfl := List.mem_singleton.1 hx; exact .setEnable _ (by simp [targets])
    · cases hx
  | irqSvc =>
    simp only [issues, List.mem_cons, List.not_mem_nil, or_false] at hx
    rcases hx with rfl | rfl
    · exact .read _ _
    · exact .clearPending (by simp [targets])
  | clkEn => obtain rfl := List.mem_singleton.1 hx; exact .setOutput _ (.inl rfl)
  | clkDis => obtain rfl := List.mem_singleton.1 hx; exact .setOutput _ (.inr rfl)
  | clkSet req => obtain rfl := List.mem_singleton.1 hx; exact .setRate req _ rfl
  | ofsWr v =>
    obtain rfl := List.mem_singleton.1 hx
    exact .block _ _ (by decide) fun a h1 h2 => by simp at h2; simp [targets]; omega

/-- No row of R49 holds more than four transactions. -/
theorem issues_length_le (i : Instr) : (issues i).length ≤ 4 := by
  cases i with
  | timeWr | almWr | almEn => simp only [issues]; split <;> simp
  | _ => simp [issues]

/-- INT_EN1 is a target of ALM.WR and ALM.EN only (R155, R157). -/
theorem mem_targets_intEn1 {i : Instr} (h : 0x01 ∈ targets i) :
    (∃ sec min hour mday mon y en, i = .almWr sec min hour mday mon y en) ∨ ∃ b, i = .almEn b := by
  cases i <;> simp_all [targets]

/-! ### What a transaction leaves unchanged -/

/-- A block write leaves every byte outside its block alone, whatever the port answers (R42). -/
theorem xactReg_write_get (m : Memory) (ans : PortAnswer) {addr : Nat} {buf : List Byte} {a : Nat}
    (h : a < addr ∨ addr + buf.length ≤ a) : (xactReg (.write addr buf) ans m).get a = m.get a := by
  cases ans with
  | ok => exact m.writeBytes_get_outside addr buf h
  | fail took =>
    have hlen : (mixBytes took (m.readBytes addr buf.length) buf).length = buf.length := mixBytes_length took (by simp)
    exact m.writeBytes_get_outside addr _ (by rwa [hlen])

/-- A masked update leaves its byte as it was or merged, whatever the port answers (R43). -/
theorem xactReg_update_cases (m : Memory) (ans : PortAnswer) (addr : Nat) (mask val : Byte) :
    xactReg (.update addr mask val) ans m = m ∨
      xactReg (.update addr mask val) ans m = m.set addr (mergeBits (m.get addr) mask val) := by
  cases ans with
  | ok => exact .inr rfl
  | fail took =>
    simp only [xactReg]
    split
    · exact .inr rfl
    · exact .inl rfl

/-- A masked update leaves every other byte alone (R43). -/
theorem xactReg_update_get_ne (m : Memory) (ans : PortAnswer) {addr a : Nat} (mask val : Byte) (h : a ≠ addr) :
    (xactReg (.update addr mask val) ans m).get a = m.get a := by
  rcases xactReg_update_cases m ans addr mask val with h' | h' <;> rw [h']
  exact Memory.get_set_ne m _ h

/-- Bit `k` of a merged byte: the new bit under the mask, the old one elsewhere (R43). -/
theorem mergeBits_getLsbD (old mask val : Byte) (k : Nat) :
    (mergeBits old mask val).getLsbD k = if mask.getLsbD k then val.getLsbD k else old.getLsbD k := by
  by_cases hk : k < 8
  · simp only [mergeBits, BitVec.getLsbD_or, BitVec.getLsbD_and, BitVec.getLsbD_not, hk]
    cases mask.getLsbD k <;> simp
  · simp [getLsbD_byte _ (Nat.le_of_not_lt hk)]

/-- A masked update leaves every bit outside its mask alone, in its own byte too (R43). -/
theorem xactReg_update_getLsbD (m : Memory) (ans : PortAnswer) {addr k : Nat} {mask : Byte} (val : Byte) (a : Nat)
    (h : mask.getLsbD k = false) :
    ((xactReg (.update addr mask val) ans m).get a).getLsbD k = (m.get a).getLsbD k := by
  by_cases ha : a = addr
  · subst ha
    rcases xactReg_update_cases m ans a mask val with h' | h' <;> rw [h']
    by_cases hr : a < Config.regSize
    · simp [Memory.get_set_self m _ hr, mergeBits_getLsbD, h]
    · simp [Memory.set, hr]
  · rw [xactReg_update_get_ne m ans mask val ha]

/-- A transaction of a command leaves every byte outside the command's targets alone (R38, R49). -/
theorem xactReg_get_of_not_target {i : Instr} {x : Xact} (hx : x ∈ issues i) {a : Nat} (ha : a ∉ targets i)
    (ans : PortAnswer) (m : Memory) : (xactReg x ans m).get a = m.get a := by
  cases issued_of_mem hx with
  | read addr len => rfl
  | block addr buf _ named =>
    refine xactReg_write_get m ans ?_
    by_contra hin
    exact ha (named a (by omega) (by omega))
  | clearPending named => exact xactReg_update_get_ne m ans _ _ fun h => ha (h ▸ named)
  | setEnable val named => exact xactReg_update_get_ne m ans _ _ fun h => ha (h ▸ named)
  | setOutput val hi => exact xactReg_update_get_ne m ans _ _ fun h => ha (by rcases hi with rfl | rfl <;> simp [targets, h])
  | setRate req val hi => exact xactReg_update_get_ne m ans _ _ fun h => ha (by subst hi; simp [targets, h])

/-! ### One transaction and the ends of a command, by case -/

/-- What `issue` can do after the point before the transaction: find the command gone by a reset, or issue it. -/
theorem issue_cases (x : Xact) (s : State) :
    ((interfere s).flightOf (interfere s).active = none ∧ issue x s = (.reset, interfere s)) ∨
    ∃ f a e, (interfere s).flightOf (interfere s).active = some f ∧ e ≠ .reset ∧
      issue x s = (e, applyXact x a f (popAnswer (interfere s))) := by
  simp only [issue]
  cases h : (interfere s).flightOf (interfere s).active with
  | none => exact .inl ⟨rfl, rfl⟩
  | some f => exact .inr ⟨f, nextAnswer (interfere s), _, rfl, by split <;> simp, rfl⟩

/-- What `conclude` can do: leave a command that a reset has ended, find after its last point that one has, or release LOCK
and respond. -/
theorem conclude_cases (reply : List Byte → Frame) (r : Ended × State) :
    (r.1 = .reset ∧ conclude reply r = r.2) ∨
    ((interfere r.2).flightOf (interfere r.2).active = none ∧ conclude reply r = interfere r.2) ∨
    ∃ f frame, (interfere r.2).flightOf (interfere r.2).active = some f ∧
      conclude reply r = respond (interfere r.2).active frame (release (interfere r.2)) := by
  obtain ⟨e, s⟩ := r
  cases e with
  | reset => exact .inl ⟨rfl, rfl⟩
  | done =>
    simp only [conclude]
    cases h : (interfere s).flightOf (interfere s).active with
    | none => exact .inr (.inl ⟨rfl, rfl⟩)
    | some f => exact .inr (.inr ⟨f, _, rfl, rfl⟩)
  | busError =>
    simp only [conclude]
    cases h : (interfere s).flightOf (interfere s).active with
    | none => exact .inr (.inl ⟨rfl, rfl⟩)
    | some f => exact .inr (.inr ⟨f, _, rfl, rfl⟩)

/-- IRQ.SVC once LOCK is released and, where there is something to notify, its event is out (R220, R223). -/
def notified (notify : Bool) (s : State) : State := if notify then emitAlarm (release s) else release s

/-- IRQ.SVC returned: `ISR_STATE` as log entry 8 says, and the answer "handled" (R220). -/
def irqSvcReturned (notify : Bool) (s : State) : State :=
  respond (notified notify s).active (okFrame []) { notified notify s with isr := isrNow (notified notify s) }

@[simp] theorem irqSvcReturned_reg (notify : Bool) (s : State) : (irqSvcReturned notify s).reg = s.reg := by
  cases notify <;> simp [irqSvcReturned, notified]

@[simp] theorem irqSvcReturned_lock (notify : Bool) (s : State) : (irqSvcReturned notify s).lock = none := by
  cases notify <;> simp [irqSvcReturned, notified]

@[simp] theorem irqSvcReturned_isr (notify : Bool) (s : State) :
    (irqSvcReturned notify s).isr = isrNow (irqSvcReturned notify s) := by
  cases notify <;> rfl

@[simp] theorem irqSvcReturned_outbox (notify : Bool) (s : State) : (irqSvcReturned notify s).outbox =
    s.outbox ++ (if notify then [.alarmEvent] else []) ++ [.response s.active [0x00]] := by
  cases notify <;> simp [irqSvcReturned, notified, okFrame, statusCode]

@[simp] theorem flightOf_irqSvcReturned (notify : Bool) (s : State) (q : Path) :
    (irqSvcReturned notify s).flightOf q = (release s).flightOf q := by
  cases notify <;> cases q <;> rfl

/-- What the exit of IRQ.SVC can do after its last point: find the command gone by a reset, or return. -/
theorem exitIrqSvc_cases (notify : Bool) (s : State) :
    ((interfere s).flightOf (interfere s).active = none ∧ exitIrqSvc notify s = interfere s) ∨
    ∃ f, (interfere s).flightOf (interfere s).active = some f ∧
      exitIrqSvc notify s = irqSvcReturned notify (interfere s) := by
  simp only [exitIrqSvc]
  cases h : (interfere s).flightOf (interfere s).active with
  | none => exact .inl ⟨rfl, rfl⟩
  | some f => exact .inr ⟨f, rfl, rfl⟩

/-! ### A whole command from its parts -/

/-- `P n` is kept while command `i` runs with `n` points still to come at most, and a command that ends, by a reset of the
block, by its release and response, or by the return of IRQ.SVC, ends in `Q`. -/
structure Carries (i : Instr) (P : Nat → State → Prop) (Q : State → Prop) : Prop where
  fewer : Antitone P
  point : ∀ n u, P (n + 1) u → P n (interfere u)
  xact : ∀ x ∈ issues i, ∀ n a f u, u.flightOf u.active = some f → P n u → P n (applyXact x a f (popAnswer u))
  ended : ∀ u, u.flightOf u.active = none → P 0 u → Q u
  replied : i ≠ .irqSvc → ∀ u frame f, u.flightOf u.active = some f → P 0 u → Q (respond u.active frame (release u))
  returned : i = .irqSvc → ∀ u notify f, u.flightOf u.active = some f → P 0 u → Q (irqSvcReturned notify u)

section
variable {i : Instr} {P : Nat → State → Prop} {Q : State → Prop}

/-- A list of the command's transactions uses up one point each at most; where it reports a reset, no command is in
flight any more. -/
theorem Carries.issueAll (h : Carries i P Q) (n : Nat) (xs : List Xact) (hxs : ∀ x ∈ xs, x ∈ issues i) {s : State}
    (hs : P (xs.length + n) s) : P n (issueAll xs s).2 ∧
      ((issueAll xs s).1 = .reset → (issueAll xs s).2.flightOf (issueAll xs s).2.active = none) := by
  induction xs generalizing s with
  | nil => exact ⟨by simpa [Machine.issueAll] using hs, by simp [Machine.issueAll]⟩
  | cons x xs ih =>
    have hless : n ≤ xs.length + n := by omega
    have hp : P (xs.length + n) (interfere s) := h.point _ _ (by rwa [List.length_cons, Nat.add_right_comm] at hs)
    simp only [Machine.issueAll]
    rcases issue_cases x s with ⟨hf, hx⟩ | ⟨f, a, e, hf, he, hx⟩ <;> rw [hx]
    · exact ⟨h.fewer hless _ hp, fun _ => hf⟩
    · have hq := h.xact x (hxs x (by simp)) _ a f _ hf hp
      cases e with
      | done => exact ih (fun y hy => hxs y (by simp [hy])) hq
      | busError => exact ⟨h.fewer hless _ hq, by simp⟩
      | reset => exact absurd rfl he

/-- The end of a command that propagates bus errors. -/
theorem Carries.conclude (h : Carries i P Q) (hi : i ≠ .irqSvc) (reply : List Byte → Frame) {r : Ended × State}
    (hr : P 1 r.2) (hreset : r.1 = .reset → r.2.flightOf r.2.active = none) : Q (conclude reply r) := by
  have hp : P 0 (interfere r.2) := h.point 0 _ hr
  rcases conclude_cases reply r with ⟨he, hx⟩ | ⟨hf, hx⟩ | ⟨f, frame, hf, hx⟩ <;> rw [hx]
  · exact h.ended _ (hreset he) (h.fewer (Nat.zero_le 1) _ hr)
  · exact h.ended _ hf hp
  · exact h.replied hi _ _ _ hf hp

/-- The end of IRQ.SVC, which swallows them. -/
theorem Carries.exitIrqSvc (h : Carries .irqSvc P Q) (notify : Bool) {s : State} (hs : P 1 s) :
    Q (exitIrqSvc notify s) := by
  have hp : P 0 (interfere s) := h.point 0 _ hs
  rcases exitIrqSvc_cases notify s with ⟨hf, hx⟩ | ⟨f, hf, hx⟩ <;> rw [hx]
  · exact h.ended _ hf hp
  · exact h.returned rfl _ _ _ hf hp

/-- IRQ.SVC once LOCK is held: its read, its clear if the flag was seen, its exit (R220). -/
theorem Carries.bodyIrqSvc (h : Carries .irqSvc P Q) {s : State} (hs : P 3 s) : Q (bodyIrqSvc s) := by
  obtain ⟨h1, hreset1⟩ := h.issueAll 2 [readStatus1] (by decide) hs
  simp only [Machine.bodyIrqSvc]
  split
  · exact h.ended _ (hreset1 ‹_›) (h.fewer (by omega) _ h1)
  · exact h.exitIrqSvc _ (h.fewer (by omega) _ h1)
  · split
    · obtain ⟨h2, hreset2⟩ := h.issueAll 1 [clearA1f] (by decide) h1
      split
      · exact h.ended _ (hreset2 ‹_›) (h.fewer (by omega) _ h2)
      · exact h.exitIrqSvc _ h2
      · exact h.exitIrqSvc _ h2
    · exact h.exitIrqSvc _ (h.fewer (by omega) _ h1)

/-- A whole command: it is answered before LOCK, it waits, or it takes LOCK, runs and ends. -/
theorem Carries.exec (h : Carries i P Q) {s t : State}
    (hanswer : ∀ frame, answerBeforeLock i = some frame → Q (answerNow frame s))
    (hwait : answerBeforeLock i = none → s.lock ≠ none → Q (takeUp s.active i s))
    (hstart : answerBeforeLock i = none → s.lock = none → P ((issues i).length + 1) (acquire (takeUp s.active i s)))
    (he : exec i s = .next t) : Q t := by
  rcases exec_cases i s with ⟨frame, ha, hx⟩ | ⟨ha, hi, hin, reply, _, hx⟩ | rfl
  · cases hx.symm.trans he
    exact hanswer frame ha
  · rw [hx, runScript] at he
    rcases locked_cases i (issues i) (fun s' => Machine.conclude reply (Machine.issueAll (issues i) s')) s with
      ⟨hout, _⟩ | ⟨_, hl, hb⟩ | ⟨_, hl, hb⟩
    · simp [hin] at hout
    · cases hb.symm.trans he
      obtain ⟨hp, hreset⟩ := h.issueAll 1 (issues i) (fun _ hx => hx) (hstart ha hl)
      exact h.conclude hi reply hp hreset
    · cases hb.symm.trans he
      exact hwait ha hl
  · rcases irqSvc_cases s with ⟨hl, hx⟩ | ⟨hl, hx⟩ <;> cases hx.symm.trans he
    · exact h.bodyIrqSvc (hstart rfl hl)
    · exact hwait rfl hl

end

/-! ### A command during which no other agent moves -/

/-- At the next `n` points no other agent moves (R55). -/
def Alone (n : Nat) (s : State) : Prop := s.moves.take n = List.replicate n []

theorem alone_antitone : Antitone Alone := by
  intro n m h s hm
  have := congrArg (List.take n) (show s.moves.take m = _ from hm)
  rwa [List.take_take, List.take_replicate, Nat.min_eq_left h] at this

/-- At such a point nothing happens but that it passes. -/
theorem interfere_alone {n : Nat} {s : State} (h : Alone (n + 1) s) :
    interfere s = { s with moves := s.moves.tail } ∧ Alone n (interfere s) := by
  cases hm : s.moves with
  | nil => simp [Alone, hm, List.replicate_succ] at h
  | cons ms rest =>
    obtain ⟨rfl, hrest⟩ : ms = [] ∧ rest.take n = List.replicate n [] := by
      simpa [Alone, hm, List.replicate_succ] using h
    rw [interfere_quiet hm]
    exact ⟨rfl, hrest⟩

/-- What the transactions of a command keep true of the register space is true of it after the command if no other agent
moves in its course, however the port answers (R38). -/
theorem exec_reg_induct_alone {R : Memory → Prop} (i : Instr) {s t : State} (halone : Alone 5 s)
    (hxact : ∀ x ∈ issues i, ∀ a m, R m → R (xactReg x a m)) (h : R s.reg) (he : exec i s = .next t) : R t.reg := by
  have hc : Carries i (fun n u => Alone n u ∧ R u.reg) (fun u => R u.reg) :=
    { fewer := fun n m hnm u hu => ⟨alone_antitone hnm u hu.1, hu.2⟩
      point := fun n u ⟨hu, hr⟩ => by
        obtain ⟨hi, ha⟩ := interfere_alone hu
        exact ⟨ha, by rw [hi]; exact hr⟩
      xact := fun x hx n a f u _ ⟨hu, hr⟩ => ⟨by simpa [Alone] using hu, by simpa using hxact x hx a _ hr⟩
      ended := fun u _ hu => hu.2
      replied := fun _ u _ _ _ hu => by simpa using hu.2
      returned := fun _ u _ _ _ hu => by simpa using hu.2 }
  refine hc.exec (fun frame _ => ?_) (fun _ _ => by simpa using h) (fun _ _ => ⟨?_, by simpa using h⟩) he
  · simpa [answerNow] using h
  · have := issues_length_le i
    exact alone_antitone (show (issues i).length + 1 ≤ 5 by omega) _ (by simpa [Alone] using halone)

end Sys2Proof.Machine
end

section
/-! SUPPORT. The invariant of the states between steps, and what takes its place while a command runs: every move of
another agent, every transaction and every end of a command keeps it. -/

namespace Sys2Proof.Machine

/-! ### The parts of the invariant, over the commands in flight -/

/-- Some path has an IRQ.SVC in flight. -/
def State.servesIrq (s : State) : Prop := ∃ p f, s.flightOf p = some f ∧ f.instr = .irqSvc

/-- The handler is servicing exactly when an IRQ.SVC is in flight (R29, log entry 8). -/
def State.handlerAgrees (s : State) : Prop := s.isr = .servicing ↔ s.servesIrq

/-- A command in flight on path `p` waits for LOCK with nothing issued (R33, R54). -/
def State.waitsAt (s : State) (p : Path) : Prop :=
  ∀ f, s.flightOf p = some f → f.index = 0 ∧ f.bytes = [] ∧ answerBeforeLock f.instr = none

theorem hasIrqSvc_iff (s : State) (p : Path) :
    hasIrqSvc (s.pathState p) = true ↔ ∃ f, s.flightOf p = some f ∧ f.instr = .irqSvc := by
  simp only [hasIrqSvc, State.flightOf]
  cases (s.pathState p).flight <;> simp

theorem isrNow_eq_servicing (s : State) : isrNow s = .servicing ↔ s.servesIrq := by
  have hboth : s.servesIrq ↔ hasIrqSvc s.host = true ∨ hasIrqSvc s.irq = true := by
    rw [show s.host = s.pathState .host from rfl, show s.irq = s.pathState .irq from rfl, hasIrqSvc_iff, hasIrqSvc_iff]
    constructor
    · rintro ⟨p, h⟩
      cases p
      · exact .inl h
      · exact .inr h
    · rintro (h | h) <;> exact ⟨_, h⟩
  rw [hboth, isrNow, ← Bool.or_eq_true]
  split <;> simp_all

theorem isr_eq_isrNow_iff (s : State) : s.isr = isrNow s ↔ s.handlerAgrees := by
  rw [State.handlerAgrees, ← isrNow_eq_servicing]
  cases s.isr <;> cases isrNow s <;> simp

theorem waitsForLock_iff (s : State) (p : Path) : waitsForLock (s.pathState p) = true ↔ s.waitsAt p := by
  simp only [waitsForLock, State.waitsAt, State.flightOf]
  cases (s.pathState p).flight <;> simp [and_assoc]

/-- The invariant in these terms. -/
theorem inv_iff (s : State) :
    s.inv = true ↔ s.reg.wf = true ∧ s.lock = none ∧ s.handlerAgrees ∧ ∀ p, s.waitsAt p := by
  have hwaits : (∀ p, s.waitsAt p) ↔ waitsForLock s.host = true ∧ waitsForLock s.irq = true := by
    rw [show s.host = s.pathState .host from rfl, show s.irq = s.pathState .irq from rfl, waitsForLock_iff,
      waitsForLock_iff]
    exact ⟨fun h => ⟨h _, h _⟩, fun ⟨hh, hi⟩ p => by cases p <;> assumption⟩
  rw [hwaits, ← isr_eq_isrNow_iff]
  simp [State.inv, and_assoc]

/-! ### What the parts depend on -/

section
variable {u v : State} (hflight : ∀ q, v.flightOf q = u.flightOf q)
include hflight

theorem servesIrq_congr : v.servesIrq ↔ u.servesIrq := by simp only [State.servesIrq, hflight]

theorem waitsAt_congr (p : Path) : v.waitsAt p ↔ u.waitsAt p := by simp only [State.waitsAt, hflight]

theorem handlerAgrees_congr (hisr : v.isr = u.isr) : v.handlerAgrees ↔ u.handlerAgrees := by
  simp only [State.handlerAgrees, hisr, servesIrq_congr hflight]

/-- A state in which at most the register space changed, to a canonical one, and what the invariant does not speak of. -/
theorem inv_of_same (h : u.inv = true) (hreg : v.reg.wf = true) (hlock : v.lock = u.lock) (hisr : v.isr = u.isr) :
    v.inv = true := by
  obtain ⟨_, hfree, hagree, hwait⟩ := (inv_iff u).1 h
  exact (inv_iff v).2 ⟨hreg, hlock.trans hfree, (handlerAgrees_congr hflight hisr).2 hagree,
    fun p => (waitsAt_congr hflight p).2 (hwait p)⟩

end

/-- A command taken up, on a path that is free or waits with that very command, keeps the handler in agreement. -/
theorem handlerAgrees_takeUp {s : State} {p : Path} {i : Instr} (h : s.handlerAgrees)
    (hown : ∀ f, s.flightOf p = some f → f.instr = i) : (takeUp p i s).handlerAgrees := by
  have hself := flightOf_takeUp_self s p i
  rw [State.handlerAgrees, takeUp_isr]
  split
  · exact ⟨fun _ => ⟨p, _, hself, ‹_›⟩, fun _ => rfl⟩
  · rename_i hi
    refine Iff.trans h ?_
    constructor <;> rintro ⟨q, f, hf, hs⟩
    · refine ⟨q, f, ?_, hs⟩
      rwa [flightOf_takeUp_ne s i]
      rintro rfl
      exact hi (hown f hf ▸ hs)
    · refine ⟨q, f, ?_, hs⟩
      rwa [flightOf_takeUp_ne s i] at hf
      rintro rfl
      cases hself.symm.trans hf
      exact hi hs

theorem waitsAt_takeUp {s : State} {p q : Path} {i : Instr} (ha : answerBeforeLock i = none)
    (h : q ≠ p → s.waitsAt q) : (takeUp p i s).waitsAt q := by
  intro f hf
  by_cases hq : q = p
  · subst hq
    cases (flightOf_takeUp_self s q i).symm.trans hf
    exact ⟨rfl, rfl, ha⟩
  · rw [flightOf_takeUp_ne s i hq] at hf
    exact h hq f hf

/-! ### While a command runs -/

/-- What holds at every point of command `i` on the active path: as between steps, but that the active path's own command
is `i`, at whatever transaction, and that LOCK is known to be free only once a reset has ended the command. -/
structure Running (i : Instr) (s : State) : Prop where
  canonical : s.reg.wf = true
  handler : s.handlerAgrees
  others : ∀ q, q ≠ s.active → s.waitsAt q
  own : ∀ f, s.flightOf s.active = some f → f.instr = i
  free : s.flightOf s.active = none → s.lock = none

/-- A state in which at most the register space changed, to a canonical one, and what `Running` does not speak of. -/
theorem Running.of_same {i : Instr} {u v : State} (h : Running i u) (hflight : ∀ q, v.flightOf q = u.flightOf q)
    (hreg : v.reg.wf = true) (hlock : v.lock = u.lock) (hisr : v.isr = u.isr) (hactive : v.active = u.active) :
    Running i v where
  canonical := hreg
  handler := (handlerAgrees_congr hflight hisr).2 h.handler
  others q hq := (waitsAt_congr hflight q).2 (h.others q (hactive ▸ hq))
  own f hf := h.own f (by rwa [hflight, hactive] at hf)
  free hf := hlock.trans (h.free (by rwa [hflight, hactive] at hf))

/-- Another path takes up a command while `i` runs. -/
theorem Running.takeUp {i j : Instr} {s : State} {p : Path} (h : Running i s) (hp : p ≠ s.active)
    (ha : answerBeforeLock j = none) (hj : ∀ f, s.flightOf p = some f → f.instr = j) : Running i (takeUp p j s) where
  canonical := by simpa using h.canonical
  handler := handlerAgrees_takeUp h.handler hj
  others q hq := waitsAt_takeUp ha fun _ => h.others q (by simpa using hq)
  own f hf := h.own f (by rwa [takeUp_active, flightOf_takeUp_ne s j hp.symm] at hf)
  free hf := by
    rw [takeUp_lock]
    exact h.free (by rwa [takeUp_active, flightOf_takeUp_ne s j hp.symm] at hf)

theorem Running.withInbox {i : Instr} {s : State} (h : Running i s) (p : Path) (rest : List Frame) :
    Running i (s.withInbox p rest) :=
  h.of_same (by simp) (by simpa using h.canonical) (by simp) (by simp) (by simp)

theorem Running.respond {i : Instr} {s : State} (h : Running i s) (p : Path) (frame : Frame) :
    Running i (respond p frame s) :=
  h.of_same (by simp) (by simpa using h.canonical) (by simp) (by simp) (by simp)

/-- Reset of the block ends the command (R240). -/
theorem Running.blockReset {i : Instr} {s : State} (h : Running i s) : Running i (blockReset s) where
  canonical := h.canonical
  handler := by simp [State.handlerAgrees, State.servesIrq]
  others q _ f hf := by simp at hf
  own f hf := by simp at hf
  free _ := rfl

/-- Every move of another agent keeps it. -/
theorem Running.performMove {i : Instr} (m : Move) {s : State} (h : Running i s) : Running i (performMove m s) := by
  cases m with
  | chip => exact h.of_same (by simp [Machine.performMove]) (wf_chipStepWith _ h.canonical) rfl rfl rfl
  | line level => exact h.of_same (fun q => by cases q <;> rfl) h.canonical rfl rfl rfl
  | send p frame =>
    exact h.of_same (by simp [Machine.performMove]) (by simpa [Machine.performMove] using h.canonical)
      (by simp [Machine.performMove]) (by simp [Machine.performMove]) (by simp [Machine.performMove])
  | reset => exact h.blockReset
  | serve =>
    rcases otherServes_cases s with hs | ⟨hp, hf, _, _, hs⟩ <;> rw [Machine.performMove, hs]
    · exact h
    · exact h.takeUp hp.symm rfl (by simp [hf])
  | run p =>
    rcases otherRuns_cases p s with hs | ⟨hp, rest, frame, hf, hs⟩ | ⟨hp, j, ha, ⟨f, hf, hj, hs⟩ | ⟨rest, hf, hs⟩⟩ |
      ⟨hp, f, frame, hf, ha, hs⟩ <;> rw [Machine.performMove, hs]
    · exact h
    · exact (h.withInbox p rest).respond p frame
    · exact h.takeUp hp ha (by simpa [hf] using hj)
    · exact (h.withInbox p rest).takeUp (by simpa using hp) ha (by simp [hf])
    · exact h.respond p frame

theorem Running.interfere {i : Instr} {s : State} (h : Running i s) : Running i (interfere s) :=
  interfere_induct (P := Running i) (fun m _ hs => hs.performMove m)
    (fun s hs => hs.of_same (by simp) (by simpa using hs.canonical) (by simp) (by simp) (by simp)) h

/-- Every transaction of the running command keeps it, whatever the port answers. -/
theorem Running.applyXact {i : Instr} {s : State} {f : Flight} (h : Running i s) (hf : s.flightOf s.active = some f)
    (x : Xact) (a : PortAnswer) : Running i (applyXact x a f (popAnswer s)) := by
  have hself := flightOf_applyXact_active (popAnswer s) x a f
  have hne := fun q (hq : q ≠ s.active) => flightOf_applyXact_ne (popAnswer s) x a f (q := q) (by simpa using hq)
  simp only [popAnswer_active, flightOf_popAnswer] at hself hne
  exact {
    canonical := by simpa using wf_xactReg x a h.canonical
    handler := by
      rw [State.handlerAgrees, applyXact_isr, popAnswer_isr]
      refine Iff.trans h.handler ?_
      constructor <;> rintro ⟨q, g, hg, hs⟩ <;> by_cases hq : q = s.active
      · subst hq
        cases hf.symm.trans hg
        exact ⟨_, _, hself, hs⟩
      · exact ⟨q, g, by rwa [hne q hq], hs⟩
      · subst hq
        cases hself.symm.trans hg
        exact ⟨_, f, hf, hs⟩
      · exact ⟨q, g, by rwa [hne q hq] at hg, hs⟩
    others := fun q hq g hg => by
      simp only [applyXact_active, popAnswer_active] at hq
      rw [hne q hq] at hg
      exact h.others q hq g hg
    own := fun g hg => by
      simp only [applyXact_active, popAnswer_active] at hg
      cases hself.symm.trans hg
      exact h.own f hf
    free := fun hg => by
      simp only [applyXact_active, popAnswer_active] at hg
      cases hself.symm.trans hg }

/-! ### Where a command starts and ends -/

/-- A command that finds LOCK free is running once it has taken it. -/
theorem Running.of_inv {i : Instr} {s : State} (h : s.inv = true)
    (hown : ∀ f, s.flightOf s.active = some f → f.instr = i) (ha : answerBeforeLock i = none) :
    Running i (acquire (Machine.takeUp s.active i s)) := by
  obtain ⟨hreg, _, hagree, hwait⟩ := (inv_iff s).1 h
  have hself := flightOf_takeUp_self s s.active i
  exact {
    canonical := by simpa using hreg
    handler := (handlerAgrees_congr (flightOf_acquire _) rfl).2 (handlerAgrees_takeUp hagree hown)
    others := fun q _ => (waitsAt_congr (flightOf_acquire _) q).2 (waitsAt_takeUp ha fun _ => hwait q)
    own := fun f hf => by
      simp only [acquire_active, takeUp_active, flightOf_acquire] at hf
      cases hself.symm.trans hf
      rfl
    free := fun hf => by
      simp only [acquire_active, takeUp_active, flightOf_acquire] at hf
      cases hself.symm.trans hf }

/-- A command that a reset has ended leaves the invariant. -/
theorem Running.inv_of_ended {i : Instr} {s : State} (h : Running i s) (hf : s.flightOf s.active = none) :
    s.inv = true := by
  refine (inv_iff s).2 ⟨h.canonical, h.free hf, h.handler, fun p => ?_⟩
  by_cases hp : p = s.active
  · subst hp
    intro f hf'
    cases hf.symm.trans hf'
  · exact h.others p hp

/-- What is in flight after the release waits, if the other path's command did. -/
theorem Running.waitsAt_release {i : Instr} {s : State} (h : Running i s) (p : Path) : (release s).waitsAt p := by
  intro f hf
  by_cases hp : p = s.active
  · subst hp
    simp at hf
  · rw [flightOf_release_ne s hp] at hf
    exact h.others p hp f hf

/-- The end of a command other than IRQ.SVC leaves the invariant: what is still in flight is the other path's. -/
theorem Running.inv_of_replied {i : Instr} {s : State} (h : Running i s) (hi : i ≠ .irqSvc) (frame : Frame) :
    (Machine.respond s.active frame (release s)).inv = true := by
  have hflight := flightOf_respond (release s) s.active (frame := frame)
  refine (inv_iff _).2 ⟨by simpa using h.canonical, by simp, ?_, fun p => ?_⟩
  · rw [State.handlerAgrees, respond_isr, release_isr, servesIrq_congr hflight]
    refine Iff.trans h.handler ?_
    constructor <;> rintro ⟨q, f, hf, hs⟩ <;> by_cases hq : q = s.active
    · subst hq
      exact absurd ((h.own f hf).symm.trans hs) hi
    · exact ⟨q, f, by rwa [flightOf_release_ne s hq], hs⟩
    · subst hq
      simp at hf
    · exact ⟨q, f, by rwa [flightOf_release_ne s hq] at hf, hs⟩
  · exact (waitsAt_congr hflight p).2 (h.waitsAt_release p)

/-- The return of IRQ.SVC leaves the invariant: `ISR_STATE` is made to agree (log entry 8). -/
theorem Running.inv_of_returned {i : Instr} {s : State} (h : Running i s) (notify : Bool) :
    (irqSvcReturned notify s).inv = true :=
  (inv_iff _).2 ⟨by simpa using h.canonical, by simp, (isr_eq_isrNow_iff _).1 (irqSvcReturned_isr notify s),
    fun p => (waitsAt_congr (flightOf_irqSvcReturned notify s) p).2 (h.waitsAt_release p)⟩

/-! ### Commands and steps -/

/-- Every command keeps the invariant, where the command is the one its path waits with, if it waits. -/
theorem exec_inv {i : Instr} {s t : State} (h : s.inv = true)
    (hown : ∀ f, s.flightOf s.active = some f → f.instr = i) (he : exec i s = .next t) : t.inv = true := by
  obtain ⟨hreg, hlock, _, hwait⟩ := (inv_iff s).1 h
  have hc : Carries i (fun _ => Running i) (fun u => u.inv = true) :=
    { fewer := antitone_const
      point := fun _ _ hu => hu.interfere
      xact := fun x _ _ a _ _ hf hu => hu.applyXact hf x a
      ended := fun _ hf hu => hu.inv_of_ended hf
      replied := fun hi _ frame _ _ hu => hu.inv_of_replied hi frame
      returned := fun _ _ notify _ _ hu => hu.inv_of_returned notify }
  refine hc.exec (fun frame ha => ?_) (fun _ hheld => absurd hlock hheld) (fun ha _ => .of_inv h hown ha) he
  have hfree : s.flightOf s.active = none := by
    cases hf : s.flightOf s.active with
    | none => rfl
    | some f =>
      obtain ⟨_, _, hneeds⟩ := hwait _ f hf
      rw [hown f hf, ha] at hneeds
      cases hneeds
  refine inv_of_same (u := s) (fun q => ?_) h (by simpa [answerNow] using hreg) (by simp [answerNow]) (by simp [answerNow])
  by_cases hq : q = s.active
  · simp [answerNow, hq, hfree]
  · simp [answerNow, flightOf_withFlight_ne s none hq]

theorem inv_popTurn {s : State} (h : s.inv = true) : (popTurn s).inv = true :=
  inv_of_same (fun q => by cases q <;> simp [State.flightOf, State.pathState]) h
    (by simpa using ((inv_iff s).1 h).1) (by simp) (by simp)

theorem inv_active {s : State} (h : s.inv = true) (p : Path) : State.inv { s with active := p } = true :=
  inv_of_same (u := s) (fun q => by cases q <;> rfl) h ((inv_iff s).1 h).1 rfl rfl

/-- A turn that runs no command ends in the invariant; one that runs a command starts it from the invariant, and it is the
command its path waits with, if it waits. -/
def Acted.keepsInv : Acted → Prop
  | .moved t => t.inv = true
  | .runs i u => u.inv = true ∧ ∀ f, u.flightOf u.active = some f → f.instr = i

theorem runPath_keepsInv (p : Path) {s : State} (h : s.inv = true) : (runPath p s).keepsInv := by
  have hu := inv_active h p
  have hp : State.active { s with active := p } = p := rfl
  simp only [runPath]
  generalize { s with active := p } = u at hu hp
  obtain ⟨hreg, _, _, _⟩ := (inv_iff u).1 hu
  have hinbox : ∀ rest, (u.withInbox p rest).inv = true := fun rest =>
    inv_of_same (by simp) hu (by simpa using hreg) (by simp) (by simp)
  rcases fetch_cases p u with ⟨f, hf, hx⟩ | ⟨_, _, hx⟩ | ⟨frame, rest, i, hf, _, _, hx⟩ |
    ⟨frame, rest, e, _, _, _, hx⟩ <;> rw [hx]
  · exact ⟨hu, by simp [hp, hf]⟩
  · exact hu
  · exact ⟨hinbox rest, by simp [hp, hf]⟩
  · exact inv_of_same (flightOf_respond _ _ · _) (hinbox rest) (by simpa using hreg) (by simp) (by simp)

theorem serveIrq_keepsInv {s : State} (h : s.inv = true) : (serveIrq s).keepsInv := by
  simp only [serveIrq]
  split
  · rename_i hdue
    have hf : s.flightOf .irq = none := by
      simp only [serviceDue, Bool.and_eq_true, Option.isNone_iff_eq_none] at hdue
      exact hdue.2
    exact ⟨inv_active h .irq, fun f hf' => absurd (hf.symm.trans hf') (by simp)⟩
  · exact h

theorem act_keepsInv {s : State} (h : s.inv = true) : (act s).keepsInv := by
  have hpop := inv_popTurn h
  obtain ⟨hreg, _, _, _⟩ := (inv_iff _).1 hpop
  simp only [act]
  cases nextTurn s with
  | chip => exact inv_of_same (by simp) hpop (wf_chipStepWith _ hreg) rfl rfl
  | line level => exact inv_of_same (u := popTurn s) (fun q => by cases q <;> rfl) hpop hreg rfl rfl
  | send p frame => exact inv_of_same (by simp) hpop (by simpa using hreg) (by simp) (by simp)
  | run p => exact runPath_keepsInv p hpop
  | serve => exact serveIrq_keepsInv hpop
  | reset =>
    exact (inv_iff _).2 ⟨hreg, rfl, by simp [State.handlerAgrees, State.servesIrq], fun p f hf => by simp at hf⟩

/-- Settles O58: a running command keeps `Running`, from which every way it can end gives the invariant back. -/
theorem everyStepKeepsTheInvariant : Obligations.EveryStepKeepsTheInvariant := by
  intro s t h hstep
  have hkeeps := act_keepsInv h
  simp only [step] at hstep
  cases hact : act s with
  | moved u =>
    rw [hact] at hkeeps hstep
    cases hstep
    exact hkeeps
  | runs i u =>
    rw [hact] at hkeeps hstep
    obtain ⟨hu, hown⟩ := hkeeps
    exact exec_inv hu hown hstep

end Sys2Proof.Machine
end

section
/-! SUPPORT. The register space under commands and the chip: which bytes and bits can change, and that equal contents are
equal register spaces (`10_state.md` sections 1 and 5). -/

namespace Sys2Proof.Machine

/-! ### The chip's step -/

/-- The chip's step changes no byte outside the time block and STATUS1 (R38, R159). -/
theorem chipStep_get (s : State) {a : Nat} (ha : a ∉ chipAddrs) : (chipStep s).reg.get a = s.reg.get a := by
  simp only [chipAddrs, List.mem_cons, List.not_mem_nil, or_false, not_or] at ha
  have hticked : (tickedReg Config.tickFn s.reg).get a = s.reg.get a :=
    s.reg.writeBytes_get_outside _ _ (by simp only [Config.aTime, timeBytes, List.length_cons, List.length_nil]; omega)
  rw [chipStep_reg, comparedReg]
  split
  · rw [Memory.get_set_ne _ _ (show a ≠ Config.aStatus1 from ha.1), hticked]
  · exact hticked

/-- The chip's step changes no bit of STATUS1 but the pending flag (R12, R159). -/
theorem chipStep_status1 (s : State) {k : Nat} (hk : k ≠ 0) :
    ((chipStep s).reg.get 0x00).getLsbD k = (s.reg.get 0x00).getLsbD k := by
  have hticked : (tickedReg Config.tickFn s.reg).get 0x00 = s.reg.get 0x00 :=
    s.reg.writeBytes_get_outside _ _ (.inl (by decide))
  have hflag : (bitMask Config.bA1f).getLsbD k = false := by
    simp [bitMask, Config.bA1f, Config.dataW, BitVec.getLsbD_one, hk]
  rw [chipStep_reg, comparedReg]
  split
  · rw [Config.aStatus1, Memory.get_set_self _ _ (by decide), BitVec.getLsbD_or, hflag, Bool.or_false, hticked]
  · rw [hticked]

/-! ### Bytes outside a command's targets -/

/-- Settles O51: each transaction of the command leaves the byte alone, and nothing else writes. -/
theorem commandsStoreOnlyToTheirTargets : Obligations.CommandsStoreOnlyToTheirTargets := by
  intro s t i a halone he ha
  exact exec_reg_induct_alone (R := fun m => m.get a = s.byteAt a) i halone
    (fun x hx ans m hm => (xactReg_get_of_not_target hx ha ans m).trans hm) rfl he

/-- Settles O52: each transaction of the command leaves the byte alone, and so does the chip's step. -/
theorem othersTouchOnlyTheChipBytes : Obligations.OthersTouchOnlyTheChipBytes := by
  intro s t i a he ha hchip
  exact exec_reg_induct (Q := fun m => m.get a = s.byteAt a) i (fun u hu => (chipStep_get u hchip).trans hu)
    (fun x hx ans m hm => (xactReg_get_of_not_target hx ha ans m).trans hm) rfl he

/-! ### The bits of the three control registers -/

/-- The mask of the two flags at bit 0 holds no other bit (R12, R13). -/
theorem flag_mask_getLsbD {k : Nat} (hk : k ≠ 0) : (0x01 : Byte).getLsbD k = false := by
  simp [BitVec.getLsbD_one, hk]

/-- The mask of CLKEN holds no bit but bit 2 (R14). -/
theorem clken_mask_getLsbD {k : Nat} (hk : k ≠ 2) : (0x04 : Byte).getLsbD k = false := by
  rw [show (0x04 : Byte) = BitVec.twoPow 8 2 from rfl, BitVec.getLsbD_twoPow, decide_eq_false hk.symm, Bool.and_false]

/-- The mask of RSEL holds no bit above bit 1 (R14). -/
theorem rsel_mask_getLsbD {k : Nat} (hk : 2 ≤ k) : (0x03 : Byte).getLsbD k = false :=
  Nat.testBit_lt_two_pow (Nat.lt_of_lt_of_le (show 3 < 2 ^ 2 by decide) (Nat.pow_le_pow_right (by decide) hk))

/-- A command writes no bit of STATUS1 but the pending flag (R12). -/
theorem issued_keeps_status1 {i : Instr} {x : Xact} (hx : Issued i x) {k : Nat} (hk : k ≠ 0) (ans : PortAnswer)
    (m : Memory) : ((xactReg x ans m).get 0x00).getLsbD k = (m.get 0x00).getLsbD k := by
  cases hx with
  | read => rfl
  | block addr buf above _ => rw [xactReg_write_get m ans (by omega)]
  | clearPending => exact xactReg_update_getLsbD m ans _ _ (flag_mask_getLsbD hk)
  | setEnable | setOutput | setRate => rw [xactReg_update_get_ne m ans _ _ (by decide)]

/-- A command writes no bit of INT_EN1 but the enable, and that only if it is ALM.WR or ALM.EN (R13). -/
theorem issued_keeps_intEn1 {i : Instr} {x : Xact} (hx : Issued i x) {k : Nat} (hk : k ≠ 0 ∨ 0x01 ∉ targets i)
    (ans : PortAnswer) (m : Memory) : ((xactReg x ans m).get 0x01).getLsbD k = (m.get 0x01).getLsbD k := by
  cases hx with
  | read => rfl
  | block addr buf above _ => rw [xactReg_write_get m ans (by omega)]
  | setEnable val named =>
    have hk : k ≠ 0 := hk.resolve_right (absurd named)
    exact xactReg_update_getLsbD m ans _ _ (flag_mask_getLsbD hk)
  | clearPending | setOutput | setRate => rw [xactReg_update_get_ne m ans _ _ (by decide)]

/-- A command writes no bit of CLKOUT_CFG but CLKEN, if it is CLK.EN or CLK.DIS, and RSEL, if it is CLK.SET (R14). -/
theorem issued_keeps_clkout {i : Instr} {x : Xact} (hx : Issued i x) {k : Nat}
    (hk : 2 < k ∨ (k < 2 ∧ ∀ req, i ≠ .clkSet req) ∨ (k = 2 ∧ i ≠ .clkEn ∧ i ≠ .clkDis)) (ans : PortAnswer)
    (m : Memory) : ((xactReg x ans m).get 0x06).getLsbD k = (m.get 0x06).getLsbD k := by
  cases hx with
  | read => rfl
  | block addr buf above _ => rw [xactReg_write_get m ans (by omega)]
  | clearPending | setEnable => rw [xactReg_update_get_ne m ans _ _ (by decide)]
  | setOutput val hi =>
    have hk : k ≠ 2 := by
      rcases hk with h | ⟨h, _⟩ | ⟨_, hen, hdis⟩
      · omega
      · omega
      · exact absurd hi (by simp [hen, hdis])
    exact xactReg_update_getLsbD m ans _ _ (clken_mask_getLsbD hk)
  | setRate req val hi =>
    have hk : 2 ≤ k := by
      rcases hk with h | ⟨_, h⟩ | ⟨h, _⟩
      · omega
      · exact absurd hi (h req)
      · omega
    exact xactReg_update_getLsbD m ans _ _ (rsel_mask_getLsbD hk)

/-- Settles O53: register by register, each transaction of the command and the chip's step keep the bit. -/
theorem unnamedBitsArePreserved : Obligations.UnnamedBitsArePreserved := by
  intro s t i k he
  refine ⟨fun hk => ?_, fun hk => ?_, fun hk => ?_⟩
  · exact exec_reg_induct (Q := fun m => (m.get 0x00).getLsbD k = (s.byteAt 0x00).getLsbD k) i
      (fun u hu => (chipStep_status1 u hk).trans hu)
      (fun x hx ans m hm => (issued_keeps_status1 (issued_of_mem hx) hk ans m).trans hm) rfl he
  · have hk' : k ≠ 0 ∨ 0x01 ∉ targets i := hk.imp_right fun ⟨hwr, hen⟩ hmem => by
      rcases mem_targets_intEn1 hmem with ⟨sec, min, hour, mday, mon, y, en, hi⟩ | ⟨b, hi⟩
      · exact hwr _ _ _ _ _ _ _ hi
      · exact hen b hi
    exact exec_reg_induct (Q := fun m => (m.get 0x01).getLsbD k = (s.byteAt 0x01).getLsbD k) i
      (fun u hu => by rw [chipStep_get u (by decide)]; exact hu)
      (fun x hx ans m hm => (issued_keeps_intEn1 (issued_of_mem hx) hk' ans m).trans hm) rfl he
  · exact exec_reg_induct (Q := fun m => (m.get 0x06).getLsbD k = (s.byteAt 0x06).getLsbD k) i
      (fun u hu => by rw [chipStep_get u (by decide)]; exact hu)
      (fun x hx ans m hm => (issued_keeps_clkout (issued_of_mem hx) hk ans m).trans hm) rfl he

/-! ### The pending flag -/

/-- A command leaves the pending flag clear: it clears it or does not touch it (R12). -/
theorem issued_keeps_a1f_clear {i : Instr} {x : Xact} (hx : Issued i x) (ans : PortAnswer) {m : Memory}
    (hm : (m.get 0x00).getLsbD 0 = false) : ((xactReg x ans m).get 0x00).getLsbD 0 = false := by
  cases hx with
  | read => exact hm
  | block addr buf above _ => rwa [xactReg_write_get m ans (by omega)]
  | clearPending =>
    rcases xactReg_update_cases m ans 0x00 0x01 0x00 with h | h <;> rw [h]
    · exact hm
    · rw [Memory.get_set_self m _ (by decide), mergeBits_getLsbD]
      rfl
  | setEnable | setOutput | setRate => rwa [xactReg_update_get_ne m ans _ _ (by decide)]

/-- Settles O30: without the chip's steps only the command's transactions write, and none of them sets the flag. -/
theorem blockNeverSetsThePendingFlag : Obligations.BlockNeverSetsThePendingFlag := by
  intro s t i halone hclear he
  exact exec_reg_induct_alone (R := fun m => (m.get 0x00).getLsbD 0 = false) i halone
    (fun x hx ans _ hm => issued_keeps_a1f_clear (issued_of_mem hx) ans hm) hclear he

/-! ### Equal contents are equal register spaces -/

/-- From a common lower bound on, two canonical lists that read alike are equal: their first cells are at the same address,
since below its first cell a canonical list reads as unlisted, which no cell holds. -/
theorem Memory.eq_of_get_eq {low : Nat} {m m' : Memory} (hm : Memory.wfFrom low m = true)
    (hm' : Memory.wfFrom low m' = true) (h : ∀ a, a < Config.regSize → m.get a = m'.get a) : m = m' := by
  induction m generalizing low m' with
  | nil =>
    cases m' with
    | nil => rfl
    | cons c m' =>
      obtain ⟨b, v⟩ := c
      simp only [Memory.wfFrom, Bool.and_eq_true, decide_eq_true_eq] at hm'
      obtain ⟨⟨⟨_, hb⟩, hv⟩, _⟩ := hm'
      exact absurd (h b hb).symm (by simpa [Memory.get] using hv)
  | cons c m ih =>
    obtain ⟨b, v⟩ := c
    simp only [Memory.wfFrom, Bool.and_eq_true, decide_eq_true_eq] at hm
    obtain ⟨⟨⟨hlow, hb⟩, hv⟩, htail⟩ := hm
    cases m' with
    | nil => exact absurd (h b hb) (by simpa [Memory.get] using hv)
    | cons c' m' =>
      obtain ⟨b', v'⟩ := c'
      simp only [Memory.wfFrom, Bool.and_eq_true, decide_eq_true_eq] at hm'
      obtain ⟨⟨⟨hlow', hb'⟩, hv'⟩, htail'⟩ := hm'
      have hbb : b = b' := by
        rcases Nat.lt_trichotomy b b' with hlt | heq | hgt
        · have hread := h b hb
          rw [Memory.get, if_pos rfl, Memory.get, if_neg (by omega), Memory.get_below htail' (by omega)] at hread
          exact absurd hread hv
        · exact heq
        · have hread := h b' hb'
          rw [Memory.get, if_neg (by omega), Memory.get_below htail (by omega), Memory.get, if_pos rfl] at hread
          exact absurd hread.symm hv'
      subst hbb
      have hvv : v = v' := by simpa [Memory.get] using h b hb
      subst hvv
      congr 1
      refine ih htail htail' fun a ha => ?_
      by_cases hle : a ≤ b
      · rw [Memory.get_below htail (by omega), Memory.get_below htail' (by omega)]
      · have hread := h a ha
        rwa [Memory.get, if_neg (by omega), Memory.get, if_neg (by omega)] at hread

/-- Settles O60: extensionality of the canonical form, from address 0 on. -/
theorem equalBytesAreEqualRegisterSpaces : Obligations.EqualBytesAreEqualRegisterSpaces :=
  fun _ _ hm hm' h => Memory.eq_of_get_eq hm hm' h

end Sys2Proof.Machine
end

section
/-! SUPPORT. The events in the output (`10_state.md` section 2, R31): only the return of IRQ.SVC puts one out. -/

namespace Sys2Proof.Machine

/-- How many ALARM_EVENT pulses stand in the output. -/
def State.events (s : State) : Nat := s.outbox.count .alarmEvent

theorem events_congr {u v : State} (h : v.outbox = u.outbox) : v.events = u.events := congrArg (List.count _) h

@[simp] theorem events_respond (s : State) (p : Path) (frame : Frame) : (respond p frame s).events = s.events := by
  simp [State.events]

/-- No move of another agent puts out an event; a reset of the block drops those that stand (log entry 16). -/
theorem events_performMove_le (m : Move) (s : State) : (performMove m s).events ≤ s.events := by
  cases m with
  | chip | line => exact Nat.le_refl _
  | send p frame => exact (events_congr (deliver_outbox s p frame)).le
  | reset => exact Nat.zero_le _
  | serve =>
    rcases otherServes_cases s with h | ⟨_, _, _, _, h⟩ <;> rw [performMove, h]
    exact (events_congr (takeUp_outbox s _ _)).le
  | run p =>
    rcases otherRuns_cases p s with h | ⟨_, rest, frame, _, h⟩ | ⟨_, i, _, ⟨f, _, _, h⟩ | ⟨rest, _, h⟩⟩ |
      ⟨_, f, frame, _, _, h⟩ <;> rw [performMove, h]
    · exact (events_respond _ p frame).trans (events_congr (by simp)) |>.le
    · exact (events_congr (by simp)).le
    · exact (events_congr (by simp)).le
    · exact (events_respond s p frame).le

theorem events_interfere_le (s : State) : (interfere s).events ≤ s.events :=
  interfere_induct (P := fun u => u.events ≤ s.events) (fun m u hu => (events_performMove_le m u).trans hu)
    (fun u hu => (events_congr (popMoves_outbox u)).le.trans hu) le_rfl

/-- The return of IRQ.SVC puts out one event at most (R220). -/
theorem events_irqSvcReturned_le (notify : Bool) (s : State) : (irqSvcReturned notify s).events ≤ s.events + 1 := by
  cases notify <;> simp [State.events]

/-- Settles O48: no part of a command raises the count but the return of IRQ.SVC, which comes last. -/
theorem onlyIrqSvcEmitsAtMostOneAlarmEvent : Obligations.OnlyIrqSvcEmitsAtMostOneAlarmEvent := by
  intro s t i he
  have hc : Carries i (fun _ u => u.events ≤ s.events) (fun u => u.events ≤ s.events + if i = .irqSvc then 1 else 0) :=
    { fewer := antitone_const
      point := fun _ u hu => (events_interfere_le u).trans hu
      xact := fun x _ _ a f u _ hu => (events_congr (by simp)).le.trans hu
      ended := fun u _ hu => Nat.le_add_right_of_le hu
      replied := fun _ u frame f _ hu =>
        Nat.le_add_right_of_le (((events_respond _ _ frame).trans (events_congr (release_outbox u))).le.trans hu)
      returned := fun hi u notify _ _ hu => by
        rw [if_pos hi]
        exact (events_irqSvcReturned_le notify u).trans (Nat.add_le_add_right hu 1) }
  refine hc.exec (fun frame _ => ?_) (fun _ _ => ?_) (fun _ _ => ?_) he
  · exact Nat.le_add_right_of_le ((events_respond _ _ frame).trans (events_congr (by simp))).le
  · exact Nat.le_add_right_of_le (events_congr (by simp)).le
  · exact (events_congr (by simp)).le

end Sys2Proof.Machine
end

section
/-! SUPPORT. What a frame that decodes looks like: the opcode and the length of a row of R75 (`30_encoding.md` R78, R79). -/

namespace Sys2Proof.Machine

/-! ### How many operand bytes each format reads (R69 to R74) -/

theorem readNone_length {operands : List Byte} {i j : Instr} (h : readNone operands i = some j) :
    operands.length = 0 := by
  unfold readNone at h
  split at h
  · rfl
  · cases h

theorem readOne_length {operands : List Byte} {f : Byte → Instr} {j : Instr} (h : readOne operands f = some j) :
    operands.length = 1 := by
  unfold readOne at h
  split at h
  · rfl
  · cases h

theorem readTwo_length {operands : List Byte} {f : Byte → Byte → Instr} {j : Instr}
    (h : readTwo operands f = some j) : operands.length = 2 := by
  unfold readTwo at h
  split at h
  · rfl
  · cases h

theorem readRate_length {operands : List Byte} {f : Nat → Instr} {j : Instr} (h : readRate operands f = some j) :
    operands.length = rateLength := by
  unfold readRate at h
  split at h
  · assumption
  · cases h

theorem readEight_length {operands : List Byte} {f : Byte → Byte → Byte → Byte → Byte → Byte → Byte → Byte → Instr}
    {j : Instr} (h : readEight operands f = some j) : operands.length = 8 := by
  unfold readEight at h
  split at h
  · rfl
  · cases h

/-- The operands that can be read are as many as R75 gives for the opcode. -/
theorem readOperands_length {o : Opcode} {operands : List Byte} {i : Instr} (h : readOperands o operands = some i) :
    operands.length + 1 = frameLength o := by
  cases o with
  | timeRd | almRd | irqSvc | clkEn | clkDis | clkIsen | clkRecalc | ofsRd => rw [readNone_length h]; rfl
  | bcdEnc | almEn | ofsWr => rw [readOne_length h]; rfl
  | bcdDec => rw [readTwo_length h]; rfl
  | clkRound | clkSet => rw [readRate_length h]; rfl
  | timeWr | almWr => rw [readEight_length h]; rfl

/-! ### Frames that decode -/

theorem opcodeOf_eq_some {b : Byte} {o : Opcode} (h : opcodeOf b = some o) : opcodeByte o = b := by
  simpa using List.find?_some h

/-- The rows of R75 as the statements list them are the decoder's. -/
theorem opcode_row_mem (o : Opcode) : (opcodeByte o, frameLength o) ∈ opcodeLengths := by
  cases o <;> decide

theorem tableFrame_of_decode {frame : Frame} {i : Instr} (h : decode frame = .ok i) : TableFrame frame := by
  cases frame with
  | nil => cases h
  | cons op operands =>
    simp only [decode] at h
    split at h
    · cases h
    · rename_i o ho
      split at h
      · cases h
      · rename_i j hj
        exact ⟨_, opcode_row_mem o, by rw [opcodeOf_eq_some ho]; rfl, readOperands_length hj⟩

/-- A frame that is no row of R75 is refused (R78, R79). -/
theorem decode_error_of_not_tableFrame {frame : Frame} (h : ¬ TableFrame frame) : ∃ e, decode frame = .error e := by
  cases hd : decode frame with
  | ok i => exact absurd (tableFrame_of_decode hd) h
  | error e => exact ⟨e, rfl⟩

end Sys2Proof.Machine
end

section
/-! SUPPORT. A path that goes on (`20_memory.md` section 4): it resumes the command it waits with, or, while the other path
holds LOCK, takes up, answers or leaves the next frame. -/

namespace Sys2Proof.Machine

/-! ### Paths -/

theorem withFlight_of_flightOf {s : State} {p : Path} {f : Option Flight} (h : s.flightOf p = f) :
    s.withFlight p f = s := by
  subst h
  cases p <;> rfl

/-- Taking up a command, as one update of the state (R29, R33, R34). -/
theorem takeUp_eq (p : Path) (i : Instr) (s : State) : takeUp p i s =
    { s.withFlight p (some ⟨i, 0, []⟩) with isr := if i = .irqSvc then .servicing else s.isr } := by
  simp only [takeUp]
  split
  · rfl
  · cases p <;> rfl

theorem fetch_of_flight {s : State} {p : Path} {f : Flight} (h : s.flightOf p = some f) :
    fetch p s = .command f.instr s := by
  simp only [fetch, h]

theorem fetch_of_frame {s : State} {p : Path} {frame : Frame} {rest : List Frame} {i : Instr}
    (hf : s.flightOf p = none) (hb : s.inboxOf p = frame :: rest) (hd : decode frame = .ok i) :
    fetch p s = .command i (s.withInbox p rest) := by
  simp only [fetch, hf, hb, hd]

theorem fetch_of_illegal {s : State} {p : Path} {frame : Frame} {rest : List Frame} {e : Reject}
    (hf : s.flightOf p = none) (hb : s.inboxOf p = frame :: rest) (hd : decode frame = .error e) :
    fetch p s = .illegal (s.withInbox p rest) := by
  simp only [fetch, hf, hb, hd]

theorem fetch_of_nothing {s : State} {p : Path} (hf : s.flightOf p = none) (hb : s.inboxOf p = []) :
    fetch p s = .idle := by
  simp only [fetch, hf, hb]

/-! ### A step of a path -/

/-- At the turn of a path, the path goes on. -/
theorem act_of_run {s : State} {p : Path} {turns : List Move} (h : s.turns = .run p :: turns) :
    act s = runPath p { s with turns := turns } := by
  simp only [act, nextTurn, popTurn, h]

/-- Settles O7: the path finds the command it waits with. -/
theorem stepResumesWaitingCommand : Obligations.StepResumesWaitingCommand := by
  intro s p turns f hturn hf
  have hfetch : fetch p { s with turns := turns, active := p } = .command f.instr { s with turns := turns, active := p } :=
    fetch_of_flight (by cases p <;> exact hf)
  simp only [step, act_of_run hturn, runPath, hfetch]

/-! ### A path while the other one runs a command -/

section
variable {s : State} {p : Path}

theorem otherRuns_active (h : p = s.active) : otherRuns p s = s := if_pos h

theorem otherRuns_idle (h : fetch p s = .idle) : otherRuns p s = s := by
  simp only [otherRuns, h, ite_self]

variable (hp : p ≠ s.active)
include hp

theorem otherRuns_illegal {s' : State} (h : fetch p s = .illegal s') : otherRuns p s = answerIllegal p s' := by
  simp only [otherRuns, if_neg hp, h]

/-- A command that issues transactions waits (R54). -/
theorem otherRuns_waits {s' : State} {i : Instr} (h : fetch p s = .command i s') (hi : issues i ≠ []) :
    otherRuns p s = takeUp p i s' := by
  simp only [otherRuns, if_neg hp, h, answerBeforeLock_eq, if_neg hi]

/-- A command that issues none is answered at once (R107, R187, R212). -/
theorem otherRuns_answers {s' : State} {i : Instr} (h : fetch p s = .command i s') (hi : issues i = []) :
    otherRuns p s = respond p (answerAtOnce i) s' := by
  simp only [otherRuns, if_neg hp, h, answerBeforeLock_eq, if_pos hi]

end

/-- A path that waits goes on waiting: taking up its command again changes nothing. -/
theorem takeUp_of_waiting {s : State} {p : Path} {i : Instr} (hf : s.flightOf p = some ⟨i, 0, []⟩)
    (hisr : i = .irqSvc → s.isr = .servicing) : takeUp p i s = s := by
  rw [takeUp_eq, withFlight_of_flightOf hf]
  by_cases hi : i = .irqSvc
  · rw [if_pos hi, ← hisr hi]
  · rw [if_neg hi]

/-- Settles O50: by what the path finds, a frame of each kind, the command it waits with, or nothing. -/
theorem commandWaitsWhileLockIsHeld : Obligations.CommandWaitsWhileLockIsHeld := by
  refine ⟨fun s p frame rest hp hf hb => ⟨fun i hd hi => ?_, fun i hd hi => ?_, fun hbad => ?_⟩,
    fun s p i hf hi hisr => ?_, fun s p h => ?_⟩ <;> rw [performMove]
  · rw [otherRuns_waits hp (fetch_of_frame hf hb hd) hi, takeUp_eq, withInbox_isr]
  · rw [otherRuns_answers hp (fetch_of_frame hf hb hd) hi, respond, withInbox_outbox]
  · obtain ⟨e, hd⟩ := decode_error_of_not_tableFrame hbad
    rw [otherRuns_illegal hp (fetch_of_illegal hf hb hd), answerIllegal, respond, withInbox_outbox]
    rfl
  · by_cases hp : p = s.active
    · exact otherRuns_active hp
    · rw [otherRuns_waits hp (fetch_of_flight hf) hi, takeUp_of_waiting hf hisr]
  · rcases h with hp | ⟨hf, hb⟩
    · exact otherRuns_active hp
    · exact otherRuns_idle (fetch_of_nothing hf hb)

end Sys2Proof.Machine
end

section
/-! SUPPORT. What the other agents' moves at a point leave of the running command: all of it, unless a reset of the block
ends it (`20_memory.md` section 4, `70_reset_and_hazards.md` section 1). -/

namespace Sys2Proof.Machine

/-- What the running command has of the state is in `u` as in `s`: its path, LOCK, TRACE and its place in its row. -/
structure SparesCommand (s u : State) : Prop where
  active : u.active = s.active
  lock : u.lock = s.lock
  trace : u.trace = s.trace
  flight : u.flightOf s.active = s.flightOf s.active

/-- The block was just reset: no command is in flight, LOCK is free, TRACE is empty (R240). -/
structure EndedByReset (u : State) : Prop where
  lock : u.lock = none
  trace : u.trace = []
  flight : ∀ q, u.flightOf q = none

theorem endedByReset_blockReset (s : State) : EndedByReset (blockReset s) := ⟨rfl, rfl, flightOf_blockReset s⟩

theorem SparesCommand.refl (s : State) : SparesCommand s s := ⟨rfl, rfl, rfl, rfl⟩

theorem SparesCommand.trans {s u v : State} (h : SparesCommand s u) (h' : SparesCommand u v) : SparesCommand s v where
  active := h'.active.trans h.active
  lock := h'.lock.trans h.lock
  trace := h'.trace.trans h.trace
  flight := by
    have := h'.flight
    rw [h.active] at this
    exact this.trans h.flight

theorem SparesCommand.own_flight {s u : State} (h : SparesCommand s u) : u.flightOf u.active = s.flightOf s.active :=
  h.active ▸ h.flight

/-- A command taken up on the other path spares the running one. -/
theorem sparesCommand_takeUp (s : State) {p : Path} (i : Instr) (hp : p ≠ s.active) : SparesCommand s (takeUp p i s) :=
  ⟨by simp, by simp, by simp, flightOf_takeUp_ne s i hp.symm⟩

theorem sparesCommand_respond (s : State) (p : Path) (frame : Frame) : SparesCommand s (respond p frame s) :=
  ⟨rfl, rfl, rfl, flightOf_respond s p _ frame⟩

theorem sparesCommand_withInbox (s : State) (p : Path) (frames : List Frame) : SparesCommand s (s.withInbox p frames) :=
  ⟨by simp, by simp, by simp, by simp⟩

/-- Every move of another agent but a reset spares the running command. -/
theorem sparesCommand_performMove {m : Move} (hm : m ≠ .reset) (s : State) : SparesCommand s (performMove m s) := by
  cases m with
  | reset => exact absurd rfl hm
  | chip => exact ⟨rfl, rfl, rfl, flightOf_chipStep s _⟩
  | line level => exact ⟨rfl, rfl, rfl, by cases hs : s.active <;> rfl⟩
  | send p frame => exact sparesCommand_withInbox s p _
  | serve =>
    rcases otherServes_cases s with h | ⟨hp, _, _, _, h⟩ <;> rw [performMove, h]
    · exact .refl s
    · exact sparesCommand_takeUp s _ hp.symm
  | run p =>
    rcases otherRuns_cases p s with h | ⟨_, rest, frame, _, h⟩ | ⟨hp, i, _, ⟨f, _, _, h⟩ | ⟨rest, _, h⟩⟩ |
      ⟨_, f, frame, _, _, h⟩ <;> rw [performMove, h]
    · exact .refl s
    · exact (sparesCommand_withInbox s p rest).trans (sparesCommand_respond _ p frame)
    · exact sparesCommand_takeUp s i hp
    · exact (sparesCommand_withInbox s p rest).trans (sparesCommand_takeUp _ i (by simpa using hp))
    · exact sparesCommand_respond s p frame

theorem performMoves_cases (ms : List Move) (s : State) :
    EndedByReset (performMoves ms s) ∨ SparesCommand s (performMoves ms s) := by
  induction ms generalizing s with
  | nil => exact .inr (.refl s)
  | cons m ms ih =>
    simp only [performMoves]
    split
    · exact .inl (endedByReset_blockReset s)
    · exact (ih _).imp_right (sparesCommand_performMove ‹_› s).trans

/-- What a point can do to the running command: end it by a reset of the block, or leave all of it. -/
theorem interfere_cases (s : State) : EndedByReset (interfere s) ∨ SparesCommand s (interfere s) :=
  (performMoves_cases (nextMoves s) (popMoves s)).imp_right
    (SparesCommand.trans ⟨popMoves_active s, popMoves_lock s, popMoves_trace s, flightOf_popMoves s _⟩)

end Sys2Proof.Machine
end

section
/-! SUPPORT. LOCK over a whole command (`60_exceptions.md` section 2, R54, R216). -/

namespace Sys2Proof.Machine

/-- LOCK is free once a command is no longer in flight on its path. -/
def FreeOnceEnded (s : State) : Prop := s.flightOf s.active = none → s.lock = none

theorem freeOnceEnded_interfere {s : State} (h : FreeOnceEnded s) : FreeOnceEnded (interfere s) := by
  intro hf
  rcases interfere_cases s with hr | hs
  · exact hr.lock
  · exact hs.lock.trans (h (hs.own_flight ▸ hf))

/-- Settles O49: a command ends by its release of LOCK or by a reset, and both free it. -/
theorem lockIsFreeAfterEveryCommand : Obligations.LockIsFreeAfterEveryCommand := by
  intro s t i hfree he
  have hc : Carries i (fun _ => FreeOnceEnded) (fun u => u.lock = none) :=
    { fewer := antitone_const
      point := fun _ _ hu => freeOnceEnded_interfere hu
      xact := fun x _ _ a f u _ _ hf => by rw [flightOf_applyXact_self] at hf; cases hf
      ended := fun _ hf hu => hu hf
      replied := fun _ u _ _ _ _ => by simp
      returned := fun _ u notify _ _ _ => irqSvcReturned_lock notify u }
  refine hc.exec (fun frame _ => ?_) (fun _ hheld => absurd hfree hheld) (fun _ _ hf => ?_) he
  · simpa [answerNow] using hfree
  · simp [flightOf_takeUp_self] at hf

end Sys2Proof.Machine
end

section
/-! SUPPORT. TRACE over a whole command (`20_memory.md` section 2, R45, R49): its transactions are the row of R49 from the
start, up to a failure or a reset. -/

namespace Sys2Proof.Machine

/-! ### Scripts and their rows -/

/-- A script in two parts, the first of which was issued whole. -/
theorem issueAll_append (xs ys : List Xact) {s : State} (h : (issueAll xs s).1 = .done) :
    issueAll (xs ++ ys) s = issueAll ys (issueAll xs s).2 := by
  induction xs generalizing s with
  | nil => rfl
  | cons x xs ih =>
    simp only [List.cons_append, issueAll] at h ⊢
    split <;> rename_i hx <;> simp only [hx] at h
    · exact ih h
    · cases h
    · cases h

/-- IRQ.SVC once LOCK is held: a beginning of its row, ended by a reset or by its exit (R220, R221). -/
theorem bodyIrqSvc_cases (s : State) : ∃ xs, xs <+: issues .irqSvc ∧
    (bodyIrqSvc s = (issueAll xs s).2 ∨ ∃ notify, bodyIrqSvc s = exitIrqSvc notify (issueAll xs s).2) := by
  have hread : [readStatus1] <+: issues .irqSvc := ⟨[clearA1f], rfl⟩
  have hwhole : [readStatus1] ++ [clearA1f] <+: issues .irqSvc := ⟨[], rfl⟩
  simp only [bodyIrqSvc]
  split
  · exact ⟨_, hread, .inl rfl⟩
  · exact ⟨_, hread, .inr ⟨_, rfl⟩⟩
  · split
    · have hrow := issueAll_append [readStatus1] [clearA1f] ‹_›
      simp only [← hrow]
      split
      · exact ⟨_, hwhole, .inl rfl⟩
      · exact ⟨_, hwhole, .inr ⟨_, rfl⟩⟩
      · exact ⟨_, hwhole, .inr ⟨_, rfl⟩⟩
    · exact ⟨_, hread, .inr ⟨_, rfl⟩⟩

/-! ### What stands in TRACE -/

/-- TRACE of `t` is that of `s` and then a beginning of `xs` of which none but the last failed. -/
def TracesOf (xs : List Xact) (s t : State) : Prop :=
  ∃ added, t.trace = s.trace ++ added ∧ added.map TraceEntry.xact <+: xs ∧ ∀ e ∈ added.dropLast, e.failed = false

theorem tracesOf_of_eq (xs : List Xact) {s t : State} (h : t.trace = s.trace) : TracesOf xs s t :=
  ⟨[], by simp [h], by simp, by simp⟩

theorem tracesOf_congr {xs : List Xact} {s t u : State} (h : TracesOf xs s t) (hu : u.trace = t.trace) :
    TracesOf xs s u := by
  simpa only [TracesOf, hu] using h

/-- One failed transaction ends the list. -/
theorem tracesOf_failed (x : Xact) (xs : List Xact) (data : List Byte) {s t : State}
    (h : t.trace = s.trace ++ [⟨x, data, true⟩]) : TracesOf (x :: xs) s t :=
  ⟨_, h, by simp, by simp⟩

/-- One transaction that succeeded, and then what follows. -/
theorem tracesOf_cons {x : Xact} {xs : List Xact} {data : List Byte} {s t u : State}
    (h : t.trace = s.trace ++ [⟨x, data, false⟩]) (hu : TracesOf xs t u) : TracesOf (x :: xs) s u := by
  obtain ⟨added, htrace, hrow, hok⟩ := hu
  refine ⟨⟨x, data, false⟩ :: added, by simp [htrace, h], by simpa using hrow, ?_⟩
  cases added with
  | nil => simp
  | cons e added => simpa using hok

/-- After a reset of the block TRACE is empty, whatever stood there. -/
def TracesOrReset (xs : List Xact) (s t : State) : Prop := t.trace = [] ∨ TracesOf xs s t

theorem tracesOrReset_interfere {xs : List Xact} {s t : State} (h : TracesOrReset xs s t) :
    TracesOrReset xs s (interfere t) := by
  rcases interfere_cases t with hr | ht
  · exact .inl hr.trace
  · exact h.imp ht.trace.trans fun h => tracesOf_congr h ht.trace

/-- What `issue` leaves in TRACE: after a reset nothing new, else one entry, failed as the port says (R36, R45). -/
theorem issue_trace_cases (x : Xact) (s : State) :
    ((issue x s).1 = .reset ∧ ((issue x s).2.trace = [] ∨ (issue x s).2.trace = s.trace)) ∨
    ∃ data, ((issue x s).1 = .done ∧ (issue x s).2.trace = s.trace ++ [⟨x, data, false⟩]) ∨
      ((issue x s).1 = .busError ∧ (issue x s).2.trace = s.trace ++ [⟨x, data, true⟩]) := by
  have hpoint := interfere_cases s
  simp only [issue]
  cases hf : (interfere s).flightOf (interfere s).active with
  | none => exact .inl ⟨rfl, hpoint.imp EndedByReset.trace SparesCommand.trace⟩
  | some f =>
    rcases hpoint with hr | hs
    · cases (hr.flight _).symm.trans hf
    · refine .inr ⟨xactData x (nextAnswer (interfere s)) (interfere s).reg, ?_⟩
      cases hok : portOk (nextAnswer (interfere s)) <;> simp [hok, hs.trace]

theorem issueAll_traces (xs : List Xact) (s : State) : TracesOrReset xs s (issueAll xs s).2 := by
  induction xs generalizing s with
  | nil => exact .inr (tracesOf_of_eq _ rfl)
  | cons x xs ih =>
    simp only [issueAll]
    rcases issue_trace_cases x s with ⟨he, ht⟩ | ⟨data, ⟨he, ht⟩ | ⟨he, ht⟩⟩ <;> rw [he]
    · exact ht.imp_right (tracesOf_of_eq _)
    · exact (ih _).imp_right (tracesOf_cons ht)
    · exact .inr (tracesOf_failed x xs data ht)

theorem conclude_traces {xs : List Xact} {s : State} (reply : List Byte → Frame) {r : Ended × State}
    (h : TracesOrReset xs s r.2) : TracesOrReset xs s (conclude reply r) := by
  have hp := tracesOrReset_interfere h
  rcases conclude_cases reply r with ⟨_, hx⟩ | ⟨_, hx⟩ | ⟨f, frame, _, hx⟩ <;> rw [hx]
  · exact h
  · exact hp
  · simpa [TracesOrReset, TracesOf] using hp

@[simp] theorem irqSvcReturned_trace (notify : Bool) (s : State) : (irqSvcReturned notify s).trace = s.trace := by
  cases notify <;> simp [irqSvcReturned, notified]

theorem exitIrqSvc_traces {xs : List Xact} {s t : State} (notify : Bool) (h : TracesOrReset xs s t) :
    TracesOrReset xs s (exitIrqSvc notify t) := by
  have hp := tracesOrReset_interfere h
  rcases exitIrqSvc_cases notify t with ⟨_, hx⟩ | ⟨f, _, hx⟩ <;> rw [hx]
  · exact hp
  · simpa [TracesOrReset, TracesOf] using hp

theorem bodyIrqSvc_traces (s : State) : TracesOrReset (issues .irqSvc) s (bodyIrqSvc s) := by
  obtain ⟨xs, hxs, hbody⟩ := bodyIrqSvc_cases s
  have hrow : TracesOrReset (issues .irqSvc) s (issueAll xs s).2 :=
    (issueAll_traces xs s).imp_right fun ⟨added, htrace, hpre, hok⟩ => ⟨added, htrace, hpre.trans hxs, hok⟩
  rcases hbody with hx | ⟨notify, hx⟩ <;> rw [hx]
  · exact hrow
  · exact exitIrqSvc_traces notify hrow

/-- Whatever the port and the other agents do, a command adds to TRACE a beginning of its row, unless a reset empties
it. -/
theorem exec_traces {i : Instr} {s t : State} (he : exec i s = .next t) : TracesOrReset (issues i) s t := by
  have hstart : (acquire (takeUp s.active i s)).trace = s.trace := by simp
  rcases exec_cases i s with ⟨frame, _, hx⟩ | ⟨_, _, hin, reply, _, hx⟩ | rfl
  · cases hx.symm.trans he
    exact .inr (tracesOf_of_eq _ (by simp [answerNow]))
  · rw [hx, runScript] at he
    rcases locked_cases i (issues i) (fun s' => conclude reply (issueAll (issues i) s')) s with
      ⟨hout, _⟩ | ⟨_, _, hb⟩ | ⟨_, _, hb⟩
    · simp [hin] at hout
    · cases hb.symm.trans he
      simpa only [TracesOrReset, TracesOf, hstart] using
        conclude_traces reply (issueAll_traces (issues i) (acquire (takeUp s.active i s)))
    · cases hb.symm.trans he
      exact .inr (tracesOf_of_eq _ (by simp))
  · rcases irqSvc_cases s with ⟨_, hx⟩ | ⟨_, hx⟩ <;> cases hx.symm.trans he
    · simpa only [TracesOrReset, TracesOf, hstart] using bodyIrqSvc_traces (acquire (takeUp s.active .irqSvc s))
    · exact .inr (tracesOf_of_eq _ (by simp))

/-! ### A command that runs undisturbed and whose transactions succeed -/

theorem scriptEntries_xacts (xs : List Xact) (m : Memory) : (scriptEntries xs m).map TraceEntry.xact = xs := by
  induction xs generalizing m with
  | nil => rfl
  | cons x xs ih => simp [scriptEntries, ih]

theorem exitIrqSvc_quiet (notify : Bool) {s : State} {f : Flight} {rest : List (List Move)}
    (hf : s.flightOf s.active = some f) (hm : s.moves = [] :: rest) :
    exitIrqSvc notify s = irqSvcReturned notify { s with moves := rest } := by
  rcases exitIrqSvc_cases notify s with ⟨hn, _⟩ | ⟨_, _, hx⟩
  · rw [interfere_quiet hm] at hn
    cases (show s.flightOf s.active = none from hn).symm.trans hf
  · rw [hx, interfere_quiet hm]

/-- The transactions IRQ.SVC issues if none fails: the second only if the flag is set (R49, R220). -/
def rowIrqSvc (pending : Bool) : List Xact := if pending then [readStatus1, clearA1f] else [readStatus1]

/-- IRQ.SVC once LOCK is held, undisturbed and with no failure (R220). -/
theorem bodyIrqSvc_undisturbed {s : State} {f : Flight} {rest : List (List Move)} {as : List PortAnswer}
    (hf : s.flightOf s.active = some f) (hbytes : f.bytes = [])
    (hm : s.moves = List.replicate (rowIrqSvc s.a1f).length [] ++ [] :: rest)
    (ha : s.answers = List.replicate (rowIrqSvc s.a1f).length .ok ++ as) :
    bodyIrqSvc s = irqSvcReturned s.a1f (afterScript (rowIrqSvc s.a1f) f rest as s) := by
  have hread : ∀ ms os, s.moves = [] :: ms → s.answers = .ok :: os →
      issueAll [readStatus1] s = (.done, afterScript [readStatus1] f ms os s) := fun ms os hm ha =>
    issueAll_undisturbed [readStatus1] hf hm ha
  have hsaw : ∀ ms os, sawPending (bytesRead (afterScript [readStatus1] f ms os s)) = s.a1f := fun ms os => by
    simp only [bytesRead, flightOf_afterScript, hbytes]
    rfl
  cases hpend : s.a1f <;> simp only [hpend, rowIrqSvc] at hm ha ⊢
  · simp only [bodyIrqSvc, hread _ _ hm ha, hsaw, hpend]
    exact exitIrqSvc_quiet false (flightOf_afterScript _ _ _ _ _) rfl
  · have hfirst := hread _ _ hm ha
    have hboth := issueAll_undisturbed [readStatus1, clearA1f] hf hm ha
    have hsecond := issueAll_append [readStatus1] [clearA1f] (by rw [hfirst])
    rw [hfirst, List.singleton_append, hboth] at hsecond
    simp only [bodyIrqSvc, hfirst, hsaw, hpend, if_true, ← hsecond]
    exact exitIrqSvc_quiet true (flightOf_afterScript _ _ _ _ _) rfl

/-- IRQ.SVC from LOCK free, undisturbed and with no failure (R220). -/
theorem exec_irqSvc_undisturbed {s : State} (hq : Quiet ((rowIrqSvc s.a1f).length + 1) s)
    (ha : PortSays (List.replicate (rowIrqSvc s.a1f).length .ok) s) :
    ∃ rest as, exec .irqSvc s = .next (irqSvcReturned s.a1f
      (afterScript (rowIrqSvc s.a1f) ⟨.irqSvc, 0, []⟩ rest as (acquire (takeUp s.active .irqSvc s)))) := by
  have hpend : (acquire (takeUp s.active .irqSvc s)).a1f = s.a1f := by simp [State.a1f, State.byteAt]
  have hm := hq.moves_eq
  rw [List.replicate_succ', List.append_assoc] at hm
  rcases irqSvc_cases s with ⟨_, hx⟩ | ⟨hheld, _⟩
  · have hbody := bodyIrqSvc_undisturbed (s := acquire (takeUp s.active .irqSvc s)) (f := ⟨.irqSvc, 0, []⟩)
      (by simp [flightOf_takeUp_self]) rfl (by simpa [hpend] using hm) (by simpa [hpend] using ha.answers_eq)
    exact ⟨_, _, by rw [hx, hbody, hpend]⟩
  · exact absurd hq.1 hheld

theorem quiet_of_le {n m : Nat} (h : n ≤ m) {s : State} (hq : Quiet m s) : Quiet n s :=
  ⟨hq.1, alone_antitone h s hq.2⟩

theorem portSays_of_le {n m : Nat} (h : n ≤ m) {s : State} (ha : PortSays (List.replicate m .ok) s) :
    PortSays (List.replicate n .ok) s := by
  have := congrArg (List.take n) ha
  simpa [PortSays, List.take_take, List.take_replicate, Nat.min_eq_left h] using this

theorem rowIrqSvc_length_le (pending : Bool) : (rowIrqSvc pending).length ≤ (issues .irqSvc).length := by
  cases pending <;> decide

/-- Undisturbed and with no failure, a command issues its whole row. -/
theorem exec_traces_whole_row {i : Instr} {s : State} (hq : Quiet ((issues i).length + 1) s)
    (ha : PortSays (List.replicate (issues i).length .ok) s) :
    ∃ t added, exec i s = .next t ∧ t.trace = s.trace ++ added ∧
      added.map TraceEntry.xact = if i = .irqSvc then rowIrqSvc s.a1f else issues i := by
  rcases exec_cases i s with ⟨frame, hf, hx⟩ | ⟨_, hi, hin, reply, _, hx⟩ | rfl
  · have hi : i ≠ .irqSvc := by rintro rfl; cases hf
    have hrow : issues i = [] := by
      by_contra h
      rw [answerBeforeLock_eq, if_neg h] at hf
      cases hf
    exact ⟨_, [], hx, by simp [answerNow], by simp [hi, hrow]⟩
  · rw [runScript_undisturbed hi hin reply hq ha] at hx
    exact ⟨_, _, hx, rfl, by rw [if_neg hi, scriptEntries_xacts]⟩
  · have hle := rowIrqSvc_length_le s.a1f
    obtain ⟨rest, as, hx⟩ := exec_irqSvc_undisturbed (quiet_of_le (Nat.add_le_add_right hle 1) hq)
      (portSays_of_le hle ha)
    exact ⟨_, scriptEntries (rowIrqSvc s.a1f) s.reg, hx, by simp [afterScript], by rw [if_pos rfl, scriptEntries_xacts]⟩

/-- Settles O54: the first part by induction on the row, the second by running it. -/
theorem commandsIssueOnlyTheirTransactions : Obligations.CommandsIssueOnlyTheirTransactions := by
  refine ⟨fun s t i he => exec_traces he, fun s i hq ha => ?_⟩
  obtain ⟨t, added, hx, htrace, hrow⟩ := exec_traces_whole_row hq ha
  refine ⟨t, added, hx, htrace, hrow.trans ?_⟩
  by_cases hi : i = .irqSvc
  · subst hi
    have hflag : s.a1f = (s.byteAt 0x00).getLsbD 0 := rfl
    rw [if_pos rfl, hflag]
    cases (s.byteAt 0x00).getLsbD 0 <;> rfl
  · rw [if_neg hi, if_neg (fun h => hi h.1)]

end Sys2Proof.Machine
end

section
/-! SUPPORT. Points at which only the chip moves: any number of its steps change the register space and nothing else
(`20_memory.md` section 2, R46, R55, R159). -/

namespace Sys2Proof.Machine

/-- The register space after one step of the chip. -/
def chipReg (m : Memory) : Memory := comparedReg (tickedReg Config.tickFn m)

theorem chipStep_eq (s : State) : chipStep s = { s with reg := chipReg s.reg } := rfl

theorem chipStep_iterate (n : Nat) (s : State) : chipStep^[n] s = { s with reg := chipReg^[n] s.reg } := by
  induction n generalizing s with
  | zero => rfl
  | succ n ih => rw [Function.iterate_succ_apply, ih, chipStep_eq, Function.iterate_succ_apply]

theorem performMoves_replicate_chip (n : Nat) (s : State) :
    performMoves (List.replicate n .chip) s = chipStep^[n] s := by
  induction n generalizing s with
  | zero => rfl
  | succ n ih => exact ih (chipStep s)

/-- The state after a point at which the chip took `n` steps; `rest` are the moves still to come. -/
def afterChips (n : Nat) (rest : List (List Move)) (s : State) : State :=
  { s with reg := chipReg^[n] s.reg, moves := rest }

@[simp] theorem afterChips_reg (n : Nat) (rest : List (List Move)) (s : State) :
    (afterChips n rest s).reg = chipReg^[n] s.reg := rfl
@[simp] theorem afterChips_active (n : Nat) (rest : List (List Move)) (s : State) :
    (afterChips n rest s).active = s.active := rfl
@[simp] theorem afterChips_outbox (n : Nat) (rest : List (List Move)) (s : State) :
    (afterChips n rest s).outbox = s.outbox := rfl
@[simp] theorem afterChips_answers (n : Nat) (rest : List (List Move)) (s : State) :
    (afterChips n rest s).answers = s.answers := rfl
@[simp] theorem afterChips_moves (n : Nat) (rest : List (List Move)) (s : State) :
    (afterChips n rest s).moves = rest := rfl
@[simp] theorem flightOf_afterChips (n : Nat) (rest : List (List Move)) (s : State) (q : Path) :
    (afterChips n rest s).flightOf q = s.flightOf q := by cases q <;> rfl

section
variable {s : State} {f : Flight} {n : Nat} {rest : List (List Move)} (hm : s.moves = List.replicate n .chip :: rest)
include hm

theorem interfere_chips : interfere s = afterChips n rest s := by
  simp only [interfere, nextMoves, popMoves, hm, performMoves_replicate_chip, chipStep_iterate, afterChips]

variable (hf : s.flightOf s.active = some f)
include hf

/-- A transaction before which the chip takes `n` steps is on the register space as it stands after them (R46). -/
theorem issue_chips {a : PortAnswer} {as : List PortAnswer} (x : Xact) (ha : s.answers = a :: as) :
    issue x s = (if portOk a then .done else .busError, applyXact x a f (popAnswer (afterChips n rest s))) := by
  have hnext : nextAnswer (afterChips n rest s) = a := by simp only [nextAnswer, afterChips_answers, ha]
  simp only [issue, interfere_chips hm, flightOf_afterChips, afterChips_active, hf, hnext]

/-- The chip's steps before the release of LOCK do not change the response. -/
theorem conclude_done_chips (reply : List Byte → Frame) :
    conclude reply (.done, s) = respond s.active (reply f.bytes) (release (afterChips n rest s)) := by
  simp only [conclude, interfere_chips hm, bytesRead, flightOf_afterChips, afterChips_active, hf]

end

/-- A command of one read that succeeds, with `n` chip steps before the read and `m` after it: the response is made of the
bytes as they stood after the `n` steps. -/
theorem runScript_read_chips (i : Instr) {addr len n m : Nat} (hin : xactInside (.read addr len) = true)
    (reply : List Byte → Frame) {s : State} {rest : List (List Move)} {as : List PortAnswer} (hl : s.lock = none)
    (hm : s.moves = List.replicate n .chip :: List.replicate m .chip :: rest) (ha : s.answers = .ok :: as) :
    ∃ t, runScript i [.read addr len] reply s = .next t ∧ t.reg = chipReg^[n + m] s.reg ∧
      t.outbox = s.outbox ++ [.response s.active (reply ((chipReg^[n] s.reg).readBytes addr len))] := by
  have hissue := issue_chips (s := acquire (takeUp s.active i s)) (f := ⟨i, 0, []⟩) (by simpa using hm)
    (by simp [flightOf_takeUp_self]) (.read addr len) (by simpa using ha)
  have hend := conclude_done_chips (n := m) (rest := rest) (by simp) (flightOf_applyXact_self
    (popAnswer (afterChips n (List.replicate m .chip :: rest) (acquire (takeUp s.active i s)))) (.read addr len) .ok
    ⟨i, 0, []⟩) reply
  have hrun : runScript i [.read addr len] reply s =
      .next (conclude reply (issueAll [.read addr len] (acquire (takeUp s.active i s)))) := by
    simp [runScript, locked, hin, hl]
  refine ⟨_, hrun, ?_, ?_⟩ <;> simp only [issueAll, hissue, portOk, if_true, hend]
  · simp [xactReg, Nat.add_comm n m, Function.iterate_add_apply]
  · simp [xactData]

/-- Settles O20: the one read is atomic, so the answer is of the register space at that instant. -/
theorem timeRdSeesOneInstant : Obligations.TimeRdSeesOneInstant := by
  intro s n m hl hm ha
  have hm' := List.take_append_drop 2 s.moves
  rw [hm] at hm'
  obtain ⟨t, hx, hreg, hout⟩ :=
    runScript_read_chips .timeRd (addr := 0x0A) (len := 7) (by decide) replyTimeRd hl hm'.symm ha.answers_eq
  exact ⟨t, hx, by rw [hreg, chipStep_iterate], by rw [hout, chipStep_iterate]; rfl⟩

end Sys2Proof.Machine
end

section
/-! SUPPORT. The decoder and the encoder of frames are inverse (`30_encoding.md` sections 3 and 4): a frame decodes to a
command exactly when it is the frame of that command and the command is well formed. -/

namespace Sys2Proof.Machine

/-! ### What each format reads (R69 to R74) -/

theorem readNone_eq_some {operands : List Byte} {i j : Instr} (h : readNone operands i = some j) :
    operands = [] ∧ j = i := by
  obtain rfl := List.length_eq_zero_iff.1 (readNone_length h)
  cases h
  exact ⟨rfl, rfl⟩

theorem readOne_eq_some {operands : List Byte} {f : Byte → Instr} {j : Instr} (h : readOne operands f = some j) :
    ∃ b, operands = [b] ∧ j = f b := by
  obtain ⟨b, rfl⟩ := List.length_eq_one_iff.1 (readOne_length h)
  cases h
  exact ⟨b, rfl, rfl⟩

theorem readTwo_eq_some {operands : List Byte} {f : Byte → Byte → Instr} {j : Instr}
    (h : readTwo operands f = some j) : ∃ b c, operands = [b, c] ∧ j = f b c := by
  obtain ⟨b, c, rfl⟩ := List.length_eq_two.1 (readTwo_length h)
  cases h
  exact ⟨b, c, rfl, rfl⟩

theorem readRate_eq_some {operands : List Byte} {f : Nat → Instr} {j : Instr} (h : readRate operands f = some j) :
    operands.length = 4 ∧ j = f (ofLe operands) := by
  have hlen := readRate_length h
  rw [readRate, if_pos hlen] at h
  exact ⟨hlen, (Option.some.inj h).symm⟩

theorem eight_bytes {operands : List Byte} (h : operands.length = 8) :
    ∃ b1 b2 b3 b4 b5 b6 b7 b8, operands = [b1, b2, b3, b4, b5, b6, b7, b8] :=
  match operands, h with
  | [b1, b2, b3, b4, b5, b6, b7, b8], _ => ⟨b1, b2, b3, b4, b5, b6, b7, b8, rfl⟩

theorem readEight_eq_some {operands : List Byte}
    {f : Byte → Byte → Byte → Byte → Byte → Byte → Byte → Byte → Instr} {j : Instr}
    (h : readEight operands f = some j) : ∃ b1 b2 b3 b4 b5 b6 b7 b8,
      operands = [b1, b2, b3, b4, b5, b6, b7, b8] ∧ j = f b1 b2 b3 b4 b5 b6 b7 b8 := by
  obtain ⟨b1, b2, b3, b4, b5, b6, b7, b8, rfl⟩ := eight_bytes (readEight_length h)
  cases h
  exact ⟨b1, b2, b3, b4, b5, b6, b7, b8, rfl, rfl⟩

/-! ### Numbers and the bytes that carry them (R72, R73, R81) -/

theorem toNat_toByte_of_lt {n : Nat} (h : n < 256) : (toByte n).toNat = n := by
  rw [toNat_toByte, Nat.mod_eq_of_lt h]

theorem fitsByte_toNat (b : Byte) : fitsByte b.toNat = true := (fitsByte_iff _).2 (byte_lt b)

theorem fitsHalf_ofLe (b c : Byte) : fitsHalf (ofLe [b, c]) = true := by
  have hb := byte_lt b
  have hc := byte_lt c
  rw [fitsHalf_iff, ofLe_two]
  omega

theorem yearBytes_ofLe (b c : Byte) : yearBytes (ofLe [b, c]) = [b, c] := leBytes_ofLe [b, c]

/-- Four bytes carry a rate, and are the bytes of the rate they carry (R72). -/
theorem rate_of_four_bytes {bytes : List Byte} (h : bytes.length = 4) :
    rateFrameBytes (ofLe bytes) = bytes ∧ fitsRate (ofLe bytes) = true := by
  have hbytes := leBytes_ofLe bytes
  have hlt := ofLe_lt bytes
  rw [h] at hbytes hlt
  exact ⟨hbytes, (fitsRate_iff _).2 hlt⟩

/-! ### Reading the operands back -/

/-- The operands of a well-formed command are read back from its operand bytes. -/
theorem readOperands_operandBytes {i : Instr} (h : i.wf = true) :
    readOperands (opcodeOfInstr i) (operandBytes i) = some i := by
  cases i with
  | bcdEnc n =>
    show some (Instr.bcdEnc (toByte n).toNat) = _
    rw [toNat_toByte_of_lt ((fitsByte_iff n).1 h)]
  | timeWr sec min hour wday mday mon y =>
    simp only [Instr.wf, Bool.and_eq_true, fitsByte_iff, fitsHalf_iff] at h
    obtain ⟨⟨⟨⟨⟨⟨hsec, hmin⟩, hhour⟩, hwday⟩, hmday⟩, hmon⟩, hy⟩ := h
    show some (Instr.timeWr (toByte sec).toNat (toByte min).toNat (toByte hour).toNat (toByte wday).toNat
      (toByte mday).toNat (toByte mon).toNat (ofLe (yearBytes y))) = _
    rw [toNat_toByte_of_lt hsec, toNat_toByte_of_lt hmin, toNat_toByte_of_lt hhour, toNat_toByte_of_lt hwday,
      toNat_toByte_of_lt hmday, toNat_toByte_of_lt hmon, ofLe_yearBytes hy]
  | almWr sec min hour mday mon y en =>
    simp only [Instr.wf, Bool.and_eq_true, fitsByte_iff, fitsHalf_iff] at h
    obtain ⟨⟨⟨⟨⟨hsec, hmin⟩, hhour⟩, hmday⟩, hmon⟩, hy⟩ := h
    show some (Instr.almWr (toByte sec).toNat (toByte min).toNat (toByte hour).toNat (toByte mday).toNat
      (toByte mon).toNat (ofLe (yearBytes y)) en) = _
    rw [toNat_toByte_of_lt hsec, toNat_toByte_of_lt hmin, toNat_toByte_of_lt hhour, toNat_toByte_of_lt hmday,
      toNat_toByte_of_lt hmon, ofLe_yearBytes hy]
  | clkRound req => exact readRate_rateFrameBytes ((fitsRate_iff req).1 h) _
  | clkSet req => exact readRate_rateFrameBytes ((fitsRate_iff req).1 h) _
  | bcdDec | timeRd | almRd | almEn | irqSvc | clkEn | clkDis | clkIsen | clkRecalc | ofsRd | ofsWr => rfl

/-- The command read from operand bytes has the opcode they are read for and those operand bytes, and is well formed. -/
theorem operandBytes_of_readOperands {o : Opcode} {operands : List Byte} {i : Instr}
    (h : readOperands o operands = some i) : opcodeOfInstr i = o ∧ operandBytes i = operands ∧ i.wf = true := by
  cases o with
  | timeRd | almRd | irqSvc | clkEn | clkDis | clkIsen | clkRecalc | ofsRd =>
    obtain ⟨rfl, rfl⟩ := readNone_eq_some h
    exact ⟨rfl, rfl, rfl⟩
  | almEn | ofsWr =>
    obtain ⟨b, rfl, rfl⟩ := readOne_eq_some h
    exact ⟨rfl, rfl, rfl⟩
  | bcdEnc =>
    obtain ⟨b, rfl, rfl⟩ := readOne_eq_some h
    exact ⟨rfl, congrArg ([·]) (toByte_toNat b), fitsByte_toNat b⟩
  | bcdDec =>
    obtain ⟨b, c, rfl, rfl⟩ := readTwo_eq_some h
    exact ⟨rfl, rfl, rfl⟩
  | clkRound | clkSet =>
    obtain ⟨hlen, rfl⟩ := readRate_eq_some h
    exact ⟨rfl, rate_of_four_bytes hlen⟩
  | timeWr =>
    obtain ⟨sec, min, hour, wday, mday, mon, y0, y1, rfl, rfl⟩ := readEight_eq_some h
    exact ⟨rfl, by simp [operandBytes, yearBytes_ofLe], by simp [Instr.wf, fitsByte_toNat, fitsHalf_ofLe]⟩
  | almWr =>
    obtain ⟨sec, min, hour, mday, mon, y0, y1, en, rfl, rfl⟩ := readEight_eq_some h
    exact ⟨rfl, by simp [operandBytes, yearBytes_ofLe], by simp [Instr.wf, fitsByte_toNat, fitsHalf_ofLe]⟩

/-- Operand bytes in the number R75 gives for the opcode can be read. -/
theorem exists_readOperands {o : Opcode} {operands : List Byte} (h : operands.length + 1 = frameLength o) :
    ∃ i, readOperands o operands = some i := by
  have hlen : operands.length = frameLength o - 1 := Nat.eq_sub_of_add_eq h
  cases o with
  | timeRd | almRd | irqSvc | clkEn | clkDis | clkIsen | clkRecalc | ofsRd =>
    obtain rfl := List.length_eq_zero_iff.1 hlen
    exact ⟨_, rfl⟩
  | bcdEnc | almEn | ofsWr =>
    obtain ⟨b, rfl⟩ := List.length_eq_one_iff.1 hlen
    exact ⟨_, rfl⟩
  | bcdDec =>
    obtain ⟨b, c, rfl⟩ := List.length_eq_two.1 hlen
    exact ⟨_, rfl⟩
  | clkRound | clkSet => exact ⟨_, if_pos hlen⟩
  | timeWr | almWr =>
    obtain ⟨b1, b2, b3, b4, b5, b6, b7, b8, rfl⟩ := eight_bytes hlen
    exact ⟨_, rfl⟩

/-! ### Frames and their commands -/

/-- No two rows of R75 have one opcode. -/
theorem opcodeOf_opcodeByte (o : Opcode) : opcodeOf (opcodeByte o) = some o := by cases o <;> decide

/-- Behind the opcode of a row, the decoder reads the operands in that row's format. -/
theorem decode_opcodeByte_cons {o : Opcode} {operands : List Byte} {i : Instr}
    (h : readOperands o operands = some i) : decode (opcodeByte o :: operands) = .ok i := by
  simp only [decode, opcodeOf_opcodeByte, h]

/-- A frame that decodes is an opcode of R75 and operands that can be read in its format. -/
theorem exists_opcode_of_decode {frame : Frame} {i : Instr} (h : decode frame = .ok i) :
    ∃ o operands, frame = opcodeByte o :: operands ∧ readOperands o operands = some i := by
  cases frame with
  | nil => cases h
  | cons op operands =>
    simp only [decode] at h
    split at h
    · cases h
    · rename_i o ho
      split at h
      · cases h
      · rename_i j hj
        cases h
        exact ⟨o, operands, by rw [opcodeOf_eq_some ho], hj⟩

/-- Every row of R75 as the statements list them is a row of the decoder. -/
theorem exists_opcode_of_row {row : Byte × Nat} (h : row ∈ opcodeLengths) :
    ∃ o, row = (opcodeByte o, frameLength o) := by
  have hrows : opcodeLengths = allOpcodes.map fun o => (opcodeByte o, frameLength o) := by decide
  rw [hrows, List.mem_map] at h
  obtain ⟨o, _, rfl⟩ := h
  exact ⟨o, rfl⟩

/-- A frame decodes to a command exactly when it is the frame of that command and the command is well formed. -/
theorem decode_eq_ok_iff {frame : Frame} {i : Instr} : decode frame = .ok i ↔ encode i = frame ∧ i.wf = true := by
  constructor
  · intro h
    obtain ⟨o, operands, rfl, hread⟩ := exists_opcode_of_decode h
    obtain ⟨rfl, rfl, hwf⟩ := operandBytes_of_readOperands hread
    exact ⟨rfl, hwf⟩
  · rintro ⟨rfl, hwf⟩
    exact decode_opcodeByte_cons (readOperands_operandBytes hwf)

/-- Settles O1: the frame is the opcode byte, which selects its row, and the operand bytes, which are read back. -/
theorem decodeOfEncodeIsTheCommand : Obligations.DecodeOfEncodeIsTheCommand :=
  fun _ hwf => decode_eq_ok_iff.2 ⟨rfl, hwf⟩

/-- Settles O2: what is read in each format has the bytes it was read from. -/
theorem encodeOfDecodedFrameIsTheFrame : Obligations.EncodeOfDecodedFrameIsTheFrame :=
  fun _ _ => decode_eq_ok_iff.1

/-- Settles O3: the opcode selects the row, and the length is all the row's format asks of the operands. -/
theorem frameDecodesExactlyWhenTableHasIt : Obligations.FrameDecodesExactlyWhenTableHasIt := by
  intro frame
  constructor
  · rintro ⟨i, hi⟩
    exact tableFrame_of_decode hi
  · rintro ⟨row, hrow, hhead, hlen⟩
    obtain ⟨o, rfl⟩ := exists_opcode_of_row hrow
    obtain ⟨operands, rfl⟩ := List.head?_eq_some_iff.1 hhead
    obtain ⟨i, hi⟩ := exists_readOperands hlen
    exact ⟨i, decode_opcodeByte_cons hi⟩

/-- Settles O4: the decoder, run on each frame. -/
theorem sampleFramesDecode : Obligations.SampleFramesDecode := by
  unfold Obligations.SampleFramesDecode
  decide

end Sys2Proof.Machine
end

section
/-! SUPPORT. A step in which a path takes up the next frame sent to it (`30_encoding.md` sections 3 and 6): a command runs,
any other frame is answered IllegalCommand. -/

namespace Sys2Proof.Machine

/-- At its turn, a path with no command in flight goes on with the next frame sent to it. -/
theorem path_ready {s : State} {p : Path} {frame : Frame} {rest : List Frame} (turns : List Move)
    (hf : s.flightOf p = none) (hb : s.inboxOf p = frame :: rest) :
    State.flightOf { s with turns := turns, active := p } p = none ∧
      State.inboxOf { s with turns := turns, active := p } p = frame :: rest := by
  cases p <;> exact ⟨hf, hb⟩

/-- Settles O5: the path finds the command, which is well formed since it was read from a frame. -/
theorem stepRunsDecodedCommand : Obligations.StepRunsDecodedCommand := by
  intro s p frame rest turns i hturn hf hb hd
  obtain ⟨hf', hb'⟩ := path_ready turns hf hb
  refine ⟨(decode_eq_ok_iff.1 hd).2, ?_⟩
  simp only [step, act_of_run hturn, runPath, fetch_of_frame hf' hb' hd]

/-- Settles O6: the decoder refuses the frame, so the path finds no command and answers. -/
theorem stepAnswersIllegalFrame : Obligations.StepAnswersIllegalFrame := by
  intro s p frame rest turns hbad hturn hf hb
  obtain ⟨hf', hb'⟩ := path_ready turns hf hb
  obtain ⟨e, hd⟩ := decode_error_of_not_tableFrame hbad
  simp only [step, act_of_run hturn, runPath, fetch_of_illegal hf' hb' hd, answerIllegal, respond, withInbox_outbox,
    errorFrame, statusCode]

end Sys2Proof.Machine
end

section
/-! SUPPORT. The ranges of decoded fields (`30_encoding.md` R64): a mask bounds both digits of what is decoded under it. -/

namespace Sys2Proof.Machine

/-- Under a mask, a byte decodes to at most what the mask's own digits stand for (R100). -/
theorem bcdDecode_le_mask (b mask : Byte) : bcdDecode b mask ≤ highNibble mask * 10 + lowNibble mask := by
  have hhigh : highNibble (b &&& mask) ≤ highNibble mask :=
    Nat.div_le_div_right (by rw [BitVec.toNat_and]; exact Nat.and_le_right)
  have hlow : lowNibble (b &&& mask) ≤ lowNibble mask := by
    have hmod : (b &&& mask).toNat % 2 ^ 4 = b.toNat % 2 ^ 4 &&& mask.toNat % 2 ^ 4 := by
      rw [BitVec.toNat_and, Nat.and_mod_two_pow]
    exact hmod.trans_le Nat.and_le_right
  rw [bcdDecode]
  omega

/-- In either mode of the hour byte the hour is at most 45 (R122, R64). -/
theorem decodeHour_le (b : Byte) : decodeHour b ≤ 45 := by
  have h24 : bcdDecode b Config.mHr24 ≤ 45 := bcdDecode_le_mask b 0x3F
  have h12 : bcdDecode b Config.mHr12 ≤ 25 := bcdDecode_le_mask b 0x1F
  simp only [decodeHour]
  split_ifs <;> omega

/-- The year offset starts at 100 and the century adds at most another 100 (R126, R64). -/
theorem decodeYear_bounds (yy : Nat) (month : Byte) :
    yy + 100 ≤ decodeYear yy month ∧ decodeYear yy month ≤ yy + 200 := by
  simp only [decodeYear, Config.chipEpoch, Config.swEpoch]
  split_ifs <;> omega

/-- Settles O16: each field is bounded by the digits of its mask. -/
theorem decodedTimeStaysInItsRanges : Obligations.DecodedTimeStaysInItsRanges := by
  intro t
  have hwday : bcdDecode t.weekday Config.mWday ≤ 7 := bcdDecode_le_mask t.weekday 0x07
  have hyear : bcdDecode t.year Config.mYear ≤ 165 := bcdDecode_le_mask t.year 0xFF
  obtain ⟨hlow, hhigh⟩ := decodeYear_bounds (bcdDecode t.year Config.mYear) t.month
  refine ⟨bcdDecode_le_mask t.seconds 0x7F, bcdDecode_le_mask t.minutes 0x7F, decodeHour_le t.hours, ?_, ?_,
    bcdDecode_le_mask t.day 0x3F, bcdDecode_le_mask t.month 0x1F, ?_, ?_⟩ <;>
    simp only [decodeTime] <;> omega

end Sys2Proof.Machine
end

section
/-! SUPPORT. The BCD codec (`40_bcd_codec.md`): its two functions, digit by digit, are inverse, and its two commands end
before LOCK with the function's value (R107). -/

namespace Sys2Proof.Machine

/-! ### The digits of a byte (R100 to R102) -/

theorem toNat_eq_nibbles (b : Byte) : b.toNat = highNibble b * 16 + lowNibble b := (Nat.div_add_mod' _ _).symm

theorem highNibble_lt (b : Byte) : highNibble b < 16 := Nat.div_lt_of_lt_mul (byte_lt b)

theorem lowNibble_lt (b : Byte) : lowNibble b < 16 := Nat.mod_lt _ (by decide)

theorem highNibble_eq_extractLsb (b : Byte) : highNibble b = (b.extractLsb 7 4).toNat := by
  have hb := byte_lt b
  rw [BitVec.extractLsb_toNat, Nat.shiftRight_eq_div_pow, highNibble]
  omega

theorem lowNibble_eq_extractLsb (b : Byte) : lowNibble b = (b.extractLsb 3 0).toNat := by
  rw [BitVec.extractLsb_toNat, Nat.shiftRight_zero]
  rfl

theorem and_ff (b : Byte) : b &&& 0xFF = b := BitVec.and_allOnes

/-- Under the mask 0xFF both digits of the byte itself count. -/
theorem bcdDecode_ff (b : Byte) : bcdDecode b 0xFF = highNibble b * 10 + lowNibble b := by rw [bcdDecode, and_ff]

theorem bcdValid_iff (b : Byte) : bcdValid b = true ↔ highNibble b ≤ 9 ∧ lowNibble b ≤ 9 := by
  rw [bcdValid, Bool.and_eq_true, decide_eq_true_iff, decide_eq_true_iff]

/-- Packing two decimal digits puts them into the two nibbles (R101). -/
theorem packed_digits {high low : Nat} (h : low ≤ 9) : packed (high * 10 + low) = BitVec.ofNat 8 (high * 16 + low) := by
  rw [packed, show (high * 10 + low) / 10 = high by omega, show (high * 10 + low) % 10 = low by omega]

/-- A valid byte is the packed form of the number it decodes to (R104). -/
theorem packed_bcdDecode {b : Byte} (h : bcdValid b = true) : packed (bcdDecode b 0xFF) = b := by
  rw [bcdDecode_ff, packed_digits ((bcdValid_iff b).1 h).2, ← toNat_eq_nibbles]
  exact toByte_toNat b

/-- Settles O10: a nibble is the field of its four bits, a number below 16. -/
theorem bcdDecodeIsTheWeightedSumOfMaskedNibbles : Obligations.BcdDecodeIsTheWeightedSumOfMaskedNibbles := by
  intro byte mask
  constructor
  · rw [← highNibble_eq_extractLsb, ← lowNibble_eq_extractLsb, bcdDecode]
  · have hhigh := highNibble_lt (byte &&& mask)
    have hlow := lowNibble_lt (byte &&& mask)
    rw [bcdDecode]
    omega

/-- Settles O13: `bcdDecode_packed` one way, `packed_bcdDecode` the other; a valid byte decodes to at most 99. -/
theorem bcdRoundTrip : Obligations.BcdRoundTrip := by
  refine ⟨fun n h => ⟨packed n, bcdEncode_of_le h, bcdDecode_packed h (and_ff _)⟩, fun b h => ?_,
    fun n => bcdEncode_of_gt⟩
  obtain ⟨hhigh, hlow⟩ := (bcdValid_iff b).1 h
  have hle : bcdDecode b 0xFF ≤ 99 := by
    rw [bcdDecode_ff]
    omega
  rw [bcdEncode_of_le hle, packed_bcdDecode h]

/-! ### The two commands (R105 to R107) -/

/-- A command that issues no transaction gives its answer from every state and changes nothing else, whoever holds
LOCK (R54, R107). -/
theorem exec_of_issues_nil {i : Instr} (h : issues i = []) (s : State) :
    exec i s = .next (s.answered (answerAtOnce i)) := by
  have hans : answerBeforeLock i = some (answerAtOnce i) := by rw [answerBeforeLock_eq, if_pos h]
  obtain ⟨frame, hframe, hexec⟩ | ⟨hnone, -⟩ | rfl := exec_cases i s
  · obtain rfl := Option.some.inj (hans.symm.trans hframe)
    rw [hexec, answerNow_eq]
  · cases hans.symm.trans hnone
  · cases h

/-- Settles O11: the command issues nothing, and its answer has no case. -/
theorem bcdDecAnswersTheDecodedValue : Obligations.BcdDecAnswersTheDecodedValue :=
  fun s _ _ => ⟨decode_eq_ok_iff.2 ⟨rfl, rfl⟩, exec_of_issues_nil rfl s⟩

/-- Settles O12: the command issues nothing, and its answer is decided by the bound of R106. -/
theorem bcdEncAnswersPackedByteOrInvalidArgument : Obligations.BcdEncAnswersPackedByteOrInvalidArgument := by
  intro s n
  have hexec : exec (.bcdEnc n) s = .next (s.answered (answerAtOnce (.bcdEnc n))) := exec_of_issues_nil rfl s
  refine ⟨fun hbyte => decode_eq_ok_iff.2 ⟨rfl, (fitsByte_iff n).2 hbyte⟩, fun hle => ?_, fun hgt => ?_⟩
  · rw [hexec, answerAtOnce, if_pos hle, packed]
  · rw [hexec, answerAtOnce, if_neg (Nat.not_le_of_lt hgt)]

end Sys2Proof.Machine
end

section
/-! SUPPORT. The commands of one transaction (`20_memory.md` R49), undisturbed, with either answer of the port; and the state
such a command leaves, from which the next command starts. -/

namespace Sys2Proof.Machine

/-! ### One transaction -/

section
variable {i : Instr} (hi : i ≠ .irqSvc) {x : Xact} (hin : xactInside x = true) (reply : List Byte → Frame) {s : State}
  (hq : Quiet 2 s)
include hi hin hq

theorem runScript_one_ok (ha : PortSays [.ok] s) :
    runScript i [x] reply s = .next (s.ran 2 1 (xactReg x .ok s.reg) [⟨x, xactData x .ok s.reg, false⟩]
      [.response s.active (reply (xactData x .ok s.reg))]) := by
  have hrun := runScript_undisturbed hi (xs := [x]) (by simpa using hin) reply hq ha
  simpa [scriptReg, scriptEntries, scriptData] using hrun

theorem runScript_one_busError {took : List Bool} (ha : PortSays [.fail took] s) :
    runScript i [x] reply s = .next (s.ran 2 1 (xactReg x (.fail took) s.reg) [⟨x, [], true⟩]
      [.response s.active [0x01]]) :=
  runScript_busError hi (xs := []) (ys := []) (by simpa using hin) reply hq ha

end

/-! ### The state after a command that ran undisturbed -/

section
variable (s : State) (n k : Nat) (reg : Memory) (entries : List TraceEntry) (outs : List Output)

@[simp] theorem ran_reg : (s.ran n k reg entries outs).reg = reg := rfl
@[simp] theorem ran_lock : (s.ran n k reg entries outs).lock = s.lock := withFlight_lock ..
@[simp] theorem ran_active : (s.ran n k reg entries outs).active = s.active := withFlight_active ..
@[simp] theorem ran_moves : (s.ran n k reg entries outs).moves = s.moves.drop n := rfl
@[simp] theorem ran_answers : (s.ran n k reg entries outs).answers = s.answers.drop k := rfl
@[simp] theorem ran_outbox : (s.ran n k reg entries outs).outbox = s.outbox ++ outs := rfl

variable {s n k reg entries outs}

/-- The points a command does not pass are left for the next one. -/
theorem Quiet.ran {m : Nat} (hq : Quiet (n + m) s) : Quiet m (s.ran n k reg entries outs) := by
  obtain ⟨hlock, hmoves⟩ := hq
  have hdrop := congrArg (List.drop n) hmoves
  refine ⟨by rw [ran_lock, hlock], ?_⟩
  rw [ran_moves]
  rwa [List.drop_take, List.drop_replicate, Nat.add_sub_cancel_left] at hdrop

/-- The port's answers a command does not draw are left for the next one. -/
theorem PortSays.ran {as bs : List PortAnswer} (ha : PortSays (as ++ bs) s) :
    PortSays bs (s.ran n as.length reg entries outs) := by
  have hdrop := congrArg (List.drop as.length) ha
  rw [PortSays, ran_answers]
  rwa [List.drop_take, List.length_append, Nat.add_sub_cancel_left, List.drop_left] at hdrop

end

end Sys2Proof.Machine
end

section
/-! SUPPORT. The time translator (`41_time_translator.md`): the hour's two modes, TIME.RD and TIME.WR with either answer of
the port, and the round trip of a legal time. -/

namespace Sys2Proof.Machine

/-! ### The hour (R122) -/

theorem decodeHour_of_24h {b : Byte} (h24 : b.getLsbD 6 = false) : decodeHour b = bcdDecode b 0x3F :=
  if_neg (Bool.eq_false_iff.1 h24)

/-- In 12-hour mode noon and midnight count as 0 before PM adds 12. -/
theorem decodeHour_of_12h {b : Byte} (h12 : b.getLsbD 6 = true) :
    decodeHour b = (if bcdDecode b 0x1F = 12 then 0 else bcdDecode b 0x1F) + if b.getLsbD 5 then 12 else 0 := by
  refine (if_pos h12).trans ?_
  cases hpm : b.getLsbD 5
  · exact if_neg (Bool.eq_false_iff.1 hpm)
  · exact if_pos hpm

/-- Settles O14: the mode bit selects the branch; under PM the 12 is added in either case of the raw value. -/
theorem decodeHourBranchesOnTheModeBit : Obligations.DecodeHourBranchesOnTheModeBit := by
  refine fun b => ⟨decodeHour_of_24h, fun h12 ham => ?_, fun h12 hpm => ?_⟩ <;> rw [decodeHour_of_12h h12]
  · simp [ham]
  · simp only [hpm]
    split_ifs <;> rfl

/-! ### TIME.RD (R127) -/

theorem exec_timeRd_ok {s : State} (hq : Quiet 2 s) (ha : PortSays [.ok] s) :
    exec .timeRd s = .next (s.ran 2 1 s.reg [⟨.read 0x0A 7, s.reg.readBytes 0x0A 7, false⟩]
      [.response s.active (replyTimeRd (s.reg.readBytes 0x0A 7))]) :=
  runScript_one_ok (i := .timeRd) (x := .read 0x0A 7) (by simp) rfl replyTimeRd hq ha

theorem exec_timeRd_busError {s : State} {took : List Bool} (hq : Quiet 2 s) (ha : PortSays [.fail took] s) :
    exec .timeRd s = .next (s.ran 2 1 s.reg [⟨.read 0x0A 7, [], true⟩] [.response s.active [0x01]]) :=
  runScript_one_busError (i := .timeRd) (x := .read 0x0A 7) (by simp) rfl replyTimeRd hq ha

/-- Settles O15: one read, whose seven bytes `replyTimeRd` decodes field by field. -/
theorem timeRdAnswersTheDecodedBlock : Obligations.TimeRdAnswersTheDecodedBlock :=
  ⟨decode_eq_ok_iff.2 ⟨rfl, rfl⟩, fun _ => exec_timeRd_ok, fun _ _ => exec_timeRd_busError⟩

/-! ### TIME.WR (R129, R130) -/

section
variable {sec min hour wday mday mon y : Nat}

theorem packedTime_length : (packedTime sec min hour wday mday mon y).length = 7 := rfl

theorem packedTime_inside : 0x0A + (packedTime sec min hour wday mday mon y).length ≤ Config.regSize := by
  rw [packedTime_length, Config.regSize_eq]
  decide

/-- Outside the legal ranges no transaction is issued, and the answer is InvalidArgument. -/
theorem exec_timeWr_illegal (h : ¬ LegalTime sec min hour wday mday mon y) (s : State) :
    exec (.timeWr sec min hour wday mday mon y) s = .next (s.answered [0x02]) :=
  exec_of_issues_nil (i := .timeWr sec min hour wday mday mon y) (if_neg h) s

variable (h : LegalTime sec min hour wday mday mon y) {s : State}
include h

/-- Legal operands pass the check, so the command is its one write. -/
theorem exec_timeWr_legal :
    exec (.timeWr sec min hour wday mday mon y) s = runScript (.timeWr sec min hour wday mday mon y)
      [.write 0x0A (packedTime sec min hour wday mday mon y)] (fun _ => [0x00]) s := by
  rw [exec, execTimeWr, checkTimeWr_legal h]
  rfl

variable (hq : Quiet 2 s)
include hq

theorem exec_timeWr_ok (ha : PortSays [.ok] s) :
    exec (.timeWr sec min hour wday mday mon y) s =
      .next (s.ran 2 1 (s.reg.writeBytes 0x0A (packedTime sec min hour wday mday mon y))
        [⟨.write 0x0A (packedTime sec min hour wday mday mon y), [], false⟩] [.response s.active [0x00]]) :=
  (exec_timeWr_legal h).trans (runScript_one_ok (by simp) rfl _ hq ha)

theorem exec_timeWr_busError {took : List Bool} (ha : PortSays [.fail took] s) :
    exec (.timeWr sec min hour wday mday mon y) s =
      .next (s.ran 2 1 (xactReg (.write 0x0A (packedTime sec min hour wday mday mon y)) (.fail took) s.reg)
        [⟨.write 0x0A (packedTime sec min hour wday mday mon y), [], true⟩] [.response s.active [0x01]]) :=
  (exec_timeWr_legal h).trans (runScript_one_busError (by simp) rfl _ hq ha)

end

/-- Settles O17: illegal operands issue nothing; legal ones issue one block write, which the laws of block writes describe
for either answer of the port. -/
theorem timeWrWritesTheEncodedBlockOnce : Obligations.TimeWrWritesTheEncodedBlockOnce := by
  intro s sec min hour wday mday mon y
  exact ⟨fun hwf => decode_eq_ok_iff.2 ⟨rfl, hwf⟩, fun h => exec_timeWr_illegal h s,
    fun h hq ha => ⟨_, s.reg.writeBytes_stores 0x0A _ packedTime_inside, exec_timeWr_ok h hq ha⟩,
    fun took h hq ha => ⟨_, failed_write_stores_part s.reg 0x0A took _ packedTime_inside,
      exec_timeWr_busError h hq ha⟩⟩

/-! ### The round trip (R132) -/

section
variable {sec min hour wday mday mon y : Nat} (h : LegalTime sec min hour wday mday mon y)
include h

/-- Of a legal year the two digits and the century bit that are written give back the year (R126, R129). -/
theorem decodeYear_packed :
    decodeYear (bcdDecode (packed (y % 100)) 0xFF) (packed mon ||| if 200 ≤ y then 0x80 else 0x00) = y := by
  obtain ⟨-, -, -, -, -, -, -, hmon, hlow, hhigh⟩ := h
  have hcentury := century_of_month hmon (decide (200 ≤ y))
  simp only [decide_eq_true_eq] at hcentury
  rw [decodeYear, bcdDecode_packed (by omega) (and_ff _), show Config.bCentury = 7 from rfl, hcentury]
  simp only [Config.chipEpoch, Config.swEpoch, decide_eq_true_eq]
  split_ifs <;> omega

/-- The record decoded from the bytes of a legal time is that time. -/
theorem decodeTime_packedTime :
    decodeTime (timeOfBytes (packedTime sec min hour wday mday mon y)) = ⟨sec, min, hour, wday, mday, mon, y⟩ := by
  have hyear := decodeYear_packed h
  obtain ⟨hsec, hmin, hhour, hwday, -, hmday, -, hmon, -, -⟩ := h
  have hmonth := bcdDecode_month_century hmon (decide (200 ≤ y))
  simp only [decide_eq_true_eq] at hmonth
  show WallClockTime.mk (bcdDecode (packed sec) 0x7F) (bcdDecode (packed min) 0x7F) (decodeHour (packed hour))
    ((bcdDecode (packed (wday + 1)) 0x07 : Int) - 1) (bcdDecode (packed mday) 0x3F) _ _ = _
  rw [bcdDecode_packed_7F (by omega), bcdDecode_packed_7F (by omega), decodeHour_packed hhour,
    bcdDecode_packed_07 (by omega), bcdDecode_packed_3F (by omega), Nat.cast_succ, add_sub_cancel_right]
  exact congrArg₂ (WallClockTime.mk sec min hour wday mday) hmonth hyear

/-- TIME.RD's answer to the bytes TIME.WR writes carries the operands of TIME.WR. -/
theorem replyTimeRd_packedTime :
    replyTimeRd (packedTime sec min hour wday mday mon y) =
      [0x00, BitVec.ofNat 8 sec, BitVec.ofNat 8 min, BitVec.ofNat 8 hour, BitVec.ofNat 8 wday,
        BitVec.ofNat 8 mday, BitVec.ofNat 8 mon] ++ halfBytes y := by
  rw [replyTimeRd, decodeTime_packedTime h, timePayload, BitVec.ofInt_natCast]
  rfl

end

/-- Settles O18: the read delivers the bytes of the write, and they decode to the time they were packed from. -/
theorem timeReadReturnsTheTimeWritten : Obligations.TimeReadReturnsTheTimeWritten := by
  intro s sec min hour wday mday mon y h hq ha
  have hread : (s.reg.writeBytes 0x0A (packedTime sec min hour wday mday mon y)).readBytes 0x0A 7 = _ :=
    s.reg.readBytes_writeBytes 0x0A _ packedTime_inside
  refine ⟨_, _, exec_timeWr_ok h (quiet_of_le (by decide) hq) (portSays_of_le (n := 1) (m := 2) (by decide) ha),
    exec_timeRd_ok (Quiet.ran (n := 2) hq) (PortSays.ran (as := [.ok]) ha), ?_⟩
  simp only [ran_outbox, ran_reg, ran_active, hread, replyTimeRd_packedTime h, List.append_assoc, List.singleton_append]

end Sys2Proof.Machine
end

section
/-! SUPPORT. A flag at bit 0 of its register (`10_state.md` R12, R13): the byte a masked update of it leaves, for either
answer of the port (`20_memory.md` R43). -/

namespace Sys2Proof.Machine

theorem exists_boolByte {b : Byte} (h : b = 0x00 ∨ b = 0x01) : ∃ e, b = boolByte e := by
  rcases h with rfl | rfl
  · exact ⟨false, rfl⟩
  · exact ⟨true, rfl⟩

theorem boolByte_cases (e : Bool) : boolByte e = 0x00 ∨ boolByte e = 0x01 := by
  cases e
  · exact .inl rfl
  · exact .inr rfl

/-- Under the mask of bit 0, a boolean byte takes the place of that bit. -/
theorem mergeBits_flag (old : Byte) {b : Byte} (h : b = 0x00 ∨ b = 0x01) :
    mergeBits old 0x01 b = (old &&& 0xFE) ||| b := by
  have hb : b &&& 0x01 = b := by rcases h with rfl | rfl <;> rfl
  rw [mergeBits, hb]
  rfl

theorem mergeBits_clear_flag (old : Byte) : mergeBits old 0x01 0x00 = old &&& 0xFE :=
  (mergeBits_flag old (.inl rfl)).trans BitVec.or_zero

theorem flag_of_set (old : Byte) (e : Bool) : ((old &&& 0xFE) ||| boolByte e).getLsbD 0 = e := by
  rw [← mergeBits_flag old (boolByte_cases e), mergeBits_getLsbD]
  cases e <;> rfl

theorem flag_of_cleared (old : Byte) : (old &&& 0xFE).getLsbD 0 = false := by
  rw [← mergeBits_clear_flag, mergeBits_getLsbD]
  rfl

theorem a1f_eq (s : State) : s.a1f = (s.reg.get 0x00).getLsbD 0 := rfl

theorem a1ie_eq (s : State) : s.a1ie = (s.reg.get 0x01).getLsbD 0 := rfl

/-- Whether a masked update took effect under this answer of the port (R43, R44). -/
def updateTook : PortAnswer → Bool
  | .ok => true
  | .fail took => took.headD false

theorem xactReg_update_eq (m : Memory) (ans : PortAnswer) (addr : Nat) (mask val : Byte) :
    xactReg (.update addr mask val) ans m =
      if updateTook ans then m.set addr (mergeBits (m.get addr) mask val) else m := by
  cases ans <;> rfl

theorem xactReg_update_get_self (m : Memory) (ans : PortAnswer) {addr : Nat} (mask val : Byte)
    (h : addr < Config.regSize) : (xactReg (.update addr mask val) ans m).get addr =
      if updateTook ans then mergeBits (m.get addr) mask val else m.get addr := by
  rw [xactReg_update_eq]
  split
  · exact Memory.get_set_self m _ h
  · rfl

end Sys2Proof.Machine
end

section
/-! SUPPORT. The chip's step in numbers of the spec (`42_alarm_manager.md` section 4, R158 to R160): the tick, the compare,
and the pending flag, which the step raises and never clears. -/

namespace Sys2Proof.Machine

/-- Settles O27: the match is the conjunction of the six comparisons. -/
theorem alarmMatchComparesSixDecodedFields : Obligations.AlarmMatchComparesSixDecodedFields := by
  intro t a
  simp only [alarmMatch, Bool.and_eq_true, decide_eq_true_eq, and_assoc]
  rfl

/-- Whether the alarm matches once the time has moved on by `tick` (R158, R159). -/
def tickHits (tick : TimeBlock → TimeBlock) (m : Memory) : Bool :=
  alarmMatch (tick (timeOfBytes (m.readBytes 0x0A 7))) (alarmOfBytes (m.readBytes 0x11 6))

section
variable (tick : TimeBlock → TimeBlock) (m : Memory)

/-- The tick stores the seven bytes of the new time and nothing else. -/
theorem tickedReg_stores : Stores 0x0A (timeBytes (tick (timeOfBytes (m.readBytes 0x0A 7)))) m (tickedReg tick m) :=
  m.writeBytes_stores 0x0A _ (show 17 ≤ 256 by decide)

theorem tickedReg_get_outside {a : Nat} (h : a < 0x0A ∨ 0x10 < a) : (tickedReg tick m).get a = m.get a :=
  (tickedReg_stores tick m).2 a h

/-- The compare is of the new time with the alarm block, which the tick leaves alone. -/
theorem alarmMatch_tickedReg :
    alarmMatch (tickedReg tick m).timeBlock (tickedReg tick m).alarmBlock = tickHits tick m := by
  have htime : (tickedReg tick m).timeBlock = tick m.timeBlock := timeBlock_writeBytes m _
  have halarm : (tickedReg tick m).readBytes 0x11 6 = m.readBytes 0x11 6 :=
    Memory.readBytes_congr fun k _ => tickedReg_get_outside tick m (by omega)
  rw [htime]
  exact congrArg (fun bytes => alarmMatch (tick m.timeBlock) (alarmOfBytes bytes)) halarm

/-- The compare writes STATUS1 only. -/
theorem comparedReg_get_ne {a : Nat} (h : a ≠ 0x00) : (comparedReg m).get a = m.get a := by
  rw [comparedReg]
  split
  · exact Memory.get_set_ne m _ h
  · rfl

theorem comparedReg_tickedReg_status1 : (comparedReg (tickedReg tick m)).get 0x00 =
    if tickHits tick m then m.get 0x00 ||| 0x01 else m.get 0x00 := by
  rw [comparedReg, alarmMatch_tickedReg]
  split
  · rw [← tickedReg_get_outside tick m (a := 0x00) (.inl (by decide))]
    exact Memory.get_set_self _ _ (by decide)
  · exact tickedReg_get_outside tick m (.inl (by decide))

theorem comparedReg_tickedReg_get_outside {a : Nat} (h0 : a ≠ 0x00) (h : a < 0x0A ∨ 0x10 < a) :
    (comparedReg (tickedReg tick m)).get a = m.get a :=
  (comparedReg_get_ne _ h0).trans (tickedReg_get_outside tick m h)

end

theorem step_of_chip {s : State} {turns : List Move} (h : s.turns = .chip :: turns) :
    step s = .next (chipStep { s with turns := turns }) := by
  simp only [step, act, nextTurn, popTurn, h]

/-- Settles O28: byte by byte through the compare and the tick; the turn of the chip is `chipStep`. -/
theorem chipStepTicksThenCompares : Obligations.ChipStepTicksThenCompares := by
  refine ⟨fun tick s => ⟨comparedReg (tickedReg tick s.reg), rfl, fun k hk => ?_,
    comparedReg_tickedReg_status1 tick s.reg, fun a h0 h => comparedReg_tickedReg_get_outside tick s.reg h0 h⟩,
    fun s turns h => step_of_chip h⟩
  rw [comparedReg_get_ne _ (by omega)]
  exact (tickedReg_stores tick s.reg).1 k hk

/-! ### The two flags under the chip's step -/

section
variable (tick : TimeBlock → TimeBlock) (s : State)

theorem chipStepWith_a1f : (chipStepWith tick s).a1f = (s.a1f || tickHits tick s.reg) := by
  rw [a1f_eq, a1f_eq, chipStepWith_reg, comparedReg_tickedReg_status1]
  cases tickHits tick s.reg
  · exact (Bool.or_false _).symm
  · exact BitVec.getLsbD_or

theorem chipStepWith_a1ie : (chipStepWith tick s).a1ie = s.a1ie :=
  congrArg (·.getLsbD 0) (comparedReg_tickedReg_get_outside tick s.reg (a := 0x01) (by decide) (.inl (by decide)))

end

theorem chipStep_keeps_a1f {s : State} (h : s.a1f = true) : (chipStep s).a1f = true := by
  rw [chipStep, chipStepWith_a1f, h, Bool.true_or]

theorem performMove_keeps_a1f (m : Move) {s : State} (h : s.a1f = true) : (performMove m s).a1f = true := by
  rw [a1f_eq] at h ⊢
  rcases performMove_reg m s with hreg | hreg <;> rw [hreg]
  · exact h
  · exact chipStep_keeps_a1f h

/-- STATUS1 is a target of ALM.WR and IRQ.SVC only (R155, R220). -/
theorem mem_targets_status1 {i : Instr} (h : 0x00 ∈ targets i) :
    (∃ sec min hour mday mon y en, i = .almWr sec min hour mday mon y en) ∨ i = .irqSvc := by
  cases i <;> simp_all [targets]

/-- Settles O29: the chip's step raises the flag or leaves it, and a command that does not target STATUS1 leaves it. -/
theorem pendingFlagIsSticky : Obligations.PendingFlagIsSticky := by
  refine ⟨fun s ms h => performMoves_induct (P := fun u => u.a1f = true) (fun m _ hu => performMove_keeps_a1f m hu) ms h,
    fun s t i hwr hsvc h he => ?_⟩
  have htarget : 0x00 ∉ targets i := fun hmem => by
    rcases mem_targets_status1 hmem with ⟨sec, min, hour, mday, mon, y, en, hi⟩ | hi
    · exact hwr _ _ _ _ _ _ _ hi
    · exact hsvc hi
  exact exec_reg_induct (Q := fun m => (m.get 0x00).getLsbD 0 = true) i (fun _ hu => chipStep_keeps_a1f hu)
    (fun x hx ans m hm => by rwa [xactReg_get_of_not_target hx htarget]) h he

end Sys2Proof.Machine
end

section
/-! SUPPORT. ALM.RD (`42_alarm_manager.md` section 2, R150 to R152): its four reads, the answer made of their bytes, and the
read that fails first. -/

namespace Sys2Proof.Machine

/-! ### Scripts of reads, cut at the transaction that fails -/

theorem scriptEntries_take (xs : List Xact) (k : Nat) (m : Memory) :
    scriptEntries (xs.take k) m = (scriptEntries xs m).take k := by
  induction xs generalizing k m with
  | nil => simp [scriptEntries]
  | cons x xs ih =>
    cases k with
    | zero => rfl
    | succ k => simp [scriptEntries, ih]

/-- A script of reads leaves the register space as it is (R41). -/
theorem scriptReg_reads {xs : List Xact} (h : ∀ x ∈ xs, ∃ addr len, x = .read addr len) (m : Memory) :
    scriptReg xs m = m := by
  induction xs with
  | nil => rfl
  | cons x xs ih =>
    obtain ⟨addr, len, rfl⟩ := h x (by simp)
    exact ih fun y hy => h y (by simp [hy])

/-- A command of reads only, of which number `k` is the first to fail, runs undisturbed: the later ones are not issued, no
register changes, the answer is BusError (R41, R45). -/
theorem runScript_reads_busError {i : Instr} (hi : i ≠ .irqSvc) {xs : List Xact} (hin : xs.all xactInside = true)
    (hreads : ∀ x ∈ xs, ∃ addr len, x = .read addr len) (reply : List Byte → Frame) {s : State} {k : Nat}
    {took : List Bool} (hk : k < xs.length) (hq : Quiet (k + 2) s)
    (ha : PortSays (List.replicate k .ok ++ [.fail took]) s) :
    runScript i xs reply s = .next (s.ran (k + 2) (k + 1) s.reg
      ((scriptEntries xs s.reg).take k ++ [⟨xs[k], [], true⟩]) [.response s.active [0x01]]) := by
  have hcut : xs.take k ++ xs[k] :: xs.drop (k + 1) = xs := by simp
  have hlen : (xs.take k).length = k := List.length_take_of_le hk.le
  obtain ⟨addr, len, hx⟩ := hreads xs[k] (List.getElem_mem hk)
  have hrun := runScript_busError hi (xs := xs.take k) (x := xs[k]) (ys := xs.drop (k + 1)) (took := took)
    (by rwa [hcut]) reply (s := s) (by rwa [hlen]) (by rwa [hlen])
  rw [hcut, hlen, scriptReg_reads (fun x hx => hreads x (List.mem_of_mem_take hx)), scriptEntries_take] at hrun
  rw [hrun, hx]
  rfl

/-! ### The command -/

theorem issues_almRd_reads : ∀ x ∈ issues .almRd, ∃ addr len, x = .read addr len := by simp [issues]

/-- The answer to the fifteen bytes of the four reads (R77, R150 to R152). -/
theorem replyAlmRd_scriptData (m : Memory) : replyAlmRd (scriptData (issues .almRd) m) =
    [0x00, BitVec.ofNat 8 (bcdDecode (m.get 0x11) 0x7F), BitVec.ofNat 8 (bcdDecode (m.get 0x12) 0x7F),
      BitVec.ofNat 8 (bcdDecode (m.get 0x13) 0x3F), BitVec.ofNat 8 (bcdDecode (m.get 0x14) 0x3F),
      BitVec.ofNat 8 (bcdDecode (m.get 0x15) 0x1F)] ++
      halfBytes (bcdDecode (m.get 0x16) 0xFF + 100 + (if (m.get 0x0F).getLsbD 7 then 100 else 0)) ++
      [if (m.get 0x01).getLsbD 0 then 0x01 else 0x00, if (m.get 0x00).getLsbD 0 then 0x01 else 0x00] := rfl

theorem exec_almRd_ok {s : State} (hq : Quiet 5 s) (ha : PortSays [.ok, .ok, .ok, .ok] s) :
    exec .almRd s = .next (s.ran 5 4 s.reg (almRdEntries s)
      [.response s.active (replyAlmRd (scriptData (issues .almRd) s.reg))]) :=
  runScript_undisturbed (i := .almRd) (by simp) (xs := issues .almRd) rfl replyAlmRd hq ha

/-- The transactions of the four entries are those of the row of R49. -/
theorem almRdEntries_xact (s : State) {k : Nat} (hk : k < (issues .almRd).length) :
    ((almRdEntries s).getD k default).xact = (issues .almRd)[k] := by
  have hrow : (almRdEntries s).map TraceEntry.xact = issues .almRd := rfl
  have hk' : k < (almRdEntries s).length := hk
  simp only [← hrow, List.getElem_map, List.getD_eq_getElem _ _ hk']

/-- Settles O21: the four reads run as a script; a script of reads that fails at the read `k` issues nothing after it. -/
theorem almRdAnswersTheAlarmInTheLiveCentury : Obligations.AlmRdAnswersTheAlarmInTheLiveCentury := by
  refine ⟨decode_eq_ok_iff.2 ⟨rfl, rfl⟩, fun s hq ha => ?_, fun s k took hk hq ha => ?_⟩
  · rw [exec_almRd_ok hq ha, replyAlmRd_scriptData]
    rfl
  · rw [almRdEntries_xact s hk]
    exact runScript_reads_busError (by simp) rfl issues_almRd_reads replyAlmRd hk hq ha

end Sys2Proof.Machine
end

section
/-! SUPPORT. ALM.EN and ALM.WR (`42_alarm_manager.md` sections 3 and 5, R153 to R157, R162): what they refuse, and what
their transactions leave for either answer of the port. -/

namespace Sys2Proof.Machine

/-! ### ALM.EN (R157) -/

theorem exec_almEn_illegal {b : Byte} (h0 : b ≠ 0x00) (h1 : b ≠ 0x01) (s : State) :
    exec (.almEn b) s = .next (s.answered [0x02]) :=
  exec_of_issues_nil (i := .almEn b) (if_neg (not_or.2 ⟨h0, h1⟩)) s

section
variable {b : Byte} (hb : b = 0x00 ∨ b = 0x01) {s : State}
include hb

/-- A boolean passes the check, so the command is its one update. -/
theorem exec_almEn_legal :
    exec (.almEn b) s = runScript (.almEn b) [.update 0x01 0x01 b] (fun _ => [0x00]) s := by
  obtain ⟨e, rfl⟩ := exists_boolByte hb
  rw [exec, execAlmEn, checkAlmEn, readBool_boolByte, checked_ok]
  cases e <;> rfl

variable (hq : Quiet 2 s)
include hq

theorem exec_almEn_ok (ha : PortSays [.ok] s) : ∃ reg, Stores 0x01 [(s.byteAt 0x01 &&& 0xFE) ||| b] s.reg reg ∧
    exec (.almEn b) s = .next (s.ran 2 1 reg [⟨.update 0x01 0x01 b, [], false⟩] [.response s.active [0x00]]) := by
  refine ⟨_, ?_, (exec_almEn_legal hb).trans (runScript_one_ok (by simp) rfl _ hq ha)⟩
  rw [← mergeBits_flag _ hb]
  exact update_stores s.reg 0x01 b (by decide)

theorem exec_almEn_busError {took : List Bool} (ha : PortSays [.fail took] s) :
    ∃ reg, StoresPart 0x01 took [(s.byteAt 0x01 &&& 0xFE) ||| b] s.reg reg ∧
      exec (.almEn b) s = .next (s.ran 2 1 reg [⟨.update 0x01 0x01 b, [], true⟩] [.response s.active [0x01]]) := by
  refine ⟨_, ?_, (exec_almEn_legal hb).trans (runScript_one_busError (by simp) rfl _ hq ha)⟩
  rw [← mergeBits_flag _ hb]
  exact failed_update_stores_part s.reg took 0x01 b (by decide)

end

/-- Settles O25: a byte that is no boolean issues nothing; a boolean issues one update, which the laws of masked updates
describe for either answer of the port. -/
theorem almEnUpdatesOnlyTheEnableBit : Obligations.AlmEnUpdatesOnlyTheEnableBit :=
  fun s _ => ⟨decode_eq_ok_iff.2 ⟨rfl, rfl⟩, fun h0 h1 => exec_almEn_illegal h0 h1 s,
    fun hb hq => exec_almEn_ok hb hq, fun _ hb hq => exec_almEn_busError hb hq⟩

/-! ### The register space in the course of ALM.WR (R155, R156) -/

/-- `m'` is `m` but for the alarm block, which holds `bytes`, INT_EN1, which is `intEn1`, and STATUS1, which is
`status1`. -/
structure AlarmRegs (bytes : List Byte) (intEn1 status1 : Byte) (m m' : Memory) : Prop where
  block : ∀ k, k < 6 → m'.get (0x11 + k) = bytes.getD k 0
  intEn1 : m'.get 0x01 = intEn1
  status1 : m'.get 0x00 = status1
  others : ∀ a, a ≠ 0x00 → a ≠ 0x01 → a < 0x11 ∨ 0x16 < a → m'.get a = m.get a

/-- The block write leaves both control registers alone. -/
theorem AlarmRegs.of_write {bytes : List Byte} (hlen : bytes.length = 6) (m : Memory) :
    AlarmRegs bytes (m.get 0x01) (m.get 0x00) m (m.writeBytes 0x11 bytes) := by
  obtain ⟨hinside, houtside⟩ := m.writeBytes_stores 0x11 bytes (by rw [hlen]; decide)
  rw [hlen] at hinside houtside
  exact ⟨hinside, houtside _ (.inl (by decide)), houtside _ (.inl (by decide)), fun a _ _ h => houtside a h⟩

section
variable {bytes : List Byte} {intEn1 status1 : Byte} {m m' : Memory} (h : AlarmRegs bytes intEn1 status1 m m')
  (ans : PortAnswer)
include h

theorem AlarmRegs.enable {en : Byte} (hen : en = 0x00 ∨ en = 0x01) :
    AlarmRegs bytes (if updateTook ans then (intEn1 &&& 0xFE) ||| en else intEn1) status1 m
      (xactReg (.update 0x01 0x01 en) ans m') where
  block k hk := by rw [xactReg_update_get_ne _ _ _ _ (by omega), h.block k hk]
  intEn1 := by rw [xactReg_update_get_self _ _ _ _ (by decide), h.intEn1, mergeBits_flag _ hen]
  status1 := by rw [xactReg_update_get_ne _ _ _ _ (by decide), h.status1]
  others a h0 h1 ha := by rw [xactReg_update_get_ne _ _ _ _ h1, h.others a h0 h1 ha]

theorem AlarmRegs.clear :
    AlarmRegs bytes intEn1 (if updateTook ans then status1 &&& 0xFE else status1) m
      (xactReg (.update 0x00 0x01 0x00) ans m') where
  block k hk := by rw [xactReg_update_get_ne _ _ _ _ (by omega), h.block k hk]
  intEn1 := by rw [xactReg_update_get_ne _ _ _ _ (by decide), h.intEn1]
  status1 := by rw [xactReg_update_get_self _ _ _ _ (by decide), h.status1, mergeBits_clear_flag]
  others a h0 h1 ha := by rw [xactReg_update_get_ne _ _ _ _ h0, h.others a h0 h1 ha]

end

/-! ### ALM.WR -/

/-- Settles O22: an illegal operand issues no transaction, and the answer is InvalidArgument. -/
theorem almWrRefusesIllegalOperands : Obligations.AlmWrRefusesIllegalOperands := by
  intro s sec min hour mday mon y en h
  refine exec_of_issues_nil (i := .almWr sec min hour mday mon y en) (if_neg ?_) s
  rintro ⟨hlegal, hen⟩
  rcases h with h | ⟨h0, h1⟩
  · exact h hlegal
  · exact hen.elim h0 h1

section
variable {sec min hour mday mon y : Nat} {en : Byte}

theorem packedAlarm_length : (packedAlarm sec min hour mday mon y).length = 6 := rfl

variable (hen : en = 0x00 ∨ en = 0x01) (h : LegalAlarm sec min hour mday mon y) {s : State}
include hen h

/-- Legal operands pass the check, so the command is its three transactions. -/
theorem exec_almWr_legal :
    exec (.almWr sec min hour mday mon y en) s = runScript (.almWr sec min hour mday mon y en)
      [.write 0x11 (packedAlarm sec min hour mday mon y), .update 0x01 0x01 en, .update 0x00 0x01 0x00]
      (fun _ => [0x00]) s := by
  obtain ⟨e, rfl⟩ := exists_boolByte hen
  rw [exec, execAlmWr, checkAlmWr_legal e h, checked_ok]
  cases e <;> rfl

theorem exec_almWr_ok (hq : Quiet 4 s) (ha : PortSays [.ok, .ok, .ok] s) :
    ∃ reg, AlarmRegs (packedAlarm sec min hour mday mon y) ((s.byteAt 0x01 &&& 0xFE) ||| en) (s.byteAt 0x00 &&& 0xFE)
        s.reg reg ∧
      exec (.almWr sec min hour mday mon y en) s = .next (s.ran 4 3 reg
        [⟨.write 0x11 (packedAlarm sec min hour mday mon y), [], false⟩, ⟨.update 0x01 0x01 en, [], false⟩,
          ⟨.update 0x00 0x01 0x00, [], false⟩] [.response s.active [0x00]]) :=
  ⟨_, ((AlarmRegs.of_write packedAlarm_length s.reg).enable .ok hen).clear .ok,
    (exec_almWr_legal hen h).trans (runScript_undisturbed (by simp) rfl _ hq ha)⟩

theorem exec_almWr_write_busError {took : List Bool} (hq : Quiet 2 s) (ha : PortSays [.fail took] s) :
    ∃ reg, StoresPart 0x11 took (packedAlarm sec min hour mday mon y) s.reg reg ∧
      exec (.almWr sec min hour mday mon y en) s = .next (s.ran 2 1 reg
        [⟨.write 0x11 (packedAlarm sec min hour mday mon y), [], true⟩] [.response s.active [0x01]]) :=
  ⟨_, failed_write_stores_part s.reg 0x11 took _ (show 23 ≤ 256 by decide),
    (exec_almWr_legal hen h).trans (runScript_busError (by simp) (xs := []) rfl _ hq ha)⟩

theorem exec_almWr_enable_busError {took : List Bool} (hq : Quiet 3 s) (ha : PortSays [.ok, .fail took] s) :
    ∃ reg, AlarmRegs (packedAlarm sec min hour mday mon y)
        (if took.headD false then (s.byteAt 0x01 &&& 0xFE) ||| en else s.byteAt 0x01) (s.byteAt 0x00) s.reg reg ∧
      exec (.almWr sec min hour mday mon y en) s = .next (s.ran 3 2 reg
        [⟨.write 0x11 (packedAlarm sec min hour mday mon y), [], false⟩, ⟨.update 0x01 0x01 en, [], true⟩]
        [.response s.active [0x01]]) :=
  ⟨_, (AlarmRegs.of_write packedAlarm_length s.reg).enable (.fail took) hen,
    (exec_almWr_legal hen h).trans
      (runScript_busError (by simp) (xs := [.write 0x11 (packedAlarm sec min hour mday mon y)]) rfl _ hq ha)⟩

theorem exec_almWr_clear_busError {took : List Bool} (hq : Quiet 4 s) (ha : PortSays [.ok, .ok, .fail took] s) :
    ∃ reg, AlarmRegs (packedAlarm sec min hour mday mon y) ((s.byteAt 0x01 &&& 0xFE) ||| en)
        (if took.headD false then s.byteAt 0x00 &&& 0xFE else s.byteAt 0x00) s.reg reg ∧
      exec (.almWr sec min hour mday mon y en) s = .next (s.ran 4 3 reg
        [⟨.write 0x11 (packedAlarm sec min hour mday mon y), [], false⟩, ⟨.update 0x01 0x01 en, [], false⟩,
          ⟨.update 0x00 0x01 0x00, [], true⟩] [.response s.active [0x01]]) :=
  ⟨_, ((AlarmRegs.of_write packedAlarm_length s.reg).enable .ok hen).clear (.fail took),
    (exec_almWr_legal hen h).trans (runScript_busError (by simp)
      (xs := [.write 0x11 (packedAlarm sec min hour mday mon y), .update 0x01 0x01 en]) rfl _ hq ha)⟩

end

/-- Settles O23: the three transactions in order, each through what it leaves of the alarm's registers. -/
theorem almWrArmsTheAlarm : Obligations.AlmWrArmsTheAlarm := by
  intro s sec min hour mday mon y en hen
  refine ⟨fun hwf => decode_eq_ok_iff.2 ⟨rfl, hwf⟩, fun h hq ha => ?_⟩
  obtain ⟨reg, hreg, hexec⟩ := exec_almWr_ok hen h hq ha
  exact ⟨reg, hreg.block, hreg.intEn1, hreg.status1, hreg.others, hexec⟩

/-- Settles O24: the row of R156 for each transaction that can fail. -/
theorem almWrFailureLeavesDivergence : Obligations.AlmWrFailureLeavesDivergence := by
  intro s sec min hour mday mon y en took hen h
  refine ⟨exec_almWr_write_busError hen h, fun hq ha => ?_, fun hq ha => ?_⟩
  · obtain ⟨reg, hreg, hexec⟩ := exec_almWr_enable_busError hen h hq ha
    refine ⟨reg, hreg.block, hreg.intEn1, fun a h1 ha => ?_, hexec⟩
    by_cases h0 : a = 0x00
    · rw [h0, hreg.status1]
    · exact hreg.others a h0 h1 ha
  · obtain ⟨reg, hreg, hexec⟩ := exec_almWr_clear_busError hen h hq ha
    exact ⟨reg, hreg.block, hreg.intEn1, hreg.status1, hreg.others, hexec⟩

/-! ### The round trip (R162) -/

/-- Of a legal year the two digits are written; read back they stand in the live century `c` (R151, R154). -/
theorem alarmYear_packed {y : Nat} (hlow : 100 ≤ y) (hhigh : y ≤ 299) (c : Bool) :
    bcdDecode (packed (y % 100)) 0xFF + 100 + (if c then 100 else 0) =
      if 200 ≤ y then (if c then y else y - 100) else (if c then y + 100 else y) := by
  rw [bcdDecode_packed (by omega) (and_ff _)]
  split_ifs <;> omega

/-- ALM.RD's answer on a register space that holds the bytes of a legal alarm, enabled and not pending. -/
theorem replyAlmRd_packedAlarm {sec min hour mday mon y : Nat} (h : LegalAlarm sec min hour mday mon y) {old0 old1 : Byte}
    {m m' : Memory} (hreg : AlarmRegs (packedAlarm sec min hour mday mon y) ((old1 &&& 0xFE) ||| 0x01) (old0 &&& 0xFE) m m') :
    replyAlmRd (scriptData (issues .almRd) m') =
      [0x00, BitVec.ofNat 8 sec, BitVec.ofNat 8 min, BitVec.ofNat 8 hour, BitVec.ofNat 8 mday, BitVec.ofNat 8 mon] ++
        halfBytes (if 200 ≤ y then (if (m.get 0x0F).getLsbD 7 then y else y - 100)
          else (if (m.get 0x0F).getLsbD 7 then y + 100 else y)) ++ [0x01, 0x00] := by
  obtain ⟨hsec, hmin, hhour, -, hmday, -, hmon, hlow, hhigh⟩ := h
  have hset : ((old1 &&& 0xFE) ||| 0x01).getLsbD 0 = true := flag_of_set old1 true
  have h11 : m'.get 0x11 = packed sec := hreg.block 0 (by decide)
  have h12 : m'.get 0x12 = packed min := hreg.block 1 (by decide)
  have h13 : m'.get 0x13 = packed hour := hreg.block 2 (by decide)
  have h14 : m'.get 0x14 = packed mday := hreg.block 3 (by decide)
  have h15 : m'.get 0x15 = packed mon := hreg.block 4 (by decide)
  have h16 : m'.get 0x16 = packed (y % 100) := hreg.block 5 (by decide)
  have h0F : m'.get 0x0F = m.get 0x0F := hreg.others 0x0F (by decide) (by decide) (.inl (by decide))
  rw [replyAlmRd_scriptData, h11, h12, h13, h14, h15, h16, h0F, hreg.intEn1, hreg.status1, hset, flag_of_cleared,
    bcdDecode_packed_7F (by omega), bcdDecode_packed_7F (by omega), bcdDecode_packed_3F (by omega),
    bcdDecode_packed_3F (by omega), bcdDecode_packed_1F (by omega), alarmYear_packed hlow hhigh]
  rfl

/-- Settles O26: ALM.RD reads the registers ALM.WR leaves, and they decode to the fields they were packed from. -/
theorem alarmReadReturnsTheAlarmWritten : Obligations.AlarmReadReturnsTheAlarmWritten := by
  intro s sec min hour mday mon y h hq ha
  obtain ⟨reg, hreg, hexec⟩ := exec_almWr_ok (.inr rfl) h (quiet_of_le (by decide) hq)
    (portSays_of_le (n := 3) (m := 7) (by decide) ha)
  refine ⟨_, _, hexec, exec_almRd_ok (Quiet.ran (n := 4) hq) (PortSays.ran (as := [.ok, .ok, .ok]) ha), ?_⟩
  simp only [ran_outbox, ran_reg, ran_active, replyAlmRd_packedAlarm h hreg, List.append_assoc, List.singleton_append]
  rfl

end Sys2Proof.Machine
end

section
/-! SUPPORT. The alarm's two flags and the line (`42_alarm_manager.md` section 5, `60_exceptions.md` section 3, R161, R217):
how the chip's step and the three commands move them. -/

namespace Sys2Proof.Machine

theorem irqLine_eq (s : State) : s.irqLine = ((s.a1ie && s.a1f) || s.irqOther) := by
  rw [State.irqLine, Bool.and_comm]

theorem irqLine_of_a1f_clear {s : State} (h : s.a1f = false) : s.irqLine = s.irqOther := by
  rw [irqLine_eq, h, Bool.and_false, Bool.false_or]

@[simp] theorem ran_irqOther (s : State) (n k : Nat) (reg : Memory) (entries : List TraceEntry) (outs : List Output) :
    (s.ran n k reg entries outs).irqOther = s.irqOther := withFlight_irqOther ..

@[simp] theorem irqSvcReturned_irqOther (notify : Bool) (s : State) :
    (irqSvcReturned notify s).irqOther = s.irqOther := by
  cases notify <;> simp [irqSvcReturned, notified]

/-- R161 for the chip's step. -/
theorem chipStepWith_irqLine (tick : TimeBlock → TimeBlock) (s : State) :
    (chipStepWith tick s).irqLine = ((s.a1ie && (s.a1f || tickHits tick s.reg)) || s.irqOther) := by
  rw [irqLine_eq, chipStepWith_a1ie, chipStepWith_a1f, chipStepWith_irqOther]

/-- The row IRQ.SVC issues leaves the pending flag clear, whether or not it was set, and INT_EN1 as it was (R220). -/
theorem rowIrqSvc_leaves (s : State) : ((scriptReg (rowIrqSvc s.a1f) s.reg).get 0x00).getLsbD 0 = false ∧
    (scriptReg (rowIrqSvc s.a1f) s.reg).get 0x01 = s.reg.get 0x01 := by
  cases hpending : s.a1f
  · exact ⟨hpending, rfl⟩
  · have hstatus1 := (xactReg_update_get_self s.reg .ok (addr := 0x00) 0x01 0x00 (by decide)).trans
      (mergeBits_clear_flag _)
    exact ⟨(congrArg (·.getLsbD 0) hstatus1).trans (flag_of_cleared _),
      xactReg_update_get_ne s.reg .ok (addr := 0x00) (a := 0x01) 0x01 0x00 (by decide)⟩

section
variable {s : State} (hq : Quiet 4 s) (ha : PortSays [.ok, .ok, .ok] s)
include hq ha

/-- R161 for ALM.WR: the pair becomes (en, 0). -/
theorem almWr_flags {sec min hour mday mon y : Nat} (h : LegalAlarm sec min hour mday mon y) (en : Bool) :
    ∃ t, exec (.almWr sec min hour mday mon y (boolByte en)) s = .next t ∧ t.a1ie = en ∧ t.a1f = false ∧
      t.irqLine = s.irqOther := by
  obtain ⟨reg, hreg, hexec⟩ := exec_almWr_ok (boolByte_cases en) h hq ha
  refine ⟨_, hexec, ?set, ?clear, (irqLine_of_a1f_clear ?clear).trans (ran_irqOther ..)⟩
  case set => exact (congrArg (·.getLsbD 0) hreg.intEn1).trans (flag_of_set _ en)
  case clear => exact (congrArg (·.getLsbD 0) hreg.status1).trans (flag_of_cleared _)

/-- R161 for ALM.EN: the pair becomes (b, A1F). -/
theorem almEn_flags (b : Bool) :
    ∃ t, exec (.almEn (boolByte b)) s = .next t ∧ t.a1ie = b ∧ t.a1f = s.a1f ∧
      t.irqLine = ((b && s.a1f) || s.irqOther) := by
  obtain ⟨reg, ⟨hnew, hothers⟩, hexec⟩ := exec_almEn_ok (boolByte_cases b) (quiet_of_le (by decide) hq)
    (portSays_of_le (n := 1) (m := 3) (by decide) ha)
  have hset := (congrArg (·.getLsbD 0) (hnew 0 Nat.zero_lt_one)).trans (flag_of_set _ b)
  have hkept := congrArg (·.getLsbD 0) (hothers 0x00 (.inl Nat.zero_lt_one))
  refine ⟨_, hexec, hset, hkept, ?_⟩
  rw [irqLine_eq, ran_irqOther]
  exact congrArg₂ (fun ie f => (ie && f) || s.irqOther) hset hkept

/-- R161 for IRQ.SVC: the pair becomes (A1IE, 0), and the event is put out exactly if A1F was 1. -/
theorem irqSvc_flags :
    ∃ t, exec .irqSvc s = .next t ∧ t.a1ie = s.a1ie ∧ t.a1f = false ∧ t.irqLine = s.irqOther ∧
      t.outbox = s.outbox ++ (if s.a1f then [.alarmEvent] else []) ++ [.response s.active [0x00]] := by
  have hlen : (rowIrqSvc s.a1f).length ≤ 2 := rowIrqSvc_length_le s.a1f
  obtain ⟨rest, as, hexec⟩ := exec_irqSvc_undisturbed (quiet_of_le (m := 4) (by omega) hq)
    (portSays_of_le (m := 3) (by omega) ha)
  obtain ⟨hclear, hkept⟩ := rowIrqSvc_leaves s
  have hreg : (irqSvcReturned s.a1f (afterScript (rowIrqSvc s.a1f) ⟨.irqSvc, 0, []⟩ rest as
      (acquire (takeUp s.active .irqSvc s)))).reg = scriptReg (rowIrqSvc s.a1f) s.reg := by simp [afterScript]
  refine ⟨_, hexec, ?kept, ?clear, (irqLine_of_a1f_clear ?clear).trans ?other, ?outbox⟩
  case kept => rw [a1ie_eq, hreg, hkept, a1ie_eq]
  case clear => rw [a1f_eq, hreg, hclear]
  case other => simp [afterScript]
  case outbox => simp [afterScript]

end

/-- Settles O31: the chip's step and the three commands, each by its row of R161. -/
theorem alarmStateMachine : Obligations.AlarmStateMachine :=
  ⟨irqLine_eq,
    fun tick s => ⟨chipStepWith_a1ie tick s, chipStepWith_a1f tick s, chipStepWith_irqLine tick s⟩,
    fun _ hq ha => ⟨fun _ _ _ _ _ _ en h => almWr_flags hq ha h en, almEn_flags hq ha, irqSvc_flags hq ha⟩⟩

end Sys2Proof.Machine
end

section
/-! SUPPORT. The nearest index of a rate table (`43_clock_output.md`, R182): the scan keeps the first entry at the least
distance among those it has seen; and the four rates of the default table (R180). -/

namespace Sys2Proof.Machine

/-! ### The distance of two numbers -/

theorem distance_eq_abs (a b : Nat) : (distance a b : Int) = |(a : Int) - b| := by
  rw [distance, abs_eq_max_neg]
  omega

theorem abs_le_abs_iff_distance_le (a b req : Nat) :
    |(a : Int) - req| ≤ |(b : Int) - req| ↔ distance a req ≤ distance b req := by
  rw [← distance_eq_abs, ← distance_eq_abs, Int.ofNat_le]

theorem abs_lt_abs_iff_distance_lt (a b req : Nat) :
    |(a : Int) - req| < |(b : Int) - req| ↔ distance a req < distance b req := by
  rw [← distance_eq_abs, ← distance_eq_abs, Int.ofNat_lt]

/-! ### The scan -/

theorem nearestFrom_nil (req best bestRate i : Nat) : nearestFrom req best bestRate i [] = best := rfl

theorem nearestFrom_cons (req best bestRate i rate : Nat) (rates : List Nat) :
    nearestFrom req best bestRate i (rate :: rates) =
      if distance rate req < distance bestRate req then nearestFrom req i rate (i + 1) rates
      else nearestFrom req best bestRate (i + 1) rates := rfl

/-- Entry `k` of the table is at the least distance from `req`, and it is the first that is. -/
structure FirstNearest (table : List Nat) (req k : Nat) : Prop where
  inside : k < table.length
  least : ∀ j, j < table.length → distance (table.getD k 0) req ≤ distance (table.getD j 0) req
  first : ∀ j, j < k → distance (table.getD k 0) req < distance (table.getD j 0) req

theorem FirstNearest.singleton (rate req : Nat) : FirstNearest [rate] req 0 where
  inside := Nat.zero_lt_one
  least j hj := by rw [Nat.lt_one_iff.1 hj]
  first j hj := absurd hj j.not_lt_zero

section
variable {table : List Nat} {req k rate : Nat} (h : FirstNearest table req k)
include h

/-- An entry closer than all before it becomes the first nearest. -/
theorem FirstNearest.append_closer (hrate : distance rate req < distance (table.getD k 0) req) :
    FirstNearest (table ++ [rate]) req table.length := by
  have hnew : (table ++ [rate]).getD table.length 0 = rate := by simp
  have hold : ∀ j, j < table.length → distance rate req < distance ((table ++ [rate]).getD j 0) req := fun j hj => by
    rw [List.getD_append _ _ _ _ hj]
    exact hrate.trans_le (h.least j hj)
  refine ⟨by simp, fun j hj => ?_, fun j hj => ?_⟩ <;> rw [hnew]
  · rcases Nat.lt_or_eq_of_le (Nat.le_of_lt_succ (by simpa using hj)) with hlt | rfl
    · exact (hold j hlt).le
    · rw [hnew]
  · exact hold j hj

/-- An entry that is no closer, a tie included, leaves the first nearest as it is. -/
theorem FirstNearest.append_not_closer (hrate : ¬ distance rate req < distance (table.getD k 0) req) :
    FirstNearest (table ++ [rate]) req k := by
  have hold : ∀ j, j < table.length → (table ++ [rate]).getD j 0 = table.getD j 0 := fun j => List.getD_append _ _ _ j
  refine ⟨by simpa using Nat.lt_succ_of_lt h.inside, fun j hj => ?_, fun j hj => ?_⟩ <;> rw [hold k h.inside]
  · rcases Nat.lt_or_eq_of_le (Nat.le_of_lt_succ (by simpa using hj)) with hlt | rfl
    · rw [hold j hlt]
      exact h.least j hlt
    · simpa using Nat.le_of_not_lt hrate
  · rw [hold j (hj.trans h.inside)]
    exact h.first j hj

end

/-- From the first nearest of the entries seen so far, the scan of the rest finds the first nearest of all. -/
theorem firstNearest_nearestFrom {seen : List Nat} {req best : Nat} (rates : List Nat)
    (h : FirstNearest seen req best) :
    FirstNearest (seen ++ rates) req (nearestFrom req best (seen.getD best 0) seen.length rates) := by
  induction rates generalizing seen best with
  | nil => rwa [List.append_nil, nearestFrom_nil]
  | cons rate rates ih =>
    rw [nearestFrom_cons, List.append_cons]
    split_ifs with hrate
    · simpa using ih (h.append_closer hrate)
    · simpa [List.getElem?_append_left h.inside] using ih (h.append_not_closer hrate)

theorem exists_firstNearest_of_ne_nil {table : List Nat} (h : table ≠ []) (req : Nat) :
    ∃ k, nearestIndex table req = some k ∧ FirstNearest table req k := by
  cases table with
  | nil => exact absurd rfl h
  | cons rate rates => exact ⟨_, rfl, firstNearest_nearestFrom rates (.singleton rate req)⟩

theorem nearestIndex_of_nearestRate {table : List Nat} {req k rate : Nat} (h : nearestRate table req = some (k, rate)) :
    nearestIndex table req = some k := by
  rw [nearestRate] at h
  split at h
  · cases h
  · split at h <;> cases h
    assumption

/-- Settles O39: the scan of `nearestIndex` finds the first nearest entry; on the default table that is `rateIndex`. -/
theorem nearestIndexIsClosestAndLowestOnTies : Obligations.NearestIndexIsClosestAndLowestOnTies := by
  intro table req
  refine ⟨fun h => by rw [h]; rfl, fun h => ?_, nearestIndex_of_nearestRate (nearestRate_rateTable req)⟩
  obtain ⟨k, hk, hnearest⟩ := exists_firstNearest_of_ne_nil h req
  refine ⟨k, hk, hnearest.inside, fun j hj => ⟨?_, fun hlt => ?_⟩⟩
  · exact (abs_le_abs_iff_distance_le ..).2 (hnearest.least j hj)
  · exact (abs_lt_abs_iff_distance_lt ..).2 (hnearest.first j hlt)

/-! ### The default table (R180) -/

theorem rateIndex_lt (req : Nat) : rateIndex req < 4 := by
  rw [rateIndex]
  split_ifs <;> decide

theorem rateTable_getElem? {k : Nat} (h : k < 4) : Config.rateTable[k]? = some (rateOfIndex k) :=
  (by decide : ∀ k, k < 4 → Config.rateTable[k]? = some (rateOfIndex k)) k h

theorem rsel_lt (v : Byte) : (v &&& 0x03).toNat < 4 := by
  rw [BitVec.toNat_and]
  exact Nat.lt_succ_of_le Nat.and_le_right

/-- The low two bits of a byte select a rate of the default table, whatever the other bits are (R181, R186). -/
theorem storedRate_rateTable (v : Byte) :
    storedRate Config.rateTable Config.rateIdxMask v = some (rateOfIndex (v &&& 0x03).toNat) :=
  rateTable_getElem? (rsel_lt v)

/-- A rate index fits the two bits of RSEL. -/
theorem rateIndexByte_and_mask (req : Nat) : BitVec.ofNat 8 (rateIndex req) &&& 0x03 = BitVec.ofNat 8 (rateIndex req) :=
  (by decide : ∀ k, k < 4 → BitVec.ofNat 8 k &&& 0x03 = BitVec.ofNat 8 k) _ (rateIndex_lt req)

end Sys2Proof.Machine
end

section
/-! SUPPORT. The clock-output commands (`43_clock_output.md`, R183 to R188, R191): what each leaves of CLKOUT_CFG and answers,
for either answer of the port. -/

namespace Sys2Proof.Machine

/-! ### The byte a masked update leaves (R43) -/

/-- Under a mask, a value of no other bits takes the place of the masked bits. -/
theorem mergeBits_of_and_mask (old : Byte) {mask val : Byte} (h : val &&& mask = val) :
    mergeBits old mask val = (old &&& ~~~mask) ||| val := by
  rw [mergeBits, h]

theorem mergeBits_zero (old mask : Byte) : mergeBits old mask 0x00 = old &&& ~~~mask :=
  (mergeBits_of_and_mask old BitVec.zero_and).trans BitVec.or_zero

theorem mergeBits_mask (old mask : Byte) : mergeBits old mask mask = old ||| mask := by
  refine BitVec.eq_of_getLsbD_eq fun k _ => ?_
  rw [mergeBits_getLsbD, BitVec.getLsbD_or]
  cases mask.getLsbD k <;> simp

/-- The masked bits of what a masked update leaves are those of the value written. -/
theorem mergeBits_and_mask (old mask val : Byte) : mergeBits old mask val &&& mask = val &&& mask := by
  refine BitVec.eq_of_getLsbD_eq fun k _ => ?_
  rw [BitVec.getLsbD_and, BitVec.getLsbD_and, mergeBits_getLsbD]
  cases mask.getLsbD k <;> simp

/-! ### A command of one masked update of CLKOUT_CFG -/

section
variable {i : Instr} (hi : i ≠ .irqSvc) {mask val new : Byte} {frame : Frame} {s : State}
  (hexec : exec i s = runScript i [.update 0x06 mask val] (fun _ => frame) s)
  (hnew : mergeBits (s.byteAt 0x06) mask val = new) (hq : Quiet 2 s)
include hi hexec hnew hq

theorem exec_clkout_update_ok (ha : PortSays [.ok] s) : ∃ reg, Stores 0x06 [new] s.reg reg ∧
    exec i s = .next (s.ran 2 1 reg [⟨.update 0x06 mask val, [], false⟩] [.response s.active frame]) := by
  subst hnew
  exact ⟨_, update_stores s.reg mask val (by decide), hexec.trans (runScript_one_ok hi rfl _ hq ha)⟩

theorem exec_clkout_update_busError {took : List Bool} (ha : PortSays [.fail took] s) :
    ∃ reg, StoresPart 0x06 took [new] s.reg reg ∧
      exec i s = .next (s.ran 2 1 reg [⟨.update 0x06 mask val, [], true⟩] [.response s.active [0x01]]) := by
  subst hnew
  exact ⟨_, failed_update_stores_part s.reg took mask val (by decide),
    hexec.trans (runScript_one_busError hi rfl _ hq ha)⟩

end

/-! ### CLK.EN and CLK.DIS (R183, R184) -/

theorem exec_clkEn (s : State) : exec .clkEn s = runScript .clkEn [.update 0x06 0x04 0x04] (fun _ => [0x00]) s := rfl

theorem exec_clkDis (s : State) : exec .clkDis s = runScript .clkDis [.update 0x06 0x04 0x00] (fun _ => [0x00]) s := rfl

/-- Settles O33: one update, under whose mask the new value is all ones. -/
theorem clkEnSetsOnlyTheEnableBit : Obligations.ClkEnSetsOnlyTheEnableBit :=
  ⟨decode_eq_ok_iff.2 ⟨rfl, rfl⟩,
    fun s => exec_clkout_update_ok (by simp) (exec_clkEn s) (mergeBits_mask _ _),
    fun s _ hq => exec_clkout_update_busError (by simp) (exec_clkEn s) (mergeBits_mask _ _) hq⟩

/-- Settles O34: one update, under whose mask the new value is all zeros. -/
theorem clkDisClearsOnlyTheEnableBit : Obligations.ClkDisClearsOnlyTheEnableBit :=
  ⟨decode_eq_ok_iff.2 ⟨rfl, rfl⟩,
    fun s => exec_clkout_update_ok (by simp) (exec_clkDis s) (mergeBits_zero _ _),
    fun s _ hq => exec_clkout_update_busError (by simp) (exec_clkDis s) (mergeBits_zero _ _) hq⟩

/-! ### CLK.ISEN and CLK.RECALC (R185, R186) -/

theorem replyClkRecalc_byte (v : Byte) : replyClkRecalc [v] = 0x00 :: rateBytes (rateOfIndex (v &&& 0x03).toNat) := by
  rw [← rateFrameBytes_eq, replyClkRecalc, List.getD_cons_zero, storedRate_rateTable]
  rfl

/-- Settles O35: one read, of whose byte the answer keeps bit 2. -/
theorem clkIsenReadsTheEnableBit : Obligations.ClkIsenReadsTheEnableBit :=
  ⟨decode_eq_ok_iff.2 ⟨rfl, rfl⟩,
    fun _ => runScript_one_ok (i := .clkIsen) (x := .read 0x06 1) (by simp) rfl replyClkIsen,
    fun _ _ hq => runScript_one_busError (i := .clkIsen) (x := .read 0x06 1) (by simp) rfl replyClkIsen hq⟩

theorem exec_clkRecalc_ok {s : State} (hq : Quiet 2 s) (ha : PortSays [.ok] s) :
    exec .clkRecalc s = .next (s.ran 2 1 s.reg [⟨.read 0x06 1, [s.byteAt 0x06], false⟩]
      [.response s.active (0x00 :: rateBytes (rateOfIndex (s.byteAt 0x06 &&& 0x03).toNat))]) := by
  rw [← replyClkRecalc_byte]
  exact runScript_one_ok (i := .clkRecalc) (x := .read 0x06 1) (by simp) rfl replyClkRecalc hq ha

/-- Settles O36: one read, whose byte selects a rate of the default table. -/
theorem clkRecalcReportsTheStoredRate : Obligations.ClkRecalcReportsTheStoredRate :=
  ⟨decode_eq_ok_iff.2 ⟨rfl, rfl⟩, fun _ => exec_clkRecalc_ok,
    fun _ _ hq => runScript_one_busError (i := .clkRecalc) (x := .read 0x06 1) (by simp) rfl replyClkRecalc hq⟩

/-! ### CLK.ROUND (R187) -/

theorem exec_clkRound (s : State) (req : Nat) :
    exec (.clkRound req) s = .next (s.answered (0x00 :: rateBytes (rateOfIndex (rateIndex req)))) :=
  exec_of_issues_nil (i := .clkRound req) rfl s

/-- Settles O37: the command issues nothing, and its answer is the rate of the nearest index. -/
theorem clkRoundAnswersTheNearestRate : Obligations.ClkRoundAnswersTheNearestRate :=
  fun s req => ⟨fun hreq => decode_eq_ok_iff.2
    ⟨congrArg (List.cons 0x34) (rateFrameBytes_eq req), (fitsRate_iff req).2 hreq⟩, exec_clkRound s req⟩

/-! ### CLK.SET (R188) -/

theorem exec_clkSet (s : State) (req : Nat) :
    exec (.clkSet req) s = runScript (.clkSet req) [.update 0x06 0x03 (BitVec.ofNat 8 (rateIndex req))]
      (fun _ => 0x00 :: rateBytes (rateOfIndex (rateIndex req))) s := by
  rw [← rateFrameBytes_eq, exec, execClkSet, withTable_rateTable, checkClkSet, nearestRate_rateTable, checked_ok]
  rfl

theorem mergeBits_rateIndex (old : Byte) (req : Nat) : mergeBits old 0x03 (BitVec.ofNat 8 (rateIndex req)) =
    (old &&& 0xFC) ||| BitVec.ofNat 8 (rateIndex req) :=
  mergeBits_of_and_mask old (rateIndexByte_and_mask req)

theorem exec_clkSet_ok (req : Nat) {s : State} (hq : Quiet 2 s) (ha : PortSays [.ok] s) :
    ∃ reg, Stores 0x06 [(s.byteAt 0x06 &&& 0xFC) ||| BitVec.ofNat 8 (rateIndex req)] s.reg reg ∧
      exec (.clkSet req) s = .next (s.ran 2 1 reg [⟨.update 0x06 0x03 (BitVec.ofNat 8 (rateIndex req)), [], false⟩]
        [.response s.active (0x00 :: rateBytes (rateOfIndex (rateIndex req)))]) :=
  exec_clkout_update_ok (by simp) (exec_clkSet s req) (mergeBits_rateIndex _ _) hq ha

/-- Settles O38: one update of RSEL with the nearest index, which fits the two bits. -/
theorem clkSetWritesTheNearestIndex : Obligations.ClkSetWritesTheNearestIndex :=
  fun s req => ⟨fun hreq => decode_eq_ok_iff.2
      ⟨congrArg (List.cons 0x35) (rateFrameBytes_eq req), (fitsRate_iff req).2 hreq⟩, exec_clkSet_ok req,
    fun _ hq => exec_clkout_update_busError (by simp) (exec_clkSet s req) (mergeBits_rateIndex _ _) hq⟩

/-! ### The round trip (R191) -/

/-- RSEL, once CLK.SET has stored its index, is that index. -/
theorem rsel_of_rateIndex_stored (old : Byte) (req : Nat) :
    (((old &&& 0xFC) ||| BitVec.ofNat 8 (rateIndex req)) &&& 0x03).toNat = rateIndex req := by
  rw [← mergeBits_rateIndex, mergeBits_and_mask, rateIndexByte_and_mask, BitVec.toNat_ofNat]
  exact Nat.mod_eq_of_lt ((rateIndex_lt req).trans (by decide))

/-- Settles O41: CLK.RECALC reads the index CLK.SET stored, and CLK.ROUND finds the same index again. -/
theorem recalcReturnsTheRateSet : Obligations.RecalcReturnsTheRateSet := by
  intro s req hq ha
  obtain ⟨reg, ⟨hnew, -⟩, hset⟩ := exec_clkSet_ok req (quiet_of_le (by decide) hq)
    (portSays_of_le (n := 1) (m := 2) (by decide) ha)
  have hbyte : reg.get 0x06 = (s.byteAt 0x06 &&& 0xFC) ||| BitVec.ofNat 8 (rateIndex req) := hnew 0 Nat.zero_lt_one
  refine ⟨_, _, _, hset, exec_clkRecalc_ok (Quiet.ran (n := 2) hq) (PortSays.ran (as := [.ok]) ha),
    exec_clkRound _ req, ?_⟩
  simp only [State.answered, ran_outbox, ran_active, State.byteAt, ran_reg, hbyte, rsel_of_rateIndex_stored]
  simp [List.replicate_succ]

end Sys2Proof.Machine
end

section
/-! SUPPORT. The responses UnsupportedRate in the output (`43_clock_output.md` section 4, R190): with the default table, which
is not empty, no part of a command puts one out. -/

namespace Sys2Proof.Machine

/-! ### The answers of commands -/

theorem answerAtOnce_ne_unsupportedRate (i : Instr) : answerAtOnce i ≠ [0x03] := by
  cases i with
  | bcdEnc n => rw [answerAtOnce]; split_ifs <;> exact fun h => absurd (List.cons.inj h).1 (by decide)
  | _ => exact fun h => absurd (List.cons.inj h).1 (by decide)

theorem answerBeforeLock_ne_unsupportedRate {i : Instr} {frame : Frame} (h : answerBeforeLock i = some frame) :
    frame ≠ [0x03] := by
  rw [answerBeforeLock_eq] at h
  split_ifs at h
  cases h
  exact answerAtOnce_ne_unsupportedRate i

/-- What `conclude` can put out: nothing, or one response, which is made by `reply` or is BusError. -/
theorem conclude_outbox_cases (reply : List Byte → Frame) (r : Ended × State) :
    (conclude reply r).outbox = r.2.outbox ∨ (conclude reply r).outbox = (interfere r.2).outbox ∨
      ∃ frame, (frame = [0x01] ∨ ∃ buf, frame = reply buf) ∧
        (conclude reply r).outbox = (interfere r.2).outbox ++ [.response (interfere r.2).active frame] := by
  obtain ⟨e, s⟩ := r
  cases e
  case reset => exact .inl rfl
  all_goals simp only [conclude]
  case done =>
    split
    · exact .inr (.inl rfl)
    · exact .inr (.inr ⟨_, .inr ⟨_, rfl⟩, by rw [respond_outbox, release_outbox]⟩)
  case busError =>
    split
    · exact .inr (.inl rfl)
    · exact .inr (.inr ⟨_, .inl rfl, by rw [raise, respond_outbox, release_outbox]; rfl⟩)

theorem outbox_of_fetch {q : Path} {s s' : State} (h : fetch q s = .illegal s' ∨ ∃ i, fetch q s = .command i s') :
    s'.outbox = s.outbox := by
  rcases fetch_cases q s with ⟨_, _, hx⟩ | ⟨_, _, hx⟩ | ⟨_, _, _, _, _, _, hx⟩ | ⟨_, _, _, _, _, _, hx⟩ <;>
    rw [hx] at h <;> rcases h with h | ⟨i, h⟩ <;> cases h
  · rfl
  · exact withInbox_outbox ..
  · exact withInbox_outbox ..

/-- What another path's move can put out while a command runs: nothing, or one response, never UnsupportedRate. -/
theorem otherRuns_outbox_cases (q : Path) (s : State) : (otherRuns q s).outbox = s.outbox ∨
    ∃ frame, frame ≠ [0x03] ∧ (otherRuns q s).outbox = s.outbox ++ [.response q frame] := by
  by_cases hq : q = s.active
  · exact .inl (by rw [otherRuns_active hq])
  cases hfetch : fetch q s with
  | idle => exact .inl (by rw [otherRuns_idle hfetch])
  | illegal s' =>
    have hsame := outbox_of_fetch (.inl hfetch)
    exact .inr ⟨[0x7F], by decide, by rw [otherRuns_illegal hq hfetch, answerIllegal_outbox, hsame]⟩
  | command i s' =>
    have hsame := outbox_of_fetch (.inr ⟨i, hfetch⟩)
    by_cases hi : issues i = []
    · exact .inr ⟨_, answerAtOnce_ne_unsupportedRate i, by rw [otherRuns_answers hq hfetch hi, respond_outbox, hsame]⟩
    · exact .inl (by rw [otherRuns_waits hq hfetch hi, takeUp_outbox, hsame])

/-! ### The count of UnsupportedRate responses -/

/-- How many responses UnsupportedRate on path `p` stand in the output. -/
def State.unsupported (p : Path) (s : State) : Nat := s.outbox.count (.response p [0x03])

section
variable {p : Path} {u v : State}

theorem unsupported_congr (h : v.outbox = u.outbox) : v.unsupported p = u.unsupported p := congrArg (List.count _) h

theorem unsupported_of_response {q : Path} {frame : Frame} (hframe : frame ≠ [0x03])
    (h : v.outbox = u.outbox ++ [.response q frame]) : v.unsupported p = u.unsupported p := by
  have hne : Output.response q frame ≠ .response p [0x03] := fun heq => hframe (Output.response.inj heq).2
  rw [State.unsupported, h, List.count_append, List.count_cons_of_ne hne, List.count_nil, Nat.add_zero,
    State.unsupported]

end

section
variable (p : Path)

/-- No move of another agent puts one out; a reset of the block drops those that stand (log entry 16). -/
theorem unsupported_performMove_le (m : Move) (s : State) : (performMove m s).unsupported p ≤ s.unsupported p := by
  cases m with
  | chip | line => exact Nat.le_refl _
  | send q frame => exact (unsupported_congr (deliver_outbox s q frame)).le
  | reset => exact Nat.zero_le _
  | serve =>
    rcases otherServes_cases s with h | ⟨_, _, _, _, h⟩ <;> rw [performMove, h]
    exact (unsupported_congr (takeUp_outbox s _ _)).le
  | run q =>
    rcases otherRuns_outbox_cases q s with h | ⟨frame, hframe, h⟩
    · exact (unsupported_congr h).le
    · exact (unsupported_of_response hframe h).le

theorem unsupported_interfere_le (s : State) : (interfere s).unsupported p ≤ s.unsupported p :=
  interfere_induct (P := fun u => u.unsupported p ≤ s.unsupported p)
    (fun m u hu => (unsupported_performMove_le p m u).trans hu)
    (fun u hu => (unsupported_congr (popMoves_outbox u)).le.trans hu) le_rfl

/-- The end of a command puts none out, if the command's own answers are none. -/
theorem unsupported_conclude_le {reply : List Byte → Frame} (hreply : ∀ buf, reply buf ≠ [0x03]) (r : Ended × State) :
    (conclude reply r).unsupported p ≤ r.2.unsupported p := by
  rcases conclude_outbox_cases reply r with h | h | ⟨frame, hframe, h⟩
  · exact (unsupported_congr h).le
  · exact (unsupported_congr h).le.trans (unsupported_interfere_le p r.2)
  · have hne : frame ≠ [0x03] := by
      rcases hframe with rfl | ⟨buf, rfl⟩
      · decide
      · exact hreply buf
    exact (unsupported_of_response hne h).le.trans (unsupported_interfere_le p r.2)

/-- The return of IRQ.SVC puts out its event and "handled" (R220). -/
theorem unsupported_irqSvcReturned (notify : Bool) (s : State) :
    (irqSvcReturned notify s).unsupported p = s.unsupported p := by
  refine (unsupported_of_response (u := notified notify s) (q := s.active) (frame := [0x00]) (by decide) ?_).trans ?_
  · rw [irqSvcReturned_outbox]
    cases notify <;> simp [notified]
  · cases notify <;> simp [notified, State.unsupported]

theorem unsupported_exitIrqSvc_le (notify : Bool) (s : State) :
    (exitIrqSvc notify s).unsupported p ≤ s.unsupported p := by
  rcases exitIrqSvc_cases notify s with ⟨_, h⟩ | ⟨_, _, h⟩ <;> rw [h]
  · exact unsupported_interfere_le p s
  · exact (unsupported_irqSvcReturned p notify _).le.trans (unsupported_interfere_le p s)

theorem unsupported_issueAll_le (xs : List Xact) (s : State) :
    (issueAll xs s).2.unsupported p ≤ s.unsupported p :=
  issueAll_induct (P := fun u => u.unsupported p ≤ s.unsupported p)
    (fun u hu => (unsupported_interfere_le p u).trans hu) xs
    (fun _ _ _ _ _ _ hu => (unsupported_congr (by simp)).le.trans hu) le_rfl

theorem unsupported_bodyIrqSvc_le (s : State) : (bodyIrqSvc s).unsupported p ≤ s.unsupported p :=
  bodyIrqSvc_induct (P := fun u => u.unsupported p ≤ s.unsupported p)
    (fun u hu => (unsupported_interfere_le p u).trans hu)
    (fun _ _ _ _ _ _ hu => (unsupported_congr (by simp)).le.trans hu)
    (fun notify u hu => (unsupported_exitIrqSvc_le p notify u).trans hu) le_rfl

end

/-- A command that is the script of its transactions, answered by a frame that is not UnsupportedRate, puts none out. -/
theorem unsupported_runScript_le (p : Path) {i : Instr} {script : List Xact} {reply : List Byte → Frame}
    (hreply : ∀ buf, reply buf ≠ [0x03]) {s t : State} (he : runScript i script reply s = .next t) :
    t.unsupported p ≤ s.unsupported p := by
  have htake : (takeUp s.active i s).unsupported p = s.unsupported p := unsupported_congr (takeUp_outbox ..)
  rw [runScript] at he
  rcases locked_cases i script (fun s' => conclude reply (issueAll script s')) s with
    ⟨_, h⟩ | ⟨_, _, h⟩ | ⟨_, _, h⟩ <;> cases h.symm.trans he
  · exact ((unsupported_conclude_le p hreply _).trans (unsupported_issueAll_le p script _)).trans htake.le
  · exact htake.le

theorem unsupported_irqSvc_le (p : Path) {s t : State} (he : exec .irqSvc s = .next t) :
    t.unsupported p ≤ s.unsupported p := by
  have htake : (takeUp s.active .irqSvc s).unsupported p = s.unsupported p := unsupported_congr (takeUp_outbox ..)
  rcases irqSvc_cases s with ⟨_, h⟩ | ⟨_, h⟩ <;> cases h.symm.trans he
  · exact (unsupported_bodyIrqSvc_le p _).trans htake.le
  · exact htake.le

/-- Settles O40: a command's own answer is `answerAtOnce`, BusError, "handled", or a frame that begins with OK. -/
theorem unsupportedRateIsNeverAnswered : Obligations.UnsupportedRateIsNeverAnswered := by
  intro s t i p he
  rcases exec_cases i s with ⟨frame, hframe, hx⟩ | ⟨_, _, _, reply, hok, hx⟩ | rfl
  · cases hx.symm.trans he
    have hout : (answerNow frame s).outbox = s.outbox ++ [.response s.active frame] := by
      rw [answerNow, respond_outbox, withFlight_outbox]
    exact (unsupported_of_response (answerBeforeLock_ne_unsupportedRate hframe) hout).le
  · have hreply : ∀ buf, reply buf ≠ [0x03] := fun buf heq => by
      have hhead := hok buf
      rw [heq] at hhead
      exact absurd hhead (by decide)
    exact unsupported_runScript_le p hreply (hx.symm.trans he)
  · exact unsupported_irqSvc_le p he

end Sys2Proof.Machine
end

section
/-! SUPPORT. The aging offset (`44_aging_offset.md`, R200 to R202): OFS.RD and OFS.WR with either answer of the port, and the
round trip, with any number of chip steps between the write and the read. -/

namespace Sys2Proof.Machine

/-! ### OFS.RD (R200) -/

theorem exec_ofsRd_ok {s : State} (hq : Quiet 2 s) (ha : PortSays [.ok] s) :
    exec .ofsRd s = .next (s.ran 2 1 s.reg [⟨.read 0x1E 1, [s.byteAt 0x1E], false⟩]
      [.response s.active [0x00, s.byteAt 0x1E]]) :=
  runScript_one_ok (i := .ofsRd) (x := .read 0x1E 1) (by simp) rfl replyOfsRd hq ha

theorem exec_ofsRd_busError {s : State} {took : List Bool} (hq : Quiet 2 s) (ha : PortSays [.fail took] s) :
    exec .ofsRd s = .next (s.ran 2 1 s.reg [⟨.read 0x1E 1, [], true⟩] [.response s.active [0x01]]) :=
  runScript_one_busError (i := .ofsRd) (x := .read 0x1E 1) (by simp) rfl replyOfsRd hq ha

/-- Settles O42: one read, whose byte is the answer as it stands. -/
theorem ofsRdReturnsTheAgingByte : Obligations.OfsRdReturnsTheAgingByte :=
  ⟨decode_eq_ok_iff.2 ⟨rfl, rfl⟩, fun _ => exec_ofsRd_ok, fun _ _ => exec_ofsRd_busError⟩

/-! ### OFS.WR (R201) -/

theorem aging_inside (v : Byte) : 0x1E + [v].length ≤ Config.regSize := by
  rw [List.length_singleton, Config.regSize_eq]
  decide

/-- There is no operand check, so the command is its one write. -/
theorem exec_ofsWr (v : Byte) (s : State) :
    exec (.ofsWr v) s = runScript (.ofsWr v) [.write 0x1E [v]] (fun _ => [0x00]) s := rfl

/-- Settles O43: one block write of one byte, which the laws of block writes describe for either answer of the port. -/
theorem ofsWrWritesTheAgingByte : Obligations.OfsWrWritesTheAgingByte :=
  fun s v => ⟨decode_eq_ok_iff.2 ⟨rfl, rfl⟩,
    fun hq ha => ⟨_, s.reg.writeBytes_stores 0x1E [v] (aging_inside v),
      (exec_ofsWr v s).trans (runScript_one_ok (by simp) rfl _ hq ha)⟩,
    fun took hq ha => ⟨_, failed_write_stores_part s.reg 0x1E took [v] (aging_inside v),
      (exec_ofsWr v s).trans (runScript_one_busError (by simp) rfl _ hq ha)⟩⟩

/-! ### Chip steps at the points of a command of one transaction -/

/-- A command of one transaction that succeeds, with `n` chip steps before the transaction and `m` after it: the whole
state it leaves (R46, R55). -/
theorem runScript_one_chips {i : Instr} (hi : i ≠ .irqSvc) {x : Xact} (hin : xactInside x = true)
    (reply : List Byte → Frame) {s : State} {n m : Nat} {rest : List (List Move)} (hl : s.lock = none)
    (hm : s.moves = List.replicate n .chip :: List.replicate m .chip :: rest) (ha : PortSays [.ok] s) :
    runScript i [x] reply s = .next (s.ran 2 1 (chipReg^[m] (xactReg x .ok (chipReg^[n] s.reg)))
      [⟨x, xactData x .ok (chipReg^[n] s.reg), false⟩]
      [.response s.active (reply (xactData x .ok (chipReg^[n] s.reg)))]) := by
  have hans : s.answers = .ok :: s.answers.drop 1 := ha.answers_eq
  generalize s.answers.drop 1 = as at hans
  have hissue := issue_chips (s := acquire (takeUp s.active i s)) (f := ⟨i, 0, []⟩) (by simpa using hm)
    (by simp [flightOf_takeUp_self]) x (by simpa using hans)
  have hend := conclude_done_chips (n := m) (rest := rest) (by simp) (flightOf_applyXact_self
    (popAnswer (afterChips n (List.replicate m .chip :: rest) (acquire (takeUp s.active i s)))) x .ok ⟨i, 0, []⟩) reply
  have hrun : runScript i [x] reply s =
      .next (conclude reply (issueAll [x] (acquire (takeUp s.active i s)))) := by
    simp [runScript, locked, hin, hl]
  rw [hrun]
  simp only [issueAll, hissue, portOk, if_true, hend]
  obtain ⟨⟩ := s
  rename_i active _ _ _ _ _ _ _
  cases active <;>
    simp_all [afterChips, applyXact, popAnswer, State.ran, respond, release, takeUp, acquire, State.withFlight,
      State.withPath, State.pathState, portOk]

/-- Any number of chip steps change no byte outside the time block and STATUS1 (R38, R159). -/
theorem chipReg_iterate_get {a : Nat} (h0 : a ≠ 0x00) (h : a < 0x0A ∨ 0x10 < a) (n : Nat) (m : Memory) :
    (chipReg^[n] m).get a = m.get a := by
  induction n generalizing m with
  | zero => rfl
  | succ n ih =>
    rw [Function.iterate_succ_apply, ih]
    exact comparedReg_tickedReg_get_outside Config.tickFn m h0 h

/-! ### The round trip (R202) -/

/-- Settles O44: the chip steps after the write leave AGING alone, and the read delivers the byte of the write. -/
theorem agingReadReturnsTheByteWritten : Obligations.AgingReadReturnsTheByteWritten := by
  intro s v n hl hm ha
  have hmoves : s.moves = List.replicate 0 .chip :: List.replicate n .chip :: [] :: [] :: s.moves.drop 4 := by
    have hsplit := List.take_append_drop 4 s.moves
    rw [hm] at hsplit
    exact hsplit.symm
  have hwr := (exec_ofsWr v s).trans (runScript_one_chips (by simp) rfl (fun _ => [0x00]) hl hmoves
    (portSays_of_le (n := 1) (m := 2) (by decide) ha))
  have haging : (chipReg^[n] (s.reg.writeBytes 0x1E [v])).get 0x1E = v :=
    (chipReg_iterate_get (by decide) (.inr (by decide)) n _).trans
      ((s.reg.writeBytes_stores 0x1E [v] (aging_inside v)).1 0 Nat.zero_lt_one)
  refine ⟨_, _, hwr, exec_ofsRd_ok ⟨by rw [ran_lock, hl], by rw [ran_moves, hmoves]; rfl⟩
    (PortSays.ran (as := [.ok]) ha), ?_⟩
  simp only [ran_outbox, ran_active, State.byteAt, ran_reg, xactReg, Function.iterate_zero, id_eq, haging,
    List.append_assoc, List.singleton_append]

end Sys2Proof.Machine
end

section
/-! SUPPORT. Taking up IRQ.SVC because the line asks for it (`60_exceptions.md` sections 3 and 4, R217, R219, R223): when
the interrupt path does so, at a dispatch turn and while the other path runs a command. -/

namespace Sys2Proof.Machine

/-! ### The line and the three conditions -/

/-- Settles O45: the definition of the line, in the spec's addresses and bits. -/
theorem irqLineIsTheGatedFlagOrTheOthers : Obligations.IrqLineIsTheGatedFlagOrTheOthers := fun _ => rfl

theorem irqLine_congr {u v : State} (hreg : v.reg = u.reg) (hother : v.irqOther = u.irqOther) :
    v.irqLine = u.irqLine := by
  rw [irqLine_eq, irqLine_eq, a1f_eq, a1f_eq, a1ie_eq, a1ie_eq, hreg, hother]

theorem serviceDue_iff (s : State) :
    serviceDue s = true ↔ s.irqLine = true ∧ s.isr = .idle ∧ s.flightOf .irq = none := by
  simp only [serviceDue, Bool.and_eq_true, decide_eq_true_eq, Option.isNone_iff_eq_none, and_assoc]

theorem not_serviceDue {s : State} (h : s.irqLine = false ∨ s.isr = .servicing ∨ s.flightOf .irq ≠ none) :
    serviceDue s = false := by
  refine Bool.eq_false_iff.2 fun hdue => ?_
  obtain ⟨hline, hidle, hfree⟩ := (serviceDue_iff s).1 hdue
  simp [hline, hidle, hfree] at h

/-! ### At a dispatch turn -/

theorem act_of_serve {s : State} {turns : List Move} (h : s.turns = .serve :: turns) :
    act s = serveIrq { s with turns := turns } := by
  simp only [act, nextTurn, popTurn, h]

/-- Settles O8: drawing the turn changes none of the three conditions. -/
theorem stepServesTheInterruptLine : Obligations.StepServesTheInterruptLine := by
  intro s turns hturn
  have hsame : serviceDue { s with turns := turns } = serviceDue s := rfl
  refine ⟨fun hline hidle hfree => ?_, fun hnot => ?_⟩
  · have hdue := (serviceDue_iff s).2 ⟨hline, hidle, hfree⟩
    simp only [step, act_of_serve hturn, serveIrq, hsame, hdue, if_true]
  · have hdue := not_serviceDue hnot
    simp only [step, act_of_serve hturn, serveIrq, hsame, hdue, Bool.false_eq_true, if_false]

/-! ### While the other path runs a command -/

theorem otherServes_of_due {s : State} (hactive : s.active ≠ .irq) (hdue : serviceDue s = true) :
    otherServes s = takeUp .irq .irqSvc s := by
  simp only [otherServes, hactive, hdue, ne_eq, not_false_eq_true, decide_true, Bool.and_self, if_true]

theorem otherServes_of_not_due {s : State}
    (h : s.irqLine = false ∨ s.isr = .servicing ∨ s.flightOf .irq ≠ none ∨ s.active = .irq) :
    otherServes s = s := by
  rcases otherServes_cases s with hsame | ⟨hactive, hfree, hidle, hline, -⟩
  · exact hsame
  · simp [hactive, hfree, hidle, hline] at h

end Sys2Proof.Machine
end

section
/-! SUPPORT. The responses on the path that runs a command (`60_exceptions.md` section 4, R221): the other agents put none
out there, and IRQ.SVC puts out "handled", once. -/

namespace Sys2Proof.Machine

theorem performMove_active (m : Move) (s : State) : (performMove m s).active = s.active := by
  by_cases hm : m = .reset
  · subst hm
    rfl
  · exact (sparesCommand_performMove hm s).active

/-- How many times `frame` was put out on path `p`. -/
def State.responses (p : Path) (frame : Frame) (s : State) : Nat := s.outbox.count (.response p frame)

section
variable {p : Path} {frame : Frame} {u v : State}

theorem responses_congr (h : v.outbox = u.outbox) : v.responses p frame = u.responses p frame :=
  congrArg (List.count _) h

theorem responses_respond_ne {q : Path} (hq : p ≠ q) (reply : Frame) :
    (respond q reply u).responses p frame = u.responses p frame := by
  have hne : Output.response q reply ≠ .response p frame := fun heq => hq (Output.response.inj heq).1.symm
  simp [State.responses, hne]

end

section
variable (frame : Frame)

/-- A move of another agent puts nothing out on the path of the running command; a reset of the block drops what stands
(log entry 16). -/
theorem responses_performMove_le (m : Move) (s : State) :
    (performMove m s).responses s.active frame ≤ s.responses s.active frame := by
  cases m with
  | chip | line => exact Nat.le_refl _
  | send q sent => exact (responses_congr (deliver_outbox s q sent)).le
  | reset => exact Nat.zero_le _
  | serve =>
    rcases otherServes_cases s with h | ⟨_, _, _, _, h⟩ <;> rw [performMove, h]
    exact (responses_congr (takeUp_outbox s _ _)).le
  | run q =>
    rcases otherRuns_cases q s with h | ⟨hq, rest, reply, _, h⟩ | ⟨_, i, _, ⟨f, _, _, h⟩ | ⟨rest, _, h⟩⟩ |
      ⟨hq, f, reply, _, _, h⟩ <;> rw [performMove, h]
    · exact ((responses_respond_ne hq.symm reply).trans (responses_congr (withInbox_outbox ..))).le
    · exact (responses_congr (takeUp_outbox ..)).le
    · exact (responses_congr ((takeUp_outbox ..).trans (withInbox_outbox ..))).le
    · exact (responses_respond_ne hq.symm reply).le

/-- `u` comes, in the course of a command that runs on `s.active`, after `s`, and nothing was put out on that path. -/
structure KeepsResponses (s u : State) : Prop where
  active : u.active = s.active
  responses : u.responses s.active frame ≤ s.responses s.active frame

theorem KeepsResponses.interfere {s u : State} (h : KeepsResponses frame s u) :
    KeepsResponses frame s (interfere u) :=
  interfere_induct (P := KeepsResponses frame s)
    (fun m v hv => ⟨(performMove_active m v).trans hv.active, by
      have hmove := responses_performMove_le frame m v
      rw [hv.active] at hmove
      exact hmove.trans hv.responses⟩)
    (fun v hv => ⟨(popMoves_active v).trans hv.active, (responses_congr (popMoves_outbox v)).le.trans hv.responses⟩) h

/-- What changes neither the path nor the outputs keeps the responses. -/
theorem KeepsResponses.of_same {s u v : State} (h : KeepsResponses frame s u) (hactive : v.active = u.active)
    (hout : v.outbox = u.outbox) : KeepsResponses frame s v :=
  ⟨hactive.trans h.active, (responses_congr hout).le.trans h.responses⟩

/-- The return of IRQ.SVC puts out "handled" once, and no other response (R220, R221). -/
theorem responses_irqSvcReturned (notify : Bool) (s : State) : (irqSvcReturned notify s).responses s.active frame =
    s.responses s.active frame + if frame = [0x00] then 1 else 0 := by
  have hcount : [Output.response s.active [0x00]].count (.response s.active frame) =
      if frame = [0x00] then 1 else 0 := by
    by_cases hframe : frame = [0x00]
    · rw [hframe, if_pos rfl]
      exact List.count_singleton_self
    · rw [if_neg hframe]
      exact List.count_cons_of_ne fun heq => hframe (Output.response.inj heq).2.symm
  rw [State.responses, irqSvcReturned_outbox, List.count_append, List.count_append, hcount, State.responses]
  cases notify <;> simp

/-- IRQ.SVC, whatever the port and the other agents do: one "handled" at most, and nothing else. -/
theorem responses_irqSvc_le {s t : State} (he : exec .irqSvc s = .next t) :
    t.responses s.active frame ≤ s.responses s.active frame + if frame = [0x00] then 1 else 0 := by
  have hstart : KeepsResponses frame s (takeUp s.active .irqSvc s) :=
    ⟨takeUp_active .., (responses_congr (takeUp_outbox ..)).le⟩
  have hc : Carries .irqSvc (fun _ => KeepsResponses frame s) (fun u => u.responses s.active frame ≤
      s.responses s.active frame + if frame = [0x00] then 1 else 0) :=
    { fewer := antitone_const
      point := fun _ u hu => hu.interfere
      xact := fun x _ _ a f u _ hu => hu.of_same frame (by simp) (by simp)
      ended := fun u _ hu => Nat.le_add_right_of_le hu.responses
      replied := fun hi => absurd rfl hi
      returned := fun _ u notify _ _ hu => by
        have hreturn := responses_irqSvcReturned frame notify u
        rw [hu.active] at hreturn
        exact hreturn.le.trans (Nat.add_le_add_right hu.responses _) }
  exact hc.exec (fun _ hnone => by cases hnone) (fun _ _ => Nat.le_add_right_of_le hstart.responses)
    (fun _ _ => hstart.of_same frame rfl rfl) he

end

/-- Settles O47: the count of each response, and INT_EN1 as a byte neither IRQ.SVC nor the chip stores to. -/
theorem irqSvcAnswersNothingButHandled : Obligations.IrqSvcAnswersNothingButHandled := by
  refine fun s t he => ⟨fun frame hframe => ?_, responses_irqSvc_le [0x00] he,
    othersTouchOnlyTheChipBytes s t .irqSvc 0x01 he (by decide) (by decide)⟩
  exact (responses_irqSvc_le frame he).trans_eq (by rw [if_neg hframe, Nat.add_zero, State.responses])

end Sys2Proof.Machine
end

section
/-! SUPPORT. IRQ.SVC undisturbed (`60_exceptions.md` section 4, R220, R221): its read, its clear and its exit, for either
answer of the port. -/

namespace Sys2Proof.Machine

/-! ### The next point and the next answer -/

theorem Quiet.next_point {m n : Nat} {s : State} (hq : Quiet m s) (hn : n < m) :
    s.moves.drop n = [] :: s.moves.drop (n + 1) := by
  have hmoves := congrArg (List.drop n) (quiet_of_le hn hq).moves_eq
  rwa [List.replicate_succ', List.append_assoc, List.drop_left' List.length_replicate] at hmoves

theorem PortSays.next_answer {as : List PortAnswer} {a : PortAnswer} {k : Nat} {s : State} (ha : PortSays as s)
    (hk : as[k]? = some a) : s.answers.drop k = a :: s.answers.drop (k + 1) := by
  have hget : s.answers[k]? = some a := by
    rw [ha.answers_eq, List.getElem?_append_left (List.getElem?_eq_some_iff.1 hk).1, hk]
  obtain ⟨hlt, hval⟩ := List.getElem?_eq_some_iff.1 hget
  rw [List.drop_eq_getElem_cons hlt, hval]

/-! ### IRQ.SVC while it runs -/

/-- IRQ.SVC runs undisturbed on `s`, with LOCK, at the place `f` in its row, past `n` points and `k` transactions, which
made the register space `reg` and left `entries` in TRACE. -/
def serving (s : State) (f : Flight) (n k : Nat) (reg : Memory) (entries : List TraceEntry) : State :=
  { s.withFlight s.active (some f) with
    lock := some s.active
    isr := .servicing
    reg := reg
    moves := s.moves.drop n
    answers := s.answers.drop k
    trace := s.trace ++ entries }

/-- IRQ.SVC starts by being taken up and taking LOCK. -/
theorem serving_start (s : State) :
    acquire (takeUp s.active .irqSvc s) = serving s ⟨.irqSvc, 0, []⟩ 0 0 s.reg [] := by
  rcases s with ⟨_, _, _, _, _, _ | _, _, _, _, _, _, _, _⟩ <;>
    simp [serving, takeUp, acquire, State.withFlight, State.withPath, State.pathState]

theorem exec_irqSvc_of_free {s : State} (hl : s.lock = none) :
    exec .irqSvc s = .next (bodyIrqSvc (serving s ⟨.irqSvc, 0, []⟩ 0 0 s.reg [])) := by
  rcases irqSvc_cases s with ⟨_, hx⟩ | ⟨hheld, _⟩
  · rw [hx, serving_start]
  · exact absurd hl hheld

section
variable {s : State} {f : Flight} {n k : Nat} {reg : Memory} {entries : List TraceEntry}

theorem flightOf_serving : (serving s f n k reg entries).flightOf (serving s f n k reg entries).active = some f := by
  rcases s with ⟨_, _, _, _, _, _ | _, _, _, _, _, _, _, _⟩ <;> rfl

/-- Once the status byte has been read, what it says of the flag decides (R220). -/
theorem sawPending_serving (status : Byte) :
    sawPending (bytesRead (serving s ⟨.irqSvc, 1, [status]⟩ n k reg entries)) = status.getLsbD 0 := by
  rw [bytesRead, flightOf_serving]
  rfl

variable (hm : s.moves.drop n = [] :: s.moves.drop (n + 1))
include hm

theorem issue_serving (x : Xact) {a : PortAnswer} (ha : s.answers.drop k = a :: s.answers.drop (k + 1)) :
    issue x (serving s f n k reg entries) = (if portOk a then .done else .busError,
      serving s { f with index := f.index + 1, bytes := f.bytes ++ xactData x a reg } (n + 1) (k + 1) (xactReg x a reg)
        (entries ++ [⟨x, xactData x a reg, !portOk a⟩])) := by
  rw [issue_quiet x flightOf_serving hm ha]
  rcases s with ⟨_, _, _, _, _, _ | _, _, _, _, _, _, _, _⟩ <;>
    simp [serving, applyXact, State.withFlight, State.withPath, State.pathState]

/-- The exit releases LOCK, notifies if there is something to notify, and answers (R220, R223). -/
theorem exitIrqSvc_serving (hl : s.lock = none) (notify : Bool) :
    exitIrqSvc notify (serving s f n k reg entries) = { s.ran (n + 1) k reg entries
      ((if notify then [.alarmEvent] else []) ++ [.response s.active [0x00]]) with
      isr := isrNow (s.withFlight s.active none) } := by
  rw [exitIrqSvc_quiet notify flightOf_serving hm]
  rcases s with ⟨_, _, _, _, _, _ | _, _, _, _, _, _, _, _⟩ <;> subst hl <;> cases notify <;>
    simp [serving, irqSvcReturned, notified, State.ran, respond, release, emitAlarm, isrNow, State.withFlight,
      State.withPath, State.pathState, okFrame, statusCode]

end

/-! ### The body by the port's answers -/

section
variable {u v : State}

theorem bodyIrqSvc_read_fails (hread : issue readStatus1 u = (.busError, v)) : bodyIrqSvc u = exitIrqSvc false v := by
  simp only [bodyIrqSvc, issueAll, hread]

theorem bodyIrqSvc_nothing_pending (hread : issue readStatus1 u = (.done, v))
    (hsaw : sawPending (bytesRead v) = false) : bodyIrqSvc u = exitIrqSvc false v := by
  simp only [bodyIrqSvc, issueAll, hread, hsaw, Bool.false_eq_true, if_false]

/-- The event is put out exactly if the clear succeeds. -/
theorem bodyIrqSvc_clears {w : State} {took : Bool} (hread : issue readStatus1 u = (.done, v))
    (hsaw : sawPending (bytesRead v) = true) (hclear : issue clearA1f v = (if took then .done else .busError, w)) :
    bodyIrqSvc u = exitIrqSvc took w := by
  cases took <;> simp [bodyIrqSvc, issueAll, hread, hsaw, hclear]

end

/-! ### The whole command -/

section
variable {s : State}

/-- The read of the status byte, with either answer of the port (R41, R221). -/
theorem issue_readStatus1_serving {a : PortAnswer} {as : List PortAnswer} (hq : Quiet 1 s) (ha : PortSays (a :: as) s) :
    issue readStatus1 (serving s ⟨.irqSvc, 0, []⟩ 0 0 s.reg []) = (if portOk a then .done else .busError,
      serving s ⟨.irqSvc, 1, xactData readStatus1 a s.reg⟩ 1 1 s.reg
        [⟨readStatus1, xactData readStatus1 a s.reg, !portOk a⟩]) :=
  issue_serving (f := ⟨.irqSvc, 0, []⟩) (reg := s.reg) (entries := []) (hq.next_point (n := 0) (by decide)) readStatus1
    (ha.next_answer (k := 0) rfl)

theorem exec_irqSvc_read_fails {took : List Bool} (hq : Quiet 2 s) (ha : PortSays [.fail took] s) :
    exec .irqSvc s = .next { s.ran 2 1 s.reg [⟨.read 0x00 1, [], true⟩]
      [.response s.active [0x00]] with isr := isrNow (s.withFlight s.active none) } := by
  have hread := issue_readStatus1_serving (quiet_of_le (by decide) hq) ha
  rw [exec_irqSvc_of_free hq.1, bodyIrqSvc_read_fails hread,
    exitIrqSvc_serving (hq.next_point (n := 1) (by decide)) hq.1]
  rfl

theorem exec_irqSvc_nothing_pending (hq : Quiet 2 s) (ha : PortSays [.ok] s)
    (hclear : (s.byteAt 0x00).getLsbD 0 = false) :
    exec .irqSvc s = .next { s.ran 2 1 s.reg [⟨.read 0x00 1, [s.byteAt 0x00], false⟩]
      [.response s.active [0x00]] with isr := isrNow (s.withFlight s.active none) } := by
  have hread := issue_readStatus1_serving (quiet_of_le (by decide) hq) ha
  rw [exec_irqSvc_of_free hq.1,
    bodyIrqSvc_nothing_pending hread ((sawPending_serving (s.byteAt 0x00)).trans hclear),
    exitIrqSvc_serving (hq.next_point (n := 1) (by decide)) hq.1]
  rfl

/-- With the flag set, for either answer `a` of the port to the clear. -/
theorem exec_irqSvc_pending {a : PortAnswer} (hq : Quiet 3 s) (ha : PortSays [.ok, a] s)
    (hset : (s.byteAt 0x00).getLsbD 0 = true) :
    exec .irqSvc s = .next { s.ran 3 2 (xactReg (.update 0x00 0x01 0x00) a s.reg)
      [⟨.read 0x00 1, [s.byteAt 0x00], false⟩, ⟨.update 0x00 0x01 0x00, [], !portOk a⟩]
      ((if portOk a then [.alarmEvent] else []) ++ [.response s.active [0x00]]) with
      isr := isrNow (s.withFlight s.active none) } := by
  have hread := issue_readStatus1_serving (quiet_of_le (by decide) hq) ha
  have hclear := issue_serving (f := ⟨.irqSvc, 1, [s.byteAt 0x00]⟩) (k := 1) (reg := s.reg)
    (entries := [⟨.read 0x00 1, [s.byteAt 0x00], false⟩]) (hq.next_point (n := 1) (by decide)) clearA1f
    (ha.next_answer rfl)
  rw [exec_irqSvc_of_free hq.1,
    bodyIrqSvc_clears hread ((sawPending_serving (s.byteAt 0x00)).trans hset) hclear,
    exitIrqSvc_serving (hq.next_point (n := 2) (by decide)) hq.1]
  cases a <;> rfl

end

theorem isrNow_of_no_irqSvc {s : State} (hhost : hasIrqSvc s.host = false) (hirq : hasIrqSvc s.irq = false) :
    isrNow s = .idle := by
  rw [isrNow, hhost, hirq]
  rfl

/-- Settles O46: the read decides whether there is a clear, and the clear whether there is an event. -/
theorem irqSvcAcknowledgesAndNotifies : Obligations.IrqSvcAcknowledgesAndNotifies := by
  refine ⟨decode_eq_ok_iff.2 ⟨rfl, rfl⟩, fun s hq ha hset => ⟨_, ?_, exec_irqSvc_pending hq ha hset⟩,
    fun s => exec_irqSvc_nothing_pending, fun s took hq ha hset => ⟨_, ?_, exec_irqSvc_pending hq ha hset⟩,
    fun s took => exec_irqSvc_read_fails, fun s => isrNow_of_no_irqSvc⟩ <;> rw [← mergeBits_clear_flag]
  · exact update_stores s.reg 0x01 0x00 (by decide)
  · exact failed_update_stores_part s.reg took 0x01 0x00 (by decide)

end Sys2Proof.Machine
end

section
/-! SUPPORT. A host command at one of whose points the interrupt path takes up IRQ.SVC (`60_exceptions.md` section 4, R219,
R223): from that point on the command runs as it would have, and IRQ.SVC waits in flight. -/

namespace Sys2Proof.Machine

/-! ### A script cut at a point -/

theorem scriptReg_append (xs ys : List Xact) (m : Memory) :
    scriptReg (xs ++ ys) m = scriptReg ys (scriptReg xs m) := by
  induction xs generalizing m with
  | nil => rfl
  | cons x xs ih => exact ih _

theorem scriptData_append (xs ys : List Xact) (m : Memory) :
    scriptData (xs ++ ys) m = scriptData xs m ++ scriptData ys (scriptReg xs m) := by
  induction xs generalizing m with
  | nil => rfl
  | cons x xs ih => rw [List.cons_append, scriptData, ih, scriptData, List.append_assoc, scriptReg]

theorem scriptEntries_append (xs ys : List Xact) (m : Memory) :
    scriptEntries (xs ++ ys) m = scriptEntries xs m ++ scriptEntries ys (scriptReg xs m) := by
  induction xs generalizing m with
  | nil => rfl
  | cons x xs ih => rw [List.cons_append, scriptEntries, ih, scriptEntries, List.cons_append, scriptReg]

/-- The rest of a command depends on the state through its next point only. -/
theorem conclude_issueAll_of_interfere_eq (reply : List Byte → Frame) (xs : List Xact) {u v : State}
    (h : interfere u = interfere v) : conclude reply (issueAll xs u) = conclude reply (issueAll xs v) := by
  cases xs with
  | nil => simp only [issueAll, conclude, h]
  | cons x xs => simp only [issueAll, issue, h]

/-- At a point where the line asks for service, the interrupt path takes up IRQ.SVC: the point is as one at which nobody
moves, from a state with IRQ.SVC already in flight. -/
theorem interfere_serve {u : State} {rest : List (List Move)} (hm : u.moves = [.serve] :: rest)
    (hactive : u.active ≠ .irq) (hdue : serviceDue u = true) :
    interfere u = interfere (takeUp .irq .irqSvc { u with moves := [] :: rest }) := by
  have hserve : otherServes { u with moves := rest } = takeUp .irq .irqSvc { u with moves := rest } :=
    otherServes_of_due hactive hdue
  have hserved : interfere u = takeUp .irq .irqSvc { u with moves := rest } := by
    simpa [interfere, nextMoves, popMoves, hm, performMoves, performMove] using hserve
  rw [hserved, interfere_quiet (rest := rest) (takeUp_moves ..)]
  rfl

theorem flightOf_afterScript_ne (xs : List Xact) (f : Flight) (rest : List (List Move)) (as : List PortAnswer)
    {s : State} {q : Path} (hq : q ≠ s.active) : (afterScript xs f rest as s).flightOf q = s.flightOf q := by
  rw [← flightOf_withFlight_ne s _ hq]
  cases q <;> rfl

/-! ### The command from that point on -/

/-- The rest `ys` of a host command whose point comes next: it ends as after an undisturbed script, with IRQ.SVC in
flight on the interrupt path. -/
theorem conclude_issueAll_served (reply : List Byte → Frame) {u : State} {f : Flight} {ys : List Xact}
    {rest : List (List Move)} {as : List PortAnswer} (hactive : u.active = .host) (hf : u.flightOf .host = some f)
    (hdue : serviceDue u = true) (hm : u.moves = [.serve] :: (List.replicate ys.length [] ++ rest))
    (ha : u.answers = List.replicate ys.length .ok ++ as) :
    conclude reply (issueAll ys u) = respond .host (reply (f.bytes ++ scriptData ys u.reg))
      (release (afterScript ys f rest as (takeUp .irq .irqSvc u))) := by
  have hpoint := interfere_serve hm (by simp [hactive]) hdue
  rw [conclude_issueAll_of_interfere_eq reply ys hpoint,
    issueAll_undisturbed ys (f := f) (rest := [] :: rest) (as := as) ?flight ?moves (by simpa using ha),
    conclude_done_quiet reply (flightOf_afterScript ..) (rest := rest) rfl]
  case flight => rwa [takeUp_active, hactive, flightOf_takeUp_ne _ _ (by decide)]
  case moves =>
    rw [takeUp_moves, ← List.cons_append, ← List.replicate_succ, List.replicate_succ', List.append_assoc]
    rfl
  rcases u with ⟨_, _, _, _, _, _ | _, _, _, _, _, _, _, _⟩
  · rfl
  · cases hactive

/-! ### The command up to that point -/

/-- Command `i` has taken LOCK and issued `xs`, undisturbed; `rest` and `as` are the moves and answers still to come. -/
def reached (i : Instr) (xs : List Xact) (rest : List (List Move)) (as : List PortAnswer) (s : State) : State :=
  afterScript xs ⟨i, 0, []⟩ rest as (acquire (takeUp s.active i s))

section
variable {i : Instr} {xs : List Xact} {rest : List (List Move)} {as : List PortAnswer} {s : State}

@[simp] theorem reached_active : (reached i xs rest as s).active = s.active := by simp [reached, afterScript]
@[simp] theorem reached_reg : (reached i xs rest as s).reg = scriptReg xs s.reg := by simp [reached, afterScript]
@[simp] theorem reached_irqOther : (reached i xs rest as s).irqOther = s.irqOther := by simp [reached, afterScript]

theorem flightOf_reached :
    (reached i xs rest as s).flightOf s.active = some ⟨i, xs.length, scriptData xs s.reg⟩ := by
  simpa [reached, afterScript] using flightOf_afterScript xs ⟨i, 0, []⟩ rest as (acquire (takeUp s.active i s))

theorem runScript_reached {ys : List Xact} (hin : (xs ++ ys).all xactInside = true) (reply : List Byte → Frame)
    (hl : s.lock = none) (hm : s.moves = List.replicate xs.length [] ++ rest)
    (ha : s.answers = List.replicate xs.length .ok ++ as) :
    runScript i (xs ++ ys) reply s = .next (conclude reply (issueAll ys (reached i xs rest as s))) := by
  have hfirst := issueAll_undisturbed xs (s := acquire (takeUp s.active i s)) (f := ⟨i, 0, []⟩)
    (by simp [flightOf_takeUp_self]) (by simpa using hm) (by simpa using ha)
  have hcut := issueAll_append xs ys (by rw [hfirst])
  rw [hfirst] at hcut
  simp only [runScript, locked, if_pos hin, hl, hcut, reached]

/-- The running command changes of the three conditions only the line, through the registers. -/
theorem serviceDue_reached (hi : i ≠ .irqSvc) (hactive : s.active = .host) (hidle : s.isr = .idle)
    (hfree : s.flightOf .irq = none) (hline : State.irqLine { s with reg := scriptReg xs s.reg } = true) :
    serviceDue (reached i xs rest as s) = true := by
  have hsame : (reached i xs rest as s).irqLine = State.irqLine { s with reg := scriptReg xs s.reg } :=
    irqLine_congr reached_reg reached_irqOther
  refine (serviceDue_iff _).2 ⟨hsame.trans hline, ?isr, ?free⟩
  case isr => simp [reached, afterScript, hi, hidle]
  case free =>
    rw [reached, flightOf_afterScript_ne _ _ _ _ (by simp [hactive]), flightOf_acquire,
      flightOf_takeUp_ne _ _ (by simp [hactive]), hfree]

end

/-! ### The whole command -/

section
variable (s : State) (n k : Nat) (reg : Memory) (entries : List TraceEntry) (outs : List Output)

@[simp] theorem ran_trace : (s.ran n k reg entries outs).trace = s.trace ++ entries := rfl
@[simp] theorem ran_turns : (s.ran n k reg entries outs).turns = s.turns := withFlight_turns ..

@[simp] theorem flightOf_ran_active : (s.ran n k reg entries outs).flightOf s.active = none := by
  rcases s with ⟨_, _, _, _, _, _ | _, _, _, _, _, _, _, _⟩ <;> rfl

end

section
variable {i : Instr} (hi : i ≠ .irqSvc) {s : State} (hactive : s.active = .host) (hl : s.lock = none)
  (hidle : s.isr = .idle) (hfree : s.flightOf .irq = none)
include hi hactive hl hidle hfree

/-- A host command that runs undisturbed but for one point, at which the line asks for service, leaves what it leaves
undisturbed, and IRQ.SVC taken up. -/
theorem runScript_served {xs ys : List Xact} (hin : (xs ++ ys).all xactInside = true) (reply : List Byte → Frame)
    (hm : s.moves.take ((xs ++ ys).length + 1) =
      List.replicate xs.length [] ++ [[.serve]] ++ List.replicate ys.length [])
    (ha : PortSays (List.replicate (xs ++ ys).length .ok) s)
    (hline : State.irqLine { s with reg := scriptReg xs s.reg } = true) :
    runScript i (xs ++ ys) reply s = .next (takeUp .irq .irqSvc (s.ran ((xs ++ ys).length + 1) (xs ++ ys).length
      (scriptReg (xs ++ ys) s.reg) (scriptEntries (xs ++ ys) s.reg)
      [.response .host (reply (scriptData (xs ++ ys) s.reg))])) := by
  have hmoves := List.take_append_drop ((xs ++ ys).length + 1) s.moves
  rw [hm, List.append_assoc, List.append_assoc, List.singleton_append] at hmoves
  have hanswers := ha.answers_eq
  rw [List.length_replicate, List.length_append, List.replicate_add, List.append_assoc] at hanswers
  rw [runScript_reached hin reply hl hmoves.symm hanswers,
    conclude_issueAll_served reply (by rw [reached_active, hactive]) (hactive ▸ flightOf_reached)
      (serviceDue_reached hi hactive hidle hfree hline) rfl rfl,
    scriptReg_append, scriptEntries_append, scriptData_append]
  rcases s with ⟨_, _, _, _, _, _ | _, _, _, _, _, _, _, _⟩
  · subst hl
    simp [reached, afterScript, takeUp, hi, acquire, respond, release, State.ran, State.withFlight, State.withPath,
      State.pathState]
  · cases hactive

/-- The same of any host command but IRQ.SVC, taken up after `k` of its transactions. -/
theorem exec_served (hrow : issues i ≠ []) {k : Nat} (hk : k ≤ (issues i).length)
    (hm : s.moves.take ((issues i).length + 1) =
      List.replicate k [] ++ [[.serve]] ++ List.replicate ((issues i).length - k) [])
    (ha : PortSays (List.replicate (issues i).length .ok) s)
    (hline : State.irqLine { s with reg := scriptReg ((issues i).take k) s.reg } = true) :
    ∃ frame, exec i s = .next (takeUp .irq .irqSvc (s.ran ((issues i).length + 1) (issues i).length
      (scriptReg (issues i) s.reg) (scriptEntries (issues i) s.reg) [.response .host (0x00 :: frame)])) := by
  rcases exec_cases i s with ⟨frame, hanswer, _⟩ | ⟨_, _, hin, reply, hok, hx⟩ | hsvc
  · rw [answerBeforeLock_eq, if_neg hrow] at hanswer
    cases hanswer
  · obtain ⟨frame, hframe⟩ := List.head?_eq_some_iff.1 (hok (scriptData (issues i) s.reg))
    have hcut : (issues i).take k ++ (issues i).drop k = issues i := List.take_append_drop k _
    have hserved := runScript_served hi hactive hl hidle hfree (xs := (issues i).take k)
      (ys := (issues i).drop k) (by rwa [hcut]) reply
      (by rwa [hcut, List.length_take_of_le hk, List.length_drop]) (by rwa [hcut]) hline
    rw [hcut, hframe] at hserved
    exact ⟨frame, hx.trans hserved⟩
  · exact absurd hsvc hi

end

/-- Settles O55: what the command leaves undisturbed, with IRQ.SVC in flight, which the next turn of its path resumes. -/
theorem interruptTakenUpDuringCommandWaits : Obligations.InterruptTakenUpDuringCommandWaits := by
  refine ⟨fun s i k turns hrow hi hk hactive hl hidle hfree hturns hm ha hline => ?_, fun s => otherServes_of_not_due⟩
  obtain ⟨frame, hx⟩ := exec_served hi hactive hl hidle hfree hrow hk hm ha hline
  have hflight := flightOf_takeUp_self (s.ran ((issues i).length + 1) (issues i).length (scriptReg (issues i) s.reg)
    (scriptEntries (issues i) s.reg) [.response .host (0x00 :: frame)]) .irq .irqSvc
  refine ⟨_, scriptEntries (issues i) s.reg, frame, hx, hflight, by simp, ?host, by simp [hl], by simp, by simp,
    scriptEntries_xacts _ _, by simp, stepResumesWaitingCommand _ _ _ _ (by simpa using hturns) hflight⟩
  case host => rw [flightOf_takeUp_ne _ _ (by decide), ← hactive, flightOf_ran_active]

end Sys2Proof.Machine
end

section
/-! SUPPORT. Reset (`70_reset_and_hazards.md` section 1, R240, R241): the state after it, the turn that resets the block, and
the invariant, which holds wherever nothing is in flight. -/

namespace Sys2Proof.Machine

@[simp] theorem flightOf_resetWith (reg : Memory) (q : Path) : (State.resetWith reg).flightOf q = none := by
  cases q <;> rfl

/-- Settles O56: the paths start with nothing in flight, and the other fields are those reset gives. -/
theorem resetLeavesTheBlockIdle : Obligations.ResetLeavesTheBlockIdle :=
  fun reg => ⟨rfl, rfl, flightOf_resetWith reg .host, flightOf_resetWith reg .irq, rfl, rfl, rfl⟩

theorem step_of_reset {s : State} {turns : List Move} (h : s.turns = .reset :: turns) :
    step s = .next (blockReset { s with turns := turns }) := by
  simp only [step, act, nextTurn, popTurn, h]

/-- Settles O57: the turn is `blockReset`, whose laws give each field. -/
theorem blockResetKeepsTheRegisterSpace : Obligations.BlockResetKeepsTheRegisterSpace := by
  intro s turns hturn
  have hfree := endedByReset_blockReset { s with turns := turns }
  exact ⟨_, step_of_reset hturn, blockReset_reg _, hfree.lock, blockReset_isr _, hfree.flight .host, hfree.flight .irq,
    blockReset_outbox _, hfree.trace, blockReset_irqOther _⟩

/-- With LOCK free, the handler idle and nothing in flight, the invariant asks only for the canonical form. -/
theorem inv_of_nothing_in_flight {s : State} (hreg : s.reg.wf = true) (hlock : s.lock = none) (hidle : s.isr = .idle)
    (hnone : ∀ q, s.flightOf q = none) : s.inv = true := by
  have hserves : ¬ s.servesIrq := by
    rintro ⟨p, f, hf, -⟩
    cases (hnone p).symm.trans hf
  have hagrees : s.handlerAgrees := by
    rw [State.handlerAgrees, hidle]
    exact iff_of_false (by decide) hserves
  refine (inv_iff s).2 ⟨hreg, hlock, hagrees, fun p f hf => ?_⟩
  cases (hnone p).symm.trans hf

theorem inv_resetWith {reg : Memory} (h : reg.wf = true) : (State.resetWith reg).inv = true :=
  inv_of_nothing_in_flight h rfl rfl (flightOf_resetWith reg)

/-- Settles O59: nothing is in flight after reset, and the all-zero register space is canonical. -/
theorem resetMeetsTheInvariant : Obligations.ResetMeetsTheInvariant :=
  ⟨fun _ => inv_resetWith, inv_resetWith wf_reset⟩

end Sys2Proof.Machine
end

section
/-! SUPPORT. TIME.WR and the hour's mode (`70_reset_and_hazards.md` section 3, R249, R135): the hour byte it writes is in
24-hour form. -/

namespace Sys2Proof.Machine

/-- A packed hour of the day stays below the 12/24-hour mode bit (R18, R129). -/
theorem mode_of_packed_hour {hour : Nat} (h : hour ≤ 23) : bitOf (packed hour) Config.bHr1224 = false := by
  have key : ∀ k, k < 24 → bitOf (packed k) Config.bHr1224 = false := by decide
  exact key hour (by omega)

/-- TIME.WR stores the packed hour in HOURS, its third target. -/
theorem hours_after_timeWr (m : Memory) (sec min hour wday mday mon y : Nat) :
    (m.writeBytes 0x0A (packedTime sec min hour wday mday mon y)).get 0x0C = packed hour :=
  (m.writeBytes_stores 0x0A _ packedTime_inside).1 2 (by rw [packedTime_length]; decide)

/-- Settles O19: HOURS holds the packed hour, whose mode bit is clear and which decodes to the hour. -/
theorem timeWrForces24HourMode : Obligations.TimeWrForces24HourMode := by
  intro s sec min hour wday mday mon y h hq ha
  have hhours := hours_after_timeWr s.reg sec min hour wday mday mon y
  have ⟨_, _, hhour, _⟩ := h
  refine ⟨_, exec_timeWr_ok h hq ha, ?mode, ?decoded⟩
  case mode => exact (congrArg (bitOf · Config.bHr1224) hhours).trans (mode_of_packed_hour hhour)
  case decoded => exact (congrArg decodeHour hhours).trans (decodeHour_packed hhour)

end Sys2Proof.Machine
end

section
/-! SUPPORT. A whole row of transactions with any number of chip steps at each of its points (`20_memory.md` section 2, R46,
R55), and ALM.WR under them: its last transaction discards the flag (`70_reset_and_hazards.md` section 3, R246). -/

namespace Sys2Proof.Machine

/-- The register space after transactions that all succeed, each after the number of chip steps it is paired with. -/
def chipScriptReg : List (Nat × Xact) → Memory → Memory
  | [], m => m
  | (n, x) :: xs, m => chipScriptReg xs (xactReg x .ok (chipReg^[n] m))

/-- The moves at the points before them: the chip's steps and nothing else. -/
def chipPoints (xs : List (Nat × Xact)) : List (List Move) := xs.map fun x => List.replicate x.1 .chip

/-- `t` is `s` once the transactions `xs` of the command in flight have succeeded, each after its chip steps; `rest`
are the moves still to come. -/
structure RanAmongChips (xs : List (Nat × Xact)) (rest : List (List Move)) (s t : State) : Prop where
  reg : t.reg = chipScriptReg xs s.reg
  active : t.active = s.active
  outbox : t.outbox = s.outbox
  moves : t.moves = rest
  flight : ∃ f, t.flightOf t.active = some f

/-- Each transaction is on the register space as its chip steps leave it, and they end no command (R46, R53, R55). -/
theorem issueAll_chips (xs : List (Nat × Xact)) {s : State} {f : Flight} {rest : List (List Move)} {as : List PortAnswer}
    (hf : s.flightOf s.active = some f) (hm : s.moves = chipPoints xs ++ rest)
    (ha : s.answers = List.replicate xs.length .ok ++ as) :
    ∃ t, issueAll (xs.map Prod.snd) s = (.done, t) ∧ RanAmongChips xs rest s t := by
  induction xs generalizing s f with
  | nil => exact ⟨s, rfl, rfl, rfl, rfl, hm, f, hf⟩
  | cons x xs ih =>
    obtain ⟨n, x⟩ := x
    have hissue := issue_chips (rest := chipPoints xs ++ rest) hm hf x ha
    have hanswers : (popAnswer (afterChips n (chipPoints xs ++ rest) s)).answers = List.replicate xs.length .ok ++ as := by
      simp [popAnswer, ha, List.replicate_succ]
    obtain ⟨t, hrun, ht⟩ := ih (flightOf_applyXact_self (popAnswer (afterChips n (chipPoints xs ++ rest) s)) x .ok f)
      (by simp) (by simpa using hanswers)
    refine ⟨t, ?_, ?reg, ht.active.trans (by simp), ht.outbox.trans (by simp), ht.moves, ht.flight⟩
    · simp only [List.map_cons, issueAll, hissue, portOk, if_true, hrun]
    case reg => simpa [chipScriptReg] using ht.reg

/-- A command whose transactions all succeed, with any number of chip steps before each of them and `last` before the
release of LOCK. -/
theorem runScript_chips (i : Instr) (xs : List (Nat × Xact)) (hin : (xs.map Prod.snd).all xactInside = true) (frame : Frame)
    {s : State} {last : Nat} {rest : List (List Move)} (hl : s.lock = none)
    (hm : s.moves = chipPoints xs ++ List.replicate last .chip :: rest)
    (ha : PortSays (List.replicate xs.length .ok) s) :
    ∃ t, runScript i (xs.map Prod.snd) (fun _ => frame) s = .next t ∧ t.reg = chipReg^[last] (chipScriptReg xs s.reg) ∧
      t.outbox = s.outbox ++ [.response s.active frame] := by
  obtain ⟨u, hrun, hu⟩ := issueAll_chips xs (s := acquire (takeUp s.active i s)) (f := ⟨i, 0, []⟩)
    (by simp [flightOf_takeUp_self]) (by simpa using hm) (by simpa using ha.answers_eq)
  obtain ⟨f, hf⟩ := hu.flight
  refine ⟨conclude (fun _ => frame) (.done, u), ?_, ?_⟩
  · simp [runScript, locked, hin, hl, hrun]
  · rw [conclude_done_chips hu.moves hf]
    simp [hu.reg, hu.outbox, hu.active]

/-- Clearing A1F clears it, whatever the register space (R43, R155). -/
theorem a1f_cleared (m : Memory) : ((xactReg (.update 0x00 0x01 0x00) .ok m).get 0x00).getLsbD 0 = false := by
  have hbyte := (xactReg_update_get_self m .ok (addr := 0x00) 0x01 0x00 (by decide)).trans (mergeBits_clear_flag _)
  exact (congrArg (·.getLsbD 0) hbyte).trans (flag_of_cleared _)

/-- Settles O32: however often the chip set A1F, the third transaction clears it, and no chip step follows. -/
theorem flagSetDuringAlmWrIsLost : Obligations.FlagSetDuringAlmWrIsLost := by
  intro s sec min hour mday mon y a b c en hen h hl hm ha
  have hmoves := List.take_append_drop 4 s.moves
  rw [hm] at hmoves
  obtain ⟨t, hx, hreg, hout⟩ := runScript_chips (.almWr sec min hour mday mon y en)
    [(a, .write 0x11 (packedAlarm sec min hour mday mon y)), (b, .update 0x01 0x01 en), (c, .update 0x00 0x01 0x00)]
    rfl [0x00] (last := 0) hl hmoves.symm ha
  refine ⟨t, (exec_almWr_legal hen h).trans hx, ?_, hout⟩
  rw [a1f_eq, hreg]
  exact a1f_cleared _

end Sys2Proof.Machine
end

section
/-! SUPPORT. No command stops the machine (`00_scope.md` section 5, item 5): the transactions a command issues are all on the
register space (`20_memory.md` R48, R49), so every turn, in every state, answers a next state. -/

namespace Sys2Proof.Machine

/-- A script on the register space answers a next state, whether it gets LOCK or waits for it. -/
theorem runScript_answers (i : Instr) {script : List Xact} (hin : script.all xactInside = true)
    (reply : List Byte → Frame) (s : State) : ∃ t, runScript i script reply s = .next t := by
  rcases locked_cases i script (fun u => conclude reply (issueAll script u)) s with
    ⟨hout, _⟩ | ⟨_, _, hruns⟩ | ⟨_, _, hwaits⟩
  · cases hin.symm.trans hout
  · exact ⟨_, hruns⟩
  · exact ⟨_, hwaits⟩

/-- A command answers a next state, whatever LOCK, the port and the other agents do. -/
theorem exec_answers (i : Instr) (s : State) : ∃ t, exec i s = .next t := by
  rcases exec_cases i s with ⟨frame, _, hanswered⟩ | ⟨_, _, hin, reply, _, hscript⟩ | rfl
  · exact ⟨_, hanswered⟩
  · rw [hscript]
    exact runScript_answers i hin reply s
  · rcases irqSvc_cases s with ⟨_, hruns⟩ | ⟨_, hwaits⟩
    · exact ⟨_, hruns⟩
    · exact ⟨_, hwaits⟩

/-- Settles O9: a turn is complete by itself, or it runs a command, which answers a next state. -/
theorem everyStepAnswersANextState : Obligations.EveryStepAnswersANextState := by
  intro s
  simp only [step]
  cases act s with
  | moved t => exact ⟨t, rfl⟩
  | runs i u => exact exec_answers i u

end Sys2Proof.Machine
end
